-- ==== Sys2Proof/Word.lean ====
section
/-!
DEFINITION. The plainest types of the framer: bits, bytes and the numbers its registers hold (00_scope.md R8, R9).
-/

namespace Sys2Proof

/-- A bit of a data stream (R8): `true` is 1. Log 16. -/
abbrev Bit := Bool

/-- A byte value, an integer in [0,255] (R6), and the command word (R90). -/
abbrev Byte := BitVec 8

/-- BYTE_LEN of R6: the width in bits of a byte group. -/
abbrev byteLen : Nat := 8

end Sys2Proof
end

