-- ==== Sys2Proof/Syntax.lean ====
section
/-!
DEFINITION. The eleven commands, one constructor per row of the opcode table (30_encoding.md R93). The only operands in
the command word are the two flag bits (R92).
-/

namespace Sys2Proof

/-- The commands of R93, in the order of their opcodes 0x1 to 0xB. -/
inductive Instr where
  /-- BITS2BYTES (R123) -/
  | bits2bytes
  /-- BYTES2BITS (R124) -/
  | bytes2bits
  /-- BYTES2CHARS (R126) -/
  | bytes2chars
  /-- CHARS2BYTES (R127) -/
  | chars2bytes
  /-- PAD (R142) -/
  | pad
  /-- FRAME (R145) -/
  | frame
  /-- MKPERM, and MKPERM.I with the flag I set (R161) -/
  | mkperm (drawn : Bool)
  /-- ILV (R162) -/
  | ilv
  /-- DILV (R163) -/
  | dilv
  /-- ENC, and ENC.I with the flag I set (R177) -/
  | enc (interleave : Bool)
  /-- DEC, and DEC.P with the flag P set (R204) -/
  | dec (permuted : Bool)
  deriving DecidableEq, Repr

end Sys2Proof
end

