-- ==== Sys2Proof/WellFormed.lean ====
section
/-!
DEFINITION. Which command words are well-formed (30_encoding.md R91, R94), by the three checks a word can fail. Every
term of `Instr` is a legal command: its flags are single bits and a format without a flag has no place for one.
-/

namespace Sys2Proof

/-- The three formats of R91. -/
inductive Format where
  /-- no flag -/
  | z
  /-- flag I in bit 4 -/
  | fi
  /-- flag P in bit 5 -/
  | fp
  deriving DecidableEq, Repr

/-- The format of an opcode, or none where R93 has no row for it. -/
def formatOfOpcode (op : Nat) : Option Format :=
  match op with
  | 1 | 2 | 3 | 4 | 5 | 6 | 8 | 9 => some .z
  | 7 | 10 => some .fi
  | 11 => some .fp
  | _ => none

/-- CMD[7:6] is 00 (R91). -/
def reservedBitsZero (c : Byte) : Bool := c.extractLsb' 6 2 = 0#2

/-- CMD[3:0] is an opcode of R93. -/
def opcodeAssigned (c : Byte) : Bool := (formatOfOpcode (c.extractLsb' 0 4).toNat).isSome

/-- The flag bits the word sets are those its format has (R91). -/
def flagsFitFormat (c : Byte) : Bool :=
  match formatOfOpcode (c.extractLsb' 0 4).toNat with
  | some .z => !c.getLsbD 4 && !c.getLsbD 5
  | some .fi => !c.getLsbD 5
  | some .fp => !c.getLsbD 4
  | none => true

/-- A command word that R94 does not call illegal. -/
def wordWellFormed (c : Byte) : Bool := reservedBitsZero c && opcodeAssigned c && flagsFitFormat c

/-- Every command term is well-formed: the syntax has no place for a flag its format lacks. -/
def Instr.wellFormed (i : Instr) : Bool :=
  match i with
  | .bits2bytes => true
  | .bytes2bits => true
  | .bytes2chars => true
  | .chars2bytes => true
  | .pad => true
  | .frame => true
  | .mkperm _ => true
  | .ilv => true
  | .dilv => true
  | .enc _ => true
  | .dec _ => true

end Sys2Proof
end

