-- ==== Sys2Proof/Decode.lean ====
section
/-!
DEFINITION. From a command byte to a command, and back (30_encoding.md R90 to R95). The decoder is total: every byte is
one row of R93 or is rejected by name.
-/

namespace Sys2Proof

/-- Why a byte is no command (R94). -/
inductive DecodeError where
  /-- CMD[7:6] is not 00 -/
  | reservedBits
  /-- opcode 0x0, or 0xC to 0xF -/
  | opcodeUnassigned
  /-- a flag bit that the opcode's format does not have -/
  | flagNotInFormat
  deriving DecidableEq, Repr

/-- The decoder's answer. -/
inductive Decoded where
  | command (i : Instr)
  | illegal (why : DecodeError)
  deriving DecidableEq, Repr

/-- One row of R93: a word `c` selects it when `c AND mask = pattern`. -/
structure OpRow where
  pattern : Byte
  mask : Byte
  deriving DecidableEq, Repr

def OpRow.selects (r : OpRow) (c : Byte) : Bool := c &&& r.mask = r.pattern

/-- The match and mask columns of R93, in its order. -/
def opcodeTable : List OpRow :=
  [⟨0x01#8, 0xFF#8⟩, ⟨0x02#8, 0xFF#8⟩, ⟨0x03#8, 0xFF#8⟩, ⟨0x04#8, 0xFF#8⟩, ⟨0x05#8, 0xFF#8⟩, ⟨0x06#8, 0xFF#8⟩,
   ⟨0x07#8, 0xEF#8⟩, ⟨0x08#8, 0xFF#8⟩, ⟨0x09#8, 0xFF#8⟩, ⟨0x0A#8, 0xEF#8⟩, ⟨0x0B#8, 0xDF#8⟩]

/-- The flag I, CMD[4] (R91). -/
def flagI (c : Byte) : Bool := c.getLsbD 4

/-- The flag P, CMD[5] (R91). -/
def flagP (c : Byte) : Bool := c.getLsbD 5

/-- The command of an opcode, with the word's flags (R93). -/
def instrOfOpcode (op : Nat) (i p : Bool) : Option Instr :=
  match op with
  | 1 => some .bits2bytes
  | 2 => some .bytes2bits
  | 3 => some .bytes2chars
  | 4 => some .chars2bytes
  | 5 => some .pad
  | 6 => some .frame
  | 7 => some (.mkperm i)
  | 8 => some .ilv
  | 9 => some .dilv
  | 10 => some (.enc i)
  | 11 => some (.dec p)
  | _ => none

/-- Which part of R94 makes a byte illegal that no row of R93 selects. -/
def whyIllegal (c : Byte) : DecodeError :=
  if !reservedBitsZero c then .reservedBits
  else if !opcodeAssigned c then .opcodeUnassigned
  else .flagNotInFormat

/-- The command a byte selects (R93, R94); it depends on the byte alone (R95). -/
def decode (c : Byte) : Decoded :=
  if opcodeTable.any (fun r => r.selects c) then
    match instrOfOpcode (c.extractLsb' 0 4).toNat (flagI c) (flagP c) with
    | some i => .command i
    | none => .illegal (whyIllegal c)
  else .illegal (whyIllegal c)

/-- The layout of R91: opcode in [3:0], I in [4], P in [5], zero in [7:6]. -/
def commandWord (op : Nat) (i p : Bool) : Byte := BitVec.ofNat 8 (op + 16 * i.toNat + 32 * p.toNat)

/-- The byte that issues a command (R93). -/
def encode (i : Instr) : Byte :=
  match i with
  | .bits2bytes => commandWord 1 false false
  | .bytes2bits => commandWord 2 false false
  | .bytes2chars => commandWord 3 false false
  | .chars2bytes => commandWord 4 false false
  | .pad => commandWord 5 false false
  | .frame => commandWord 6 false false
  | .mkperm drawn => commandWord 7 drawn false
  | .ilv => commandWord 8 false false
  | .dilv => commandWord 9 false false
  | .enc interleave => commandWord 10 interleave false
  | .dec permuted => commandWord 11 false permuted

/-- The bits of a one-byte command, those above `nbits` zero. -/
def tableByte (nbits w : Nat) : Byte := BitVec.ofNat 8 (w % 2 ^ nbits)

/-- What the decoder reads from an instruction whose bits are `w`, numbered as spec/opcode_table.json numbers them. A
command is one byte (R90), so the layout is that byte. -/
def decodeTableWord (nbits w : Nat) : Option Instr :=
  match decode (tableByte nbits w) with
  | .command i => some i
  | .illegal _ => none

end Sys2Proof
end

