-- ==== Sys2Proof/Config.lean ====
section
/-!
DEFINITION. What the framer's platform and its two outside devices leave open. Every constant here has no body: nothing
in Lean can evaluate it, so a statement about it holds for every value. The capacities and widths of R7 are plain data
and stand in the state's `platform` (log 1).
-/

namespace Sys2Proof

/-- The random source (R157, R228, 93 U1): the answer number `count`, for the length `len`. A draw is a bijection of
[0, len) and nothing else is known of it. Log 3, log 13. -/
opaque Config.draw : (count len : Nat) → Equiv.Perm (Fin len)

/-- Whether the attached codec can be constructed for (n, k), beyond 1 ≤ k ≤ n (R221). Log 8. -/
opaque Config.attachedAccepts : (n k : Nat) → Bool

/-- The attached codec's answer to Encode (R222). Its length is not assumed (F_CODEC_PROTOCOL). Log 8, log 9. -/
opaque Config.attachedEncode : (n k : Nat) → (message : List Byte) → List Byte

/-- The attached codec's answer to Check (R223). Log 8. -/
opaque Config.attachedCheck : (n k : Nat) → (codeword : List Byte) → Bool

/-- The attached codec's answer to Decode, the metadata discarded (R224). Its length is not assumed. Log 8, log 9. -/
opaque Config.attachedDecode : (n k : Nat) → (codeword : List Byte) → List Byte

/-- What BOUT holds after fault number `count` of a command that writes it (R238, 93 U3). Log 4. -/
opaque Config.freeBout : (count : Nat) → List Bit

/-- What VOUT holds after fault number `count` of a command that writes it (R238, 93 U3). Log 4. -/
opaque Config.freeVout : (count : Nat) → List Nat

/-- What PERM holds after fault number `count` of a command that writes it (R238, 93 U3). Log 4. -/
opaque Config.freePerm : (count : Nat) → List Nat

/-- What CWSTAT holds after fault number `count` of DEC (R238, 93 U3). Log 4. -/
opaque Config.freeCwstat : (count : Nat) → List Bit

/-- What NCW holds after fault number `count` of a command that writes it (R238, 93 U3). Log 4. -/
opaque Config.freeNcw : (count : Nat) → Nat

/-- What CWIDX holds after fault number `count` of a command that writes it (R238, 93 U3). Log 4. -/
opaque Config.freeCwidx : (count : Nat) → Nat

/-- The bit at an index of BIN that a bare write of BIN_LEN brings into being (R25). Log 11. -/
opaque Config.freshBit : (count index : Nat) → Bit

/-- The element at an index of VIN or PERM that a bare write of its length register brings into being (R25). Log 11. -/
opaque Config.freshValue : (count index : Nat) → Nat

end Sys2Proof
end

