-- ==== Sys2Proof/Machine/State.lean ====
section
/-!
DEFINITION. The framer's state as plain data (10_state.md R20 to R33), the reasons a step can stop, and the state after
reset. A length register is the length of its buffer (R25), so it is no field.
-/

namespace Sys2Proof.Machine

/-- STATUS.PHASE (R24). -/
inductive Phase where
  | idle
  | busy
  | done
  | fault
  deriving DecidableEq, Repr

/-- The fault codes 1 to 11 of R236, in the order of their numbers and so of their priority (R237). -/
inductive FaultCode where
  | illegalCmd
  | paramZero
  | badWidth
  | kGtN
  | codecParams
  | permLen
  | permInvalid
  | lenNotDivisible
  | valueRange
  | capacity
  | codecProtocol
  deriving DecidableEq, Repr

/-- STATUS.CWSTATE: the states of the per-codeword machine (R24, R194). -/
inductive CwState where
  | received
  | check
  | decode
  | fallback
  | done
  deriving DecidableEq, Repr

/-- The codec connected to the codec port (R220, R267): the platform's own, of which nothing is known, or one of the
nine of 95_test_vectors.md section 0. Log 8, log 19. -/
inductive CodecRef where
  | attached
  | sR
  | sL
  | sF
  | sLF
  | sP
  | sId
  | xorP
  | sBadE
  | sBadD
  deriving DecidableEq, Repr

/-- The parameters of R7, fixed for the machine. `none` is `unbounded`. No step changes one. Log 1. -/
structure Platform where
  capBits : Option Nat
  capVals : Option Nat
  capPerm : Option Nat
  valw : Option Nat
  idxw : Option Nat
  codec : CodecRef
  deriving DecidableEq, Repr

/-- Working storage of a command that runs step by step (R29); it exists only while PHASE is BUSY. -/
inductive Work where
  /-- a primitive command, accepted and not yet carried out -/
  | primitive (i : Instr)
  /-- ENC after step 2: the messages still to encode and the codewords encoded so far (R177) -/
  | encode (interleave : Bool) (todo : List (List Nat)) (coded : List (List Nat))
  /-- DEC after step 2: all received codewords R and the messages OUT made so far (R193 to R199) -/
  | decode (received : List (List Nat)) (out : List (List Nat))
  deriving DecidableEq, Repr

/-- The six buffers (R26, R27). -/
inductive Buffer where
  | bin
  | bout
  | vin
  | vout
  | perm
  | cwstat
  deriving DecidableEq, Repr

/-- What a host read returns: a register's number, or a buffer's sequence. -/
inductive HostDatum where
  | nothing
  | number (v : Nat)
  | bits (b : List Bit)
  | values (v : List Nat)
  deriving DecidableEq, Repr

/-- What the world outside the framer does, one entry of the schedule each (R30, R96, R265). Log 5. -/
inductive Event where
  /-- a host write of a register by number (R33) -/
  | write (reg v : Nat)
  /-- LOAD BIN -/
  | loadBin (b : List Bit)
  /-- LOAD VIN -/
  | loadVin (v : List Nat)
  /-- LOAD PERM -/
  | loadPerm (p : List Nat)
  /-- MOVE BOUT, BIN -/
  | moveBits
  /-- MOVE VOUT, VIN -/
  | moveValues
  /-- a host write of CMD, the command then seen as one atomic step (R65, 92 D28) -/
  | issue (c : Byte)
  /-- a host write of CMD, the framer then working step by step (R194 to R199). Log 7 -/
  | start (c : Byte)
  /-- one step of the framer, between two host accesses (93 U5). Log 17 -/
  | framer
  /-- WAIT: the host polls STATUS until PHASE is not BUSY. Log 17 -/
  | wait
  /-- a host read of a register by number -/
  | read (reg : Nat)
  /-- a host read of a whole buffer -/
  | readBuffer (b : Buffer)
  /-- a host read of one element of a buffer -/
  | readElement (b : Buffer) (index : Nat)
  /-- the platform asserts reset (R265) -/
  | reset
  deriving DecidableEq, Repr

/-- The machine's stops. Both are raised by the framer's own step in states no run from reset reaches (log 15); safe.
Faults of the spec are no stops: they are next states (R238). -/
inductive Fault where
  /-- raised by `framerStep`: PHASE is BUSY and there is no working storage (R29 says there is); safe -/
  | busyWithoutWork
  /-- raised by `framerStep`: STATUS.CWSTATE holds 5 to 7, which R24 says never appear; safe -/
  | badCodewordState
  deriving DecidableEq, Repr

/-- Host accesses the spec refuses: a model gives them no step (R30). All are safe. -/
inductive Refusal where
  /-- raised by an arm of `exec` whose instruction has no meaning yet: none; safe -/
  | notModelled (mnemonic : String)
  /-- raised by `hostStep`: an access R30 does not allow while PHASE is BUSY (R268, 93 U4); safe -/
  | accessWhileBusy
  /-- raised by `readRegister` and `writeRegister`: a register number of 12 or above (R33); safe -/
  | noSuchRegister
  /-- raised by `readElement`: an index at or beyond the buffer's length (R26, 93 U17); safe -/
  | noSuchElement
  /-- raised by the loads: the sequence is longer than the buffer's capacity, or an element does not fit (R30); safe -/
  | loadDoesNotFit
  /-- raised by `writeRegister`: the value does not fit the register's width (log 12); safe -/
  | valueDoesNotFit
  deriving DecidableEq, Repr

/-- The state of the framer (R20), and below it the model's own fields. -/
structure State where
  /-- CMD, register 0 (R23) -/
  cmd : BitVec 8
  /-- STATUS, register 1 (R24) -/
  status : BitVec 16
  /-- N, register 2 (R21) -/
  n : Nat
  /-- K, register 3 (R21) -/
  k : Nat
  /-- W, register 4 (R21) -/
  w : Nat
  /-- NCW, register 10 (R25) -/
  ncw : Nat
  /-- CWIDX, register 11 (R25, R28) -/
  cwidx : Nat
  /-- BIN (R26); its length is register 5 -/
  bin : List Bit
  /-- VIN (R26); its length is register 6 -/
  vin : List Nat
  /-- PERM (R26); its length is register 7 -/
  perm : List Nat
  /-- BOUT (R26); its length is register 8 -/
  bout : List Bit
  /-- VOUT (R26); its length is register 9 -/
  vout : List Nat
  /-- CWSTAT (R27) -/
  cwstat : List Bit
  /-- working storage (R29) -/
  work : Option Work
  /-- the model's own: the parameters of R7 (log 1) -/
  platform : Platform
  /-- the model's own: the number of the next free value (log 3, log 4) -/
  draws : Nat
  /-- the model's own: what the outside world does next, first entry first (log 5) -/
  schedule : List Event
  /-- the model's own: what the host's last read returned (log 6) -/
  hostData : HostDatum
  deriving DecidableEq, Repr

/-- Every parameter at the value R7 calls faithful, and the platform's own codec (log 2). -/
def Platform.unbounded : Platform :=
  { capBits := none, capVals := none, capPerm := none, valw := none, idxw := none, codec := .attached }

/-- After reset every register holds 0 and every buffer is empty (R32); the model's own fields are at the values of
log 2, log 3, log 5 and log 6. -/
def State.reset : State :=
  { cmd := 0, status := 0, n := 0, k := 0, w := 0, ncw := 0, cwidx := 0,
    bin := [], vin := [], perm := [], bout := [], vout := [], cwstat := [], work := none,
    platform := Platform.unbounded, draws := 0, schedule := [], hostData := .nothing }

end Sys2Proof.Machine
end

