-- ==== Sys2Proof/Machine/Flags.lean ====
section
/-!
DEFINITION. The STATUS word: its fields, their numbers, and the words the framer writes (10_state.md R24,
60_exceptions.md R236). The framer always writes STATUS whole, so the reserved bits read as 0.
-/

namespace Sys2Proof.Machine

/-- The number of a PHASE (R24). -/
def phaseNumber (p : Phase) : Nat :=
  match p with
  | .idle => 0
  | .busy => 1
  | .done => 2
  | .fault => 3

/-- The number of a fault code (R236). -/
def faultNumber (f : FaultCode) : Nat :=
  match f with
  | .illegalCmd => 1
  | .paramZero => 2
  | .badWidth => 3
  | .kGtN => 4
  | .codecParams => 5
  | .permLen => 6
  | .permInvalid => 7
  | .lenNotDivisible => 8
  | .valueRange => 9
  | .capacity => 10
  | .codecProtocol => 11

/-- The number in FCODE: 0 where there is no fault (R24). -/
def fcodeNumber (f : Option FaultCode) : Nat :=
  match f with
  | some f => faultNumber f
  | none => 0

/-- The number of a per-codeword state (R194). -/
def cwStateNumber (c : CwState) : Nat :=
  match c with
  | .received => 0
  | .check => 1
  | .decode => 2
  | .fallback => 3
  | .done => 4

/-- The STATUS word with the given fields (R24): PHASE in [1:0], FCODE in [7:4], CWSTATE in [10:8], all else 0. -/
def statusWord (p : Phase) (f : Option FaultCode) (c : CwState) : BitVec 16 :=
  BitVec.ofNat 16 (phaseNumber p + 16 * fcodeNumber f + 256 * cwStateNumber c)

/-- STATUS.PHASE. -/
def phaseOf (status : BitVec 16) : Phase :=
  match (status.extractLsb' 0 2).toNat with
  | 0 => .idle
  | 1 => .busy
  | 2 => .done
  | _ => .fault

/-- STATUS.FCODE, as the number a host reads. -/
def fcodeOf (status : BitVec 16) : Nat := (status.extractLsb' 4 4).toNat

/-- STATUS.CWSTATE; the numbers 5 to 7 never appear (R24). -/
def cwStateOf (status : BitVec 16) : Option CwState :=
  match (status.extractLsb' 8 3).toNat with
  | 0 => some .received
  | 1 => some .check
  | 2 => some .decode
  | 3 => some .fallback
  | 4 => some .done
  | _ => none

/-- STATUS after a command that completed: DONE, no fault (R24). -/
def statusDone : BitVec 16 := statusWord .done none .received

/-- STATUS while a command runs (R24). -/
def statusBusy (c : CwState) : BitVec 16 := statusWord .busy none c

/-- STATUS after a fault (R238). -/
def statusFault (f : FaultCode) : BitVec 16 := statusWord .fault (some f) .received

/-- A command is running. -/
def isBusy (s : State) : Bool := phaseOf s.status = .busy

end Sys2Proof.Machine
end

