-- ==== Sys2Proof/Machine/Ops.lean ====
section
/-!
DEFINITION. The operations every command shares: the capacity and width tests, what a fault leaves (60_exceptions.md
R238), completion (20_memory.md R73), and the order of a command's checks (R237).
-/

namespace Sys2Proof.Machine

/-- A length is within a capacity; every length is within an unbounded one (R7). -/
def fits (len : Nat) (cap : Option Nat) : Bool :=
  match cap with
  | none => true
  | some c => len ≤ c

/-- A natural number fits a width in bits; every number fits an unbounded one (R7). -/
def fitsWidth (v : Nat) (width : Option Nat) : Bool :=
  match width with
  | none => true
  | some b => v < 2 ^ b

/-- A width in bits is within another. -/
def widthWithin (w : Nat) (width : Option Nat) : Bool :=
  match width with
  | none => true
  | some b => w ≤ b

/-- A sequence cut to a capacity: what storage of that capacity can hold. -/
def cutTo {α : Type} (cap : Option Nat) (l : List α) : List α :=
  match cap with
  | none => l
  | some c => l.take c

/-- A number cut to a width: what a register of that width can hold. -/
def cutWidth (width : Option Nat) (v : Nat) : Nat :=
  match width with
  | none => v
  | some b => v % 2 ^ b

/-- What R7 asks of the parameters: VALW ≥ 8, and with a finite IDXW every length below the capacities fits it
(92 D13: 2^IDXW > max(CAP_BITS, CAP_VALS, CAP_PERM)). -/
def Platform.wf (p : Platform) : Bool :=
  (match p.valw with
    | none => true
    | some v => 8 ≤ v) &&
  (match p.idxw with
    | none => true
    | some b =>
      match p.capBits, p.capVals, p.capPerm with
      | some x, some y, some z => x < 2 ^ b && y < 2 ^ b && z < 2 ^ b
      | _, _, _ => false)

/-- The canonical form of the six buffers, the framer's memory (R26, R60): every length within its capacity, every
element within its width. Log 18. -/
def Memory.wf (s : State) : Bool :=
  fits s.bin.length s.platform.capBits && fits s.bout.length s.platform.capBits &&
  fits s.cwstat.length s.platform.capBits &&
  fits s.vin.length s.platform.capVals && s.vin.all (fun v => fitsWidth v s.platform.valw) &&
  fits s.vout.length s.platform.capVals && s.vout.all (fun v => fitsWidth v s.platform.valw) &&
  fits s.perm.length s.platform.capPerm && s.perm.all (fun v => fitsWidth v s.platform.idxw)

/-- The outputs a command's rule can list (R92), STATUS aside. -/
inductive Output where
  | bout
  | vout
  | perm
  | cwstat
  | ncw
  | cwidx
  deriving DecidableEq, Repr

/-- The outputs the faulting command would have written are unspecified (R238, 93 U3): each becomes a free value, cut to
what its storage can hold. Outputs not listed are unchanged. Log 4. -/
def unspecify (outs : List Output) (s : State) : State :=
  { s with
    bout := if .bout ∈ outs then cutTo s.platform.capBits (Config.freeBout s.draws) else s.bout
    vout := if .vout ∈ outs then
        cutTo s.platform.capVals ((Config.freeVout s.draws).map (cutWidth s.platform.valw)) else s.vout
    perm := if .perm ∈ outs then
        cutTo s.platform.capPerm ((Config.freePerm s.draws).map (cutWidth s.platform.idxw)) else s.perm
    cwstat := if .cwstat ∈ outs then cutTo s.platform.capBits (Config.freeCwstat s.draws) else s.cwstat
    ncw := if .ncw ∈ outs then cutWidth s.platform.idxw (Config.freeNcw s.draws) else s.ncw
    cwidx := if .cwidx ∈ outs then cutWidth s.platform.idxw (Config.freeCwidx s.draws) else s.cwidx
    draws := s.draws + 1 }

/-- STATUS reports the fault and working storage is discarded (R238); nothing else changes. -/
def raise (f : FaultCode) (s : State) : State := { s with status := statusFault f, work := none }

/-- Fault entry (R238): the one way a command's fault is taken. -/
def faultEntry (f : FaultCode) (outs : List Output) (s : State) : State := raise f (unspecify outs s)

/-- A command completes: PHASE DONE, FCODE 0, CWSTATE 0, no working storage (R24, R29). -/
def complete (s : State) : State := { s with status := statusDone, work := none }

/-- The checks of a command's pseudocode in their order: what must hold, and the fault where it does not (R10, R237). -/
abbrev Checks := List (Bool × FaultCode)

/-- The fault of the first check that fails. -/
def firstFault (cs : Checks) : Option FaultCode :=
  match cs with
  | [] => none
  | (holds, f) :: rest => if holds then firstFault rest else some f

/-- A command: its checks, then its effect and completion, or the entry of the first failing check's fault. -/
def command (checks : Checks) (outs : List Output) (effect : State → State) (s : State) :
    Host.Outcome State Fault Refusal :=
  match firstFault checks with
  | some f => .next (faultEntry f outs s)
  | none => .next (complete (effect s))

/-- A pipeline command: as `command`, but its effect asks the codec, and an answer of the wrong length (`none`) is the
fault F_CODEC_PROTOCOL, after every check (R236, 92 D12). -/
def pipeline (checks : Checks) (outs : List Output) (effect : State → Option State) (s : State) :
    Host.Outcome State Fault Refusal :=
  match firstFault checks with
  | some f => .next (faultEntry f outs s)
  | none =>
    match effect s with
    | some t => .next (complete t)
    | none => .next (faultEntry .codecProtocol outs s)

/-- Every register and buffer takes its reset value and the command in progress is abandoned (R265). The platform, the
outside world and the random source are not the framer's (log 14). -/
def resetEntry (s : State) : State :=
  { State.reset with platform := s.platform, draws := s.draws, schedule := s.schedule, hostData := s.hostData }

end Sys2Proof.Machine
end

