-- ==== Sys2Proof/Machine/Operands.lean ====
section
/-!
DEFINITION. The operand forms of 30_encoding.md R92 that are more than one register or buffer: a permutation given,
absent or drawn (42_interleaver.md R155 to R157), and the host's views of registers and buffers (10_state.md R33).
-/

namespace Sys2Proof.Machine

/-- IsPerm(p, L) of R155: `p` is a bijection of [0, L). -/
abbrev IsPerm (p : List Nat) (len : Nat) : Prop := p.length = len ∧ (∀ x ∈ p, x < len) ∧ p.Nodup

/-- Id(L) of R156. -/
def idPerm (len : Nat) : List Nat := List.range len

/-- The random source's answer number `count` for a length (R157, R228): a free value. -/
def drawnPerm (count len : Nat) : List Nat := List.ofFn (fun i : Fin len => (Config.draw count len i).val)

/-- MakePermutation(L, enabled) of R157, with the draw numbered by the state's counter. -/
def makePermutation (enabled : Bool) (len : Nat) (s : State) : List Nat :=
  if enabled then drawnPerm s.draws len else idPerm len

/-- The random source is asked once if the flag I is set, and not at all otherwise (R180, R228). -/
def countDraw (enabled : Bool) (s : State) : State := if enabled then { s with draws := s.draws + 1 } else s

/-- DEC's permutation: PERM with the flag P set, else the identity, PERM not read (R190, R191). -/
def permOperand (permuted : Bool) (s : State) : List Nat :=
  if permuted then s.perm else idPerm s.bin.length

/-- A register's value by its number (R33); a length register is the length of its buffer (R25). -/
def registerValue (reg : Nat) (s : State) : Option Nat :=
  match reg with
  | 0 => some s.cmd.toNat
  | 1 => some s.status.toNat
  | 2 => some s.n
  | 3 => some s.k
  | 4 => some s.w
  | 5 => some s.bin.length
  | 6 => some s.vin.length
  | 7 => some s.perm.length
  | 8 => some s.bout.length
  | 9 => some s.vout.length
  | 10 => some s.ncw
  | 11 => some s.cwidx
  | _ => none

/-- A whole buffer as the host reads it (R26, R27). -/
def bufferData (b : Buffer) (s : State) : HostDatum :=
  match b with
  | .bin => .bits s.bin
  | .bout => .bits s.bout
  | .vin => .values s.vin
  | .vout => .values s.vout
  | .perm => .values s.perm
  | .cwstat => .bits s.cwstat

/-- One element of a buffer, a bit as 0 or 1; none at or beyond the length (R26, R60). -/
def bufferElement (b : Buffer) (index : Nat) (s : State) : Option Nat :=
  match b with
  | .bin => (s.bin[index]?).map Bool.toNat
  | .bout => (s.bout[index]?).map Bool.toNat
  | .vin => s.vin[index]?
  | .vout => s.vout[index]?
  | .perm => s.perm[index]?
  | .cwstat => (s.cwstat[index]?).map Bool.toNat

end Sys2Proof.Machine
end

