-- ==== Sys2Proof/Machine/Conversion.lean ====
section
/-!
DEFINITION. Bit/byte conversion (40_conversion.md): the functions of R120, R121 and R125, the grouping of R143 they are
cut by, and the four commands.
-/

namespace Sys2Proof.Machine

/-- The slice s[i..j) of R8. -/
def slice {α : Type} (l : List α) (i j : Nat) : List α := (l.drop i).take (j - i)

/-- val_w of R9: the base-2 value of a row, its first bit the most significant. -/
def rowValue (r : List Bit) : Nat :=
  match r with
  | [] => 0
  | b :: rest => b.toNat * 2 ^ rest.length + rowValue rest

/-- bit_t of R9: binary digit `t` of `x`. -/
def binaryDigit (t x : Nat) : Nat := (x / 2 ^ t) % 2

/-- The `d`-wide binary representation of `x`, its most significant digit first (R121). -/
def rowBits (d x : Nat) : List Bit := (List.range d).map (fun t => binaryDigit (d - 1 - t) x = 1)

/-- Frame(v, g) of R143: group `c` is v[g·c .. g·c+g). -/
def framed {α : Type} (v : List α) (g : Nat) : List (List α) :=
  (List.range (v.length / g)).map (fun c => slice v (g * c) (g * c + g))

/-- BitsToVals(b, w) of R120. -/
def bitsToVals (b : List Bit) (w : Nat) : List Nat := (framed b w).map rowValue

/-- ValsToBits(v, d) of R121. -/
def valsToBits (v : List Nat) (d : Nat) : List Bit := v.flatMap (rowBits d)

/-- Chr of R125, a character carried as its codepoint: from a number in [0,255] to the codec port's byte. -/
def chr (x : Nat) : Byte := BitVec.ofNat 8 x

/-- Ord of R125. -/
def ord (c : Byte) : Nat := c.toNat

/-- The checks of BITS2BYTES, in the order of R123. -/
def bits2bytesChecks (s : State) : Checks :=
  [(1 ≤ s.w && widthWithin s.w s.platform.valw, .badWidth),
   (s.bin.length % s.w = 0, .lenNotDivisible),
   (fits (s.bin.length / s.w) s.platform.capVals, .capacity)]

/-- BITS2BYTES: bits to values (R123). -/
def execBits2bytes (s : State) : Host.Outcome State Fault Refusal :=
  command (bits2bytesChecks s) [.vout] (fun s => { s with vout := bitsToVals s.bin s.w }) s

/-- The checks of BYTES2BITS, in the order of R124. -/
def bytes2bitsChecks (s : State) : Checks :=
  [(1 ≤ s.w, .badWidth),
   (s.vin.all (fun v => v ≤ 2 ^ s.w - 1), .valueRange),
   (fits (s.w * s.vin.length) s.platform.capBits, .capacity)]

/-- BYTES2BITS: values to bits (R124). -/
def execBytes2bits (s : State) : Host.Outcome State Fault Refusal :=
  command (bytes2bitsChecks s) [.bout] (fun s => { s with bout := valsToBits s.vin s.w }) s

/-- The checks of BYTES2CHARS and CHARS2BYTES, in the order of R126 and R127. -/
def charChecks (s : State) : Checks :=
  [(s.vin.all (fun v => v ≤ 255), .valueRange),
   (fits s.vin.length s.platform.capVals, .capacity)]

/-- BYTES2CHARS: byte values to characters, carried as codepoints (R126). -/
def execBytes2chars (s : State) : Host.Outcome State Fault Refusal :=
  command (charChecks s) [.vout] (fun s => { s with vout := s.vin.map (fun v => (chr v).toNat) }) s

/-- CHARS2BYTES: characters, carried as codepoints, to byte values (R127). -/
def execChars2bytes (s : State) : Host.Outcome State Fault Refusal :=
  command (charChecks s) [.vout] (fun s => { s with vout := s.vin.map (fun c => ord (BitVec.ofNat 8 c)) }) s

end Sys2Proof.Machine
end

