-- ==== Sys2Proof/Machine/Padding.lean ====
section
/-!
DEFINITION. The codeword padder and the codeword framer (41_padding_framing.md): R140, R144 and the commands PAD (R142)
and FRAME (R145). Frame itself is `framed` (R143).
-/

namespace Sys2Proof.Machine

/-- PadToMultiple(b, m) of R140: zero bits on the left. -/
def padToMultiple (b : List Bit) (m : Nat) : List Bit :=
  if b.length % m ≠ 0 then List.replicate (m - b.length % m) false ++ b else b

/-- Unframe(G) of R144. -/
def unframed {α : Type} (g : List (List α)) : List α := g.flatten

/-- The checks of PAD, in the order of R142. -/
def padChecks (s : State) : Checks :=
  [(1 ≤ s.w, .badWidth),
   (fits (padToMultiple s.bin s.w).length s.platform.capBits, .capacity)]

/-- PAD: left-pad BIN to a multiple of W (R142). -/
def execPad (s : State) : Host.Outcome State Fault Refusal :=
  command (padChecks s) [.bout] (fun s => { s with bout := padToMultiple s.bin s.w }) s

/-- The checks of FRAME, in the order of R145. -/
def frameChecks (s : State) : Checks :=
  [(1 ≤ s.w, .badWidth),
   (s.vin.length % s.w = 0, .lenNotDivisible),
   (fits s.vin.length s.platform.capVals, .capacity)]

/-- FRAME: validate and count the groups of VIN (R145). -/
def execFrame (s : State) : Host.Outcome State Fault Refusal :=
  command (frameChecks s) [.vout, .ncw]
    (fun s => { s with vout := unframed (framed s.vin s.w), ncw := s.vin.length / s.w }) s

end Sys2Proof.Machine
end

