-- ==== Sys2Proof/Machine/Codec.lean ====
section
/-!
DEFINITION. The codec port (45_codec_port.md R220 to R228): the four transactions Accepts, Encode, Check and Decode, for
the platform's own codec and for the codecs of 95_test_vectors.md section 0. All are total pure functions (R226, R227).
-/

namespace Sys2Proof.Machine

/-- The exclusive-or of a sequence of bytes. -/
def xorAll (c : List Byte) : Byte := c.foldr (fun a b => a ^^^ b) 0

/-- Codec.Accepts(n, k) of R221; it implies 1 ≤ k ≤ n. -/
def codecAccepts (codec : CodecRef) (n k : Nat) : Bool :=
  (1 ≤ k && k ≤ n) &&
  match codec with
  | .attached => Config.attachedAccepts n k
  | .sR => true
  | .sL => true
  | .sF => true
  | .sLF => true
  | .sP => true
  | .sId => k = n
  | .xorP => n = k + 1
  | .sBadE => true
  | .sBadD => true

/-- Codec.Encode(n, k, m) of R222. -/
def codecEncode (codec : CodecRef) (n k : Nat) (m : List Byte) : List Byte :=
  match codec with
  | .attached => Config.attachedEncode n k m
  | .sR => m ++ List.replicate (n - k) 0
  | .sL => List.replicate (n - k) 0 ++ m
  | .sF => m ++ List.replicate (n - k) 0
  | .sLF => List.replicate (n - k) 0 ++ m
  | .sP => List.replicate (n - k) 0 ++ m
  | .sId => m
  | .xorP => xorAll m :: m
  | .sBadE => m
  | .sBadD => m ++ List.replicate (n - k) 0

/-- Codec.Check(n, k, c) of R223. -/
def codecCheck (codec : CodecRef) (n k : Nat) (c : List Byte) : Bool :=
  match codec with
  | .attached => Config.attachedCheck n k c
  | .sR => true
  | .sL => true
  | .sF => false
  | .sLF => false
  | .sP => true
  | .sId => true
  | .xorP => xorAll c = 0
  | .sBadE => true
  | .sBadD => true

/-- Codec.Decode(n, k, c) of R224, the message bytes only (90_conflicts.md C6). -/
def codecDecode (codec : CodecRef) (n k : Nat) (c : List Byte) : List Byte :=
  match codec with
  | .attached => Config.attachedDecode n k c
  | .sR => slice c 0 k
  | .sL => slice c (n - k) n
  | .sF => slice c 0 k
  | .sLF => slice c (n - k) n
  | .sP => (slice c (n - k) n).dropWhile (fun b => b = 0)
  | .sId => c
  | .xorP => slice c 1 n
  | .sBadE => slice c 0 k
  | .sBadD => c

/-- Encode as the framer asks it: Chr on the way out, Ord on the way back (R225). -/
def askEncode (codec : CodecRef) (n k : Nat) (m : List Nat) : List Nat := (codecEncode codec n k (m.map chr)).map ord

/-- Check as the framer asks it (R225). -/
def askCheck (codec : CodecRef) (n k : Nat) (r : List Nat) : Bool := codecCheck codec n k (r.map chr)

/-- Decode as the framer asks it (R225). -/
def askDecode (codec : CodecRef) (n k : Nat) (r : List Nat) : List Nat := (codecDecode codec n k (r.map chr)).map ord

end Sys2Proof.Machine
end

