-- ==== Sys2Proof/Machine/Interleaver.lean ====
section
/-!
DEFINITION. The bit-position interleaver (42_interleaver.md): R155, R158, R159 and the commands MKPERM (R161), ILV (R162)
and DILV (R163). The directions are those of 90_conflicts.md C1.
-/

namespace Sys2Proof.Machine

/-- Inv(p) of R155: q[p[i]] = i. -/
def invPerm (p : List Nat) : List Nat := (List.range p.length).map (fun j => p.idxOf j)

/-- The sequence whose element `i` is b[p[i]]: a gather. -/
def gather (b : List Bit) (p : List Nat) : List Bit := p.map (fun i => b.getD i false)

/-- Interleave(b, p) of R158: out[p[i]] = b[i], that is out[j] = b[Inv(p)[j]]. -/
def interleave (b : List Bit) (p : List Nat) : List Bit := gather b (invPerm p)

/-- Deinterleave(r, p) of R159: de[i] = r[p[i]]. -/
def deinterleave (r : List Bit) (p : List Nat) : List Bit := gather r p

/-- The checks of MKPERM (R161). -/
def mkpermChecks (s : State) : Checks := [(fits s.w s.platform.capPerm, .capacity)]

/-- MKPERM: make a permutation (R161). -/
def execMkperm (drawn : Bool) (s : State) : Host.Outcome State Fault Refusal :=
  command (mkpermChecks s) [.perm]
    (fun s => countDraw drawn { s with perm := makePermutation drawn s.w s }) s

/-- The checks of ILV and DILV, in the order of R162. -/
def interleaveChecks (s : State) : Checks :=
  [(s.perm.length = s.bin.length, .permLen),
   (decide (IsPerm s.perm s.bin.length), .permInvalid)]

/-- ILV: interleave, the encode direction (R162). -/
def execIlv (s : State) : Host.Outcome State Fault Refusal :=
  command (interleaveChecks s) [.bout] (fun s => { s with bout := interleave s.bin s.perm }) s

/-- DILV: de-interleave, the decode direction (R163). -/
def execDilv (s : State) : Host.Outcome State Fault Refusal :=
  command (interleaveChecks s) [.bout] (fun s => { s with bout := deinterleave s.bin s.perm }) s

end Sys2Proof.Machine
end

