-- ==== Sys2Proof/Machine/Encode.lean ====
section
/-!
DEFINITION. The encode pipeline (43_encode_pipeline.md): ENC as one function (R176, R177) over the steps its small-step
form shares.
-/

namespace Sys2Proof.Machine

/-- The checks of (n, k) that ENC and DEC begin with (R176, R191). -/
def paramChecks (s : State) : Checks :=
  [(1 ≤ s.n && 1 ≤ s.k, .paramZero),
   (s.k ≤ s.n, .kGtN),
   (codecAccepts s.platform.codec s.n s.k, .codecParams)]

/-- ncw of R176: the number of messages. -/
def encCount (s : State) : Nat := (s.bin.length + 8 * s.k - 1) / (8 * s.k)

/-- The last check of R176: the coded bits and their permutation fit. -/
def codedChecks (s : State) : Checks :=
  [(fits (8 * s.n * encCount s) s.platform.capBits && fits (8 * s.n * encCount s) s.platform.capPerm, .capacity)]

/-- The admission of ENC (R176). -/
def encChecks (s : State) : Checks := paramChecks s ++ codedChecks s

/-- What ENC's rule lists as written (R175, R238). -/
abbrev encOutputs : List Output := [.bout, .perm, .ncw, .cwidx]

/-- Steps 1 and 2 of R177: the messages M. -/
def encMessages (s : State) : List (List Nat) := framed (bitsToVals (padToMultiple s.bin (8 * s.k)) 8) s.k

/-- Step 3 for one message: the codeword, or none where its length is not n (R177). -/
def encodeOne (s : State) (m : List Nat) : Option (List Nat) :=
  if (askEncode s.platform.codec s.n s.k m).length = s.n then some (askEncode s.platform.codec s.n s.k m) else none

/-- Step 3 for messages in ascending order (R177, 92 D16). -/
def encodeAll (s : State) (ms : List (List Nat)) : Option (List (List Nat)) :=
  match ms with
  | [] => some []
  | m :: rest =>
    match encodeOne s m, encodeAll s rest with
    | some c, some cs => some (c :: cs)
    | _, _ => none

/-- The coded bits cb of step 4 (R177). -/
def codedBits (coded : List (List Nat)) : List Bit := valsToBits (unframed coded) 8

/-- Step 5 for coded bits: the permutation, and the bits it moves (R177). -/
def interleaveOut (drawn : Bool) (cb : List Bit) (s : State) : State :=
  countDraw drawn
    { s with
      bout := interleave cb (makePermutation drawn cb.length s)
      perm := makePermutation drawn cb.length s }

/-- Steps 1 to 5 of R177 after admission; none where the codec broke its contract. -/
def encEffect (drawn : Bool) (s : State) : Option State :=
  match encodeAll s (encMessages s) with
  | some coded => some (interleaveOut drawn (codedBits coded) { s with ncw := encCount s, cwidx := encCount s })
  | none => none

/-- ENC, and ENC.I with the flag I set (R177). -/
def execEnc (drawn : Bool) (s : State) : Host.Outcome State Fault Refusal :=
  pipeline (encChecks s) encOutputs (encEffect drawn) s

end Sys2Proof.Machine
end

