-- ==== Sys2Proof/Machine/Decoder.lean ====
section
/-!
DEFINITION. The decode pipeline (44_decode_pipeline.md): DEC as one function (R191, R204) over the steps its small-step
form shares. The command byte's decoder is Sys2Proof/Decode.lean.
-/

namespace Sys2Proof.Machine

/-- ncw of R191: the number of received codewords. -/
def decCount (s : State) : Nat := s.bin.length / (8 * s.n)

/-- The checks of the received bits and the permutation, in the order of R191. -/
def receivedChecks (permuted : Bool) (s : State) : Checks :=
  [((permOperand permuted s).length = s.bin.length, .permLen),
   (decide (IsPerm (permOperand permuted s) s.bin.length), .permInvalid),
   (s.bin.length % 8 = 0, .lenNotDivisible),
   (s.bin.length / 8 % s.n = 0, .lenNotDivisible),
   (fits (8 * s.k * decCount s) s.platform.capBits, .capacity)]

/-- The admission of DEC (R191). -/
def decChecks (permuted : Bool) (s : State) : Checks := paramChecks s ++ receivedChecks permuted s

/-- What DEC's rule lists as written (R190, R238). -/
abbrev decOutputs : List Output := [.bout, .cwstat, .ncw, .cwidx]

/-- Steps 1 and 2 (R192, R193): the received codewords R. -/
def decReceived (permuted : Bool) (s : State) : List (List Nat) :=
  framed (bitsToVals (deinterleave s.bin (permOperand permuted s)) 8) s.n

/-- The state DECODE (R197): the message, left-padded to k bytes; none where the codec's answer is longer than k. -/
def correctedMessage (s : State) (r : List Nat) : Option (List Nat) :=
  if (askDecode s.platform.codec s.n s.k r).length ≤ s.k then
    some (List.replicate (s.k - (askDecode s.platform.codec s.n s.k r).length) 0 ++
      askDecode s.platform.codec s.n s.k r)
  else none

/-- The state FALLBACK (R198): the rightmost k bytes of the received codeword. -/
def fallbackMessage (s : State) (r : List Nat) : List Nat := slice r (s.n - s.k) s.n

/-- One codeword's whole machine (R194 to R199): its message and its CWSTAT bit. -/
def decodeOne (s : State) (r : List Nat) : Option (List Nat × Bit) :=
  if askCheck s.platform.codec s.n s.k r then
    match correctedMessage s r with
    | some m => some (m, true)
    | none => none
  else some (fallbackMessage s r, false)

/-- Step 3 for codewords in ascending order (R204, 92 D16). -/
def decodeAll (s : State) (rs : List (List Nat)) : Option (List (List Nat × Bit)) :=
  match rs with
  | [] => some []
  | r :: rest =>
    match decodeOne s r, decodeAll s rest with
    | some m, some ms => some (m :: ms)
    | _, _ => none

/-- Step 4 (R200): the decoded bits. -/
def decodedBits (out : List (List Nat)) : List Bit := valsToBits (unframed out) 8

/-- Steps 1 to 4 of R204 after admission; none where the codec broke its contract. -/
def decEffect (permuted : Bool) (s : State) : Option State :=
  match decodeAll s (decReceived permuted s) with
  | some ms =>
    some { s with
      bout := decodedBits (ms.map Prod.fst)
      cwstat := ms.map Prod.snd
      ncw := decCount s
      cwidx := decCount s }
  | none => none

/-- DEC, and DEC.P with the flag P set (R204). -/
def execDec (permuted : Bool) (s : State) : Host.Outcome State Fault Refusal :=
  pipeline (decChecks permuted s) decOutputs (decEffect permuted) s

end Sys2Proof.Machine
end

