-- ==== Sys2Proof/Machine/Dispatch.lean ====
section
/-!
DEFINITION. One arm per command: its meaning, in the order of 30_encoding.md R93.
-/

namespace Sys2Proof.Machine

def exec (i : Instr) (s : State) : Host.Outcome State Fault Refusal :=
  match i with
  | .bits2bytes => Sys2Proof.Machine.execBits2bytes s
  | .bytes2bits => Sys2Proof.Machine.execBytes2bits s
  | .bytes2chars => Sys2Proof.Machine.execBytes2chars s
  | .chars2bytes => Sys2Proof.Machine.execChars2bytes s
  | .pad => Sys2Proof.Machine.execPad s
  | .frame => Sys2Proof.Machine.execFrame s
  | .mkperm drawn => Sys2Proof.Machine.execMkperm drawn s
  | .ilv => Sys2Proof.Machine.execIlv s
  | .dilv => Sys2Proof.Machine.execDilv s
  | .enc interleave => Sys2Proof.Machine.execEnc interleave s
  | .dec permuted => Sys2Proof.Machine.execDec permuted s

end Sys2Proof.Machine
end

