-- ==== Sys2Proof/Machine/Framer.lean ====
section
/-!
DEFINITION. A command run step by step, as a host that polls while BUSY sees it: the start of a command, and one step of
the framer, with the per-codeword machine of 44_decode_pipeline.md R194 to R199 (10_state.md R24, R28, R29).
-/

namespace Sys2Proof.Machine

/-- A write of CMD stores the byte (R23). -/
def storeCommand (c : Byte) (s : State) : State := { s with cmd := c }

/-- An illegal byte (R94): no operand read, no buffer written. -/
def illegalCommand (s : State) : State := raise .illegalCmd s

/-- The command byte is written and the command runs to its end as one step (R65, 92 D28). -/
def issueCommand (c : Byte) (s : State) : Host.Outcome State Fault Refusal :=
  match decode c with
  | .command i => exec i (storeCommand c s)
  | .illegal _ => .next (illegalCommand (storeCommand c s))

/-- ENC enters BUSY: admission, steps 1 and 2, NCW and CWIDX set (R176, R177). -/
def encStart (drawn : Bool) (s : State) : State :=
  match firstFault (encChecks s) with
  | some f => faultEntry f encOutputs s
  | none =>
    { s with
      status := statusBusy .received
      ncw := encCount s
      cwidx := 0
      work := some (.encode drawn (encMessages s) []) }

/-- DEC enters BUSY: admission, steps 1 and 2, NCW, CWIDX and CWSTAT set (R191 to R193). -/
def decStart (permuted : Bool) (s : State) : State :=
  match firstFault (decChecks permuted s) with
  | some f => faultEntry f decOutputs s
  | none =>
    { s with
      status := statusBusy .received
      ncw := decCount s
      cwidx := 0
      cwstat := List.replicate (decCount s) false
      work := some (.decode (decReceived permuted s) []) }

/-- A primitive command enters BUSY; its effect comes with the framer's next step. -/
def primitiveStart (i : Instr) (s : State) : State :=
  { s with status := statusBusy .received, work := some (.primitive i) }

/-- A command is accepted and left running. -/
def startInstr (i : Instr) (s : State) : State :=
  match i with
  | .bits2bytes => primitiveStart .bits2bytes s
  | .bytes2bits => primitiveStart .bytes2bits s
  | .bytes2chars => primitiveStart .bytes2chars s
  | .chars2bytes => primitiveStart .chars2bytes s
  | .pad => primitiveStart .pad s
  | .frame => primitiveStart .frame s
  | .mkperm drawn => primitiveStart (.mkperm drawn) s
  | .ilv => primitiveStart .ilv s
  | .dilv => primitiveStart .dilv s
  | .enc interleave => encStart interleave s
  | .dec permuted => decStart permuted s

/-- The command byte is written and the framer is left to work on it (R23, R28). -/
def startCommand (c : Byte) (s : State) : Host.Outcome State Fault Refusal :=
  match decode c with
  | .command i => .next (startInstr i (storeCommand c s))
  | .illegal _ => .next (illegalCommand (storeCommand c s))

/-- One step of ENC: the next message is encoded and CWIDX counts it, or, none left, steps 4 and 5 (R177). -/
def encStep (drawn : Bool) (todo coded : List (List Nat)) (s : State) : State :=
  match todo with
  | [] => complete (interleaveOut drawn (codedBits coded) s)
  | m :: rest =>
    match encodeOne s m with
    | none => faultEntry .codecProtocol encOutputs s
    | some c => { s with cwidx := s.cwidx + 1, work := some (.encode drawn rest (coded ++ [c])) }

/-- Step 4 of DEC, which ends it (R200). -/
def decFinish (out : List (List Nat)) (s : State) : State := complete { s with bout := decodedBits out }

/-- The codeword whose machine runs: R[CWIDX] (R194). -/
def currentCodeword (received : List (List Nat)) (s : State) : List Nat := received.getD s.cwidx []

/-- The machine enters another state; nothing else is written (R195, R196). -/
def enterState (c : CwState) (s : State) : State := { s with status := statusBusy c }

/-- Message CWIDX is in place and its CWSTAT bit written; the machine is DONE (R197, R198). -/
def deliver (received out : List (List Nat)) (m : List Nat) (corrected : Bit) (s : State) : State :=
  { s with
    status := statusBusy .done
    cwstat := s.cwstat.set s.cwidx corrected
    work := some (.decode received (out ++ [m])) }

/-- RECEIVED: to CHECK; with no codeword at all, step 3 is over (R195, R199). -/
def stepReceived (out : List (List Nat)) (s : State) : State :=
  if s.cwidx < s.ncw then enterState .check s else decFinish out s

/-- CHECK: to DECODE or FALLBACK, by the codec's answer alone (R196). -/
def stepCheck (received : List (List Nat)) (s : State) : State :=
  if askCheck s.platform.codec s.n s.k (currentCodeword received s) then enterState .decode s
  else enterState .fallback s

/-- DECODE: to DONE with the codec's message, or the fault F_CODEC_PROTOCOL (R197). -/
def stepDecode (received out : List (List Nat)) (s : State) : State :=
  match correctedMessage s (currentCodeword received s) with
  | some m => deliver received out m true s
  | none => faultEntry .codecProtocol decOutputs s

/-- FALLBACK: to DONE with the received bytes (R198). -/
def stepFallback (received out : List (List Nat)) (s : State) : State :=
  deliver received out (fallbackMessage s (currentCodeword received s)) false s

/-- DONE: CWIDX advances by one; the next machine starts, or step 4 runs (R199). -/
def stepDone (out : List (List Nat)) (s : State) : State :=
  if s.cwidx + 1 < s.ncw then enterState .received { s with cwidx := s.cwidx + 1 }
  else decFinish out { s with cwidx := s.cwidx + 1 }

/-- One step of DEC, by STATUS.CWSTATE (R194). -/
def decStep (received out : List (List Nat)) (c : CwState) (s : State) : State :=
  match c with
  | .received => stepReceived out s
  | .check => stepCheck received s
  | .decode => stepDecode received out s
  | .fallback => stepFallback received out s
  | .done => stepDone out s

/-- One step of the framer while BUSY (R28). -/
def framerStep (s : State) : Host.Outcome State Fault Refusal :=
  match s.work with
  | none => .fault .busyWithoutWork
  | some (.primitive i) => exec i s
  | some (.encode drawn todo coded) => .next (encStep drawn todo coded s)
  | some (.decode received out) =>
    match cwStateOf s.status with
    | some c => .next (decStep received out c s)
    | none => .fault .badCodewordState

end Sys2Proof.Machine
end

