-- ==== Sys2Proof/Machine/HostPort.lean ====
section
/-!
DEFINITION. What the outside world can do to the framer: the host's accesses by phase (10_state.md R30, R33), the lines
of a host script (30_encoding.md R96, R97) and reset (70_reset_and_hazards.md R265).
-/

namespace Sys2Proof.Machine

/-- A write of an operand register (R21, R30); a value wider than the register is refused (log 12). -/
def writeOperand (v : Nat) (store : State → State) (s : State) : Host.Outcome State Fault Refusal :=
  if fitsWidth v s.platform.idxw then .next (store s) else .refused .valueDoesNotFit

/-- A sequence made `len` long: its own elements, then fresh ones (R25). Log 11. -/
def resized {α : Type} (len : Nat) (fresh : Nat → α) (l : List α) : List α :=
  l.take len ++ (List.range (len - l.length)).map (fun j => fresh (l.length + j))

/-- A bare write of BIN_LEN (R25). Log 11. -/
def writeBinLen (v : Nat) (s : State) : Host.Outcome State Fault Refusal :=
  if fits v s.platform.capBits && fitsWidth v s.platform.idxw then
    .next { s with bin := resized v (Config.freshBit s.draws) s.bin, draws := s.draws + 1 }
  else .refused .valueDoesNotFit

/-- A bare write of VIN_LEN (R25). Log 11. -/
def writeVinLen (v : Nat) (s : State) : Host.Outcome State Fault Refusal :=
  if fits v s.platform.capVals && fitsWidth v s.platform.idxw then
    .next { s with
      vin := resized v (fun j => cutWidth s.platform.valw (Config.freshValue s.draws j)) s.vin
      draws := s.draws + 1 }
  else .refused .valueDoesNotFit

/-- A bare write of PERM_LEN (R25). Log 11. -/
def writePermLen (v : Nat) (s : State) : Host.Outcome State Fault Refusal :=
  if fits v s.platform.capPerm && fitsWidth v s.platform.idxw then
    .next { s with
      perm := resized v (fun j => cutWidth s.platform.idxw (Config.freshValue s.draws j)) s.perm
      draws := s.draws + 1 }
  else .refused .valueDoesNotFit

/-- A host write of a register by number, while not BUSY (R33). A write of CMD issues a command (R23); writes of STATUS
and of 8 to 11 are ignored (R24, R25, 93 U16). -/
def writeRegister (reg v : Nat) (s : State) : Host.Outcome State Fault Refusal :=
  match reg with
  | 0 => if v < 256 then issueCommand (BitVec.ofNat 8 v) s else .refused .valueDoesNotFit
  | 1 => .next s
  | 2 => writeOperand v (fun s => { s with n := v }) s
  | 3 => writeOperand v (fun s => { s with k := v }) s
  | 4 => writeOperand v (fun s => { s with w := v }) s
  | 5 => writeBinLen v s
  | 6 => writeVinLen v s
  | 7 => writePermLen v s
  | 8 => .next s
  | 9 => .next s
  | 10 => .next s
  | 11 => .next s
  | _ => .refused .noSuchRegister

/-- LOAD BIN: the elements and the length as one action (R30). -/
def loadBin (b : List Bit) (s : State) : Host.Outcome State Fault Refusal :=
  if fits b.length s.platform.capBits then .next { s with bin := b } else .refused .loadDoesNotFit

/-- LOAD VIN (R30). -/
def loadVin (v : List Nat) (s : State) : Host.Outcome State Fault Refusal :=
  if fits v.length s.platform.capVals && v.all (fun x => fitsWidth x s.platform.valw) then .next { s with vin := v }
  else .refused .loadDoesNotFit

/-- LOAD PERM (R30). -/
def loadPerm (p : List Nat) (s : State) : Host.Outcome State Fault Refusal :=
  if fits p.length s.platform.capPerm && p.all (fun x => fitsWidth x s.platform.idxw) then .next { s with perm := p }
  else .refused .loadDoesNotFit

/-- A host read of a register; reading has no side effect on the framer (R65). -/
def readRegister (reg : Nat) (s : State) : Host.Outcome State Fault Refusal :=
  match registerValue reg s with
  | some v => .next { s with hostData := .number v }
  | none => .refused .noSuchRegister

/-- A host read of a whole buffer (R30). -/
def readBuffer (b : Buffer) (s : State) : Host.Outcome State Fault Refusal :=
  .next { s with hostData := bufferData b s }

/-- A host read of one element; at or beyond the length there is none (R26, 93 U17). -/
def readElement (b : Buffer) (index : Nat) (s : State) : Host.Outcome State Fault Refusal :=
  match bufferElement b index s with
  | some v => .next { s with hostData := .number v }
  | none => .refused .noSuchElement

/-- The registers the host may read while BUSY: STATUS, NCW, CWIDX (R30). -/
def readableWhileBusy (reg : Nat) : Bool := reg = 1 || reg = 10 || reg = 11

/-- WAIT seen while BUSY: the framer works and the host goes on polling. -/
def pollAgain (s : State) : Host.Outcome State Fault Refusal :=
  framerStep { s with schedule := .wait :: s.schedule }

/-- An event while PHASE is BUSY (R30, R268). -/
def busyEvent (e : Event) (s : State) : Host.Outcome State Fault Refusal :=
  match e with
  | .write _ _ => .refused .accessWhileBusy
  | .loadBin _ => .refused .accessWhileBusy
  | .loadVin _ => .refused .accessWhileBusy
  | .loadPerm _ => .refused .accessWhileBusy
  | .moveBits => .refused .accessWhileBusy
  | .moveValues => .refused .accessWhileBusy
  | .issue _ => .refused .accessWhileBusy
  | .start _ => .refused .accessWhileBusy
  | .framer => framerStep s
  | .wait => pollAgain s
  | .read reg => if readableWhileBusy reg then readRegister reg s else .refused .accessWhileBusy
  | .readBuffer _ => .refused .accessWhileBusy
  | .readElement _ _ => .refused .accessWhileBusy
  | .reset => .next (resetEntry s)

/-- An event while PHASE is IDLE, DONE or FAULT (R30). -/
def idleEvent (e : Event) (s : State) : Host.Outcome State Fault Refusal :=
  match e with
  | .write reg v => writeRegister reg v s
  | .loadBin b => loadBin b s
  | .loadVin v => loadVin v s
  | .loadPerm p => loadPerm p s
  | .moveBits => loadBin s.bout s
  | .moveValues => loadVin s.vout s
  | .issue c => issueCommand c s
  | .start c => startCommand c s
  | .framer => .next s
  | .wait => readRegister 1 s
  | .read reg => readRegister reg s
  | .readBuffer b => readBuffer b s
  | .readElement b index => readElement b index s
  | .reset => .next (resetEntry s)

/-- One event of the schedule, taken off it. -/
def event (e : Event) (s : State) : Host.Outcome State Fault Refusal :=
  if isBusy s then busyEvent e s else idleEvent e s

/-- With nothing scheduled the framer goes on with its command, or waits and loses nothing (R244). -/
def unattended (s : State) : Host.Outcome State Fault Refusal := if isBusy s then framerStep s else .next s

/-- One step of the whole machine: the next event of the schedule, or the framer alone. -/
def machineStep (s : State) : Host.Outcome State Fault Refusal :=
  match s.schedule with
  | [] => unattended s
  | e :: rest => event e { s with schedule := rest }

/-- A state whose framer can take a command: one that is BUSY has its command abandoned (log 21). -/
def readyForCommand (s : State) : State :=
  if isBusy s then { s with status := statusWord .idle none .received, work := none } else s

/-- SET N and SET K, then a command and WAIT: the common part of R97's first four pseudo-operations. -/
def scriptPipeline (c : Byte) (n k : Nat) : List Event := [.write 2 n, .write 3 k, .start c, .wait]

/-- ENCODE n, k and ENCODE.I n, k (R97). -/
def scriptEncode (interleave : Bool) (n k : Nat) : List Event := scriptPipeline (encode (.enc interleave)) n k

/-- DECODE n, k and DECODE.P n, k (R97). -/
def scriptDecode (permuted : Bool) (n k : Nat) : List Event := scriptPipeline (encode (.dec permuted)) n k

/-- SET W, then a command and WAIT. -/
def scriptPrimitive (i : Instr) (w : Nat) : List Event := [.write 4 w, .start (encode i), .wait]

/-- PADK k (R97). -/
def scriptPadK (k : Nat) : List Event := scriptPrimitive .pad (8 * k)

/-- TOBYTES (R97). -/
def scriptToBytes : List Event := scriptPrimitive .bits2bytes 8

/-- TOBITS (R97). -/
def scriptToBits : List Event := scriptPrimitive .bytes2bits 8

/-- LOOPBACK (R97). -/
def scriptLoopback : List Event := [.moveBits]

end Sys2Proof.Machine
end

