-- ==== Sys2Proof/Machine/Step.lean ====
section
/-!
DEFINITION. The machine's step, and where its next command comes from: there is no program and no fetch (10_state.md R28,
20_memory.md R71); a command is the byte of the next event of the schedule. Log 5.
-/

namespace Sys2Proof.Machine

/-- One step of the framer and the world around it. -/
def step (s : State) : Host.Outcome State Fault Refusal := Sys2Proof.Machine.machineStep s

/-- `s` with the command byte `w` as the host's next action, so that the next step runs it (log 21). -/
def State.withFetchWord (s : State) (nbits w : Nat) : State :=
  { readyForCommand s with schedule := .issue (tableByte nbits w) :: s.schedule }

end Sys2Proof.Machine
end

