-- ==== Sys2Proof/Safety.lean ====
section
/-!
DEFINITION. The terms claims are stated in: what a fault leaves behind and what it says nothing of (60_exceptions.md
R238), which outputs each command's rule lists (30_encoding.md R92), and the invariant of the machine.
-/

namespace Sys2Proof.Machine

/-- `count` steps of the machine, up to its first stop. -/
def runSteps (count : Nat) (s : State) : Host.Outcome State Fault Refusal :=
  match count with
  | 0 => .next s
  | c + 1 =>
    match step s with
    | .next t => runSteps c t
    | .fault f => .fault f
    | .refused r => .refused r

/-- What no command writes is as it was: CMD, the operand registers, the two inputs, and the model's own platform,
schedule and host data (R72, R238). -/
def keepsInputs (s t : State) : Prop :=
  t.cmd = s.cmd ∧ t.n = s.n ∧ t.k = s.k ∧ t.w = s.w ∧ t.bin = s.bin ∧ t.vin = s.vin ∧
  t.platform = s.platform ∧ t.schedule = s.schedule ∧ t.hostData = s.hostData

/-- Every output not listed is as it was (R73, R238); nothing is said of the listed ones. -/
def keepsOutputsExcept (outs : List Output) (s t : State) : Prop :=
  (.bout ∉ outs → t.bout = s.bout) ∧ (.vout ∉ outs → t.vout = s.vout) ∧ (.perm ∉ outs → t.perm = s.perm) ∧
  (.cwstat ∉ outs → t.cwstat = s.cwstat) ∧ (.ncw ∉ outs → t.ncw = s.ncw) ∧ (.cwidx ∉ outs → t.cwidx = s.cwidx)

/-- `t` is `s` after fault `code` of a command that lists `outs` (R238): PHASE FAULT, FCODE the code, CWSTATE 0, no
working storage, inputs and other outputs kept. The listed outputs are unspecified, so nothing is said of them. -/
def faultedWith (code : Nat) (outs : List Output) (s t : State) : Prop :=
  t.status = BitVec.ofNat 16 (3 + 16 * code) ∧ t.work = none ∧ keepsInputs s t ∧ keepsOutputsExcept outs s t

/-- The results-written column of R92, STATUS aside. -/
def listedOutputs (i : Instr) : List Output :=
  match i with
  | .bits2bytes => [.vout]
  | .bytes2bits => [.bout]
  | .bytes2chars => [.vout]
  | .chars2bytes => [.vout]
  | .pad => [.bout]
  | .frame => [.vout, .ncw]
  | .mkperm _ => [.perm]
  | .ilv => [.bout]
  | .dilv => [.bout]
  | .enc _ => [.bout, .perm, .ncw, .cwidx]
  | .dec _ => [.bout, .cwstat, .ncw, .cwidx]

/-- Which fault codes each command can raise, in the order they are tested (R236). -/
def listedFaults (i : Instr) : List Nat :=
  match i with
  | .bits2bytes => [3, 8, 10]
  | .bytes2bits => [3, 9, 10]
  | .bytes2chars => [9, 10]
  | .chars2bytes => [9, 10]
  | .pad => [3, 10]
  | .frame => [3, 8, 10]
  | .mkperm _ => [10]
  | .ilv => [6, 7]
  | .dilv => [6, 7]
  | .enc _ => [2, 4, 5, 10, 11]
  | .dec _ => [2, 4, 5, 6, 7, 8, 10, 11]

/-- The fourteen legal command bytes of R93. -/
def legalCommandBytes : List Byte :=
  [0x01, 0x02, 0x03, 0x04, 0x05, 0x06, 0x07, 0x17, 0x08, 0x09, 0x0A, 0x1A, 0x0B, 0x2B]

/-- A length or width is within a parameter of R7; everything is within `unbounded`. -/
def within (v : Nat) (limit : Option Nat) : Prop := ∀ c, limit = some c → v ≤ c

/-! The pipelines' data by index, written from the rules and not from the meanings. -/

/-- A byte from its eight bits, the first bit the most significant (R61). -/
def byteOfBits (bit : Nat → Bit) : Byte := BitVec.ofNat 8 (∑ t ∈ Finset.range 8, (bit t).toNat * 2 ^ (7 - t))

/-- ceil(len(BIN) / 8k): the number of messages ENC makes (R179). -/
def messageCount (s : State) : Nat := (s.bin.length + 8 * s.k - 1) / (8 * s.k)

/-- Bit `i` of BIN padded on the left to a multiple of 8k (R140). -/
def paddedBit (s : State) (i : Nat) : Bit :=
  if i < 8 * s.k * messageCount s - s.bin.length then false
  else s.bin.getD (i - (8 * s.k * messageCount s - s.bin.length)) false

/-- Message `j` of ENC: bytes k·j to k·j+k of the padded input (R177). -/
def messageBytes (s : State) (j : Nat) : List Byte :=
  (List.range s.k).map (fun i => byteOfBits (fun t => paddedBit s (8 * (s.k * j + i) + t)))

/-- Codeword `j` of ENC (R177). -/
def codewordBytes (s : State) (j : Nat) : List Byte := codecEncode s.platform.codec s.n s.k (messageBytes s j)

/-- The number of codewords DEC receives (R191). -/
def codewordCount (s : State) : Nat := s.bin.length / (8 * s.n)

/-- Bit `i` of BIN de-interleaved (R192). -/
def deinterleavedBit (permuted : Bool) (s : State) (i : Nat) : Bit :=
  s.bin.getD (if permuted then s.perm.getD i 0 else i) false

/-- Received codeword `j` of DEC: bytes n·j to n·j+n (R193). -/
def receivedBytes (permuted : Bool) (s : State) (j : Nat) : List Byte :=
  (List.range s.n).map (fun i => byteOfBits (fun t => deinterleavedBit permuted s (8 * (s.n * j + i) + t)))

/-- The codec believes received codeword `j` correctable (R196). -/
def believedCorrectable (permuted : Bool) (s : State) (j : Nat) : Bool :=
  codecCheck s.platform.codec s.n s.k (receivedBytes permuted s j)

/-- The codec's message for received codeword `j` (R197). -/
def correctedBytes (permuted : Bool) (s : State) (j : Nat) : List Byte :=
  codecDecode s.platform.codec s.n s.k (receivedBytes permuted s j)

/-- Message `j` of DEC: the codec's, with zero bytes on the left, or the rightmost k received bytes (R197, R198). -/
def deliveredBytes (permuted : Bool) (s : State) (j : Nat) : List Byte :=
  if believedCorrectable permuted s j then
    List.replicate (s.k - (correctedBytes permuted s j).length) 0 ++ correctedBytes permuted s j
  else (receivedBytes permuted s j).drop (s.n - s.k)

/-- The conditions under which ENC is admitted (R176). -/
def encAdmitted (s : State) : Prop :=
  1 ≤ s.n ∧ 1 ≤ s.k ∧ s.k ≤ s.n ∧ codecAccepts s.platform.codec s.n s.k = true ∧
  within (8 * s.n * messageCount s) s.platform.capBits ∧ within (8 * s.n * messageCount s) s.platform.capPerm

/-- The conditions under which DEC is admitted (R191). -/
def decAdmitted (permuted : Bool) (s : State) : Prop :=
  1 ≤ s.n ∧ 1 ≤ s.k ∧ s.k ≤ s.n ∧ codecAccepts s.platform.codec s.n s.k = true ∧
  (permuted = true → IsPerm s.perm s.bin.length) ∧ s.bin.length % 8 = 0 ∧ s.bin.length / 8 % s.n = 0 ∧
  within (8 * s.k * codewordCount s) s.platform.capBits

/-- The causes of R236 for each command, each code's alone and in no order: `causeHolds i s c` is the cause of code `c`,
where command `i` can raise it. -/
def causeHolds (i : Instr) (s : State) (c : Nat) : Prop :=
  match i with
  | .bits2bytes =>
    (c = 3 ∧ (s.w = 0 ∨ ¬ within s.w s.platform.valw)) ∨ (c = 8 ∧ s.bin.length % s.w ≠ 0) ∨
    (c = 10 ∧ ¬ within (s.bin.length / s.w) s.platform.capVals)
  | .bytes2bits =>
    (c = 3 ∧ s.w = 0) ∨ (c = 9 ∧ ∃ x ∈ s.vin, 2 ^ s.w - 1 < x) ∨
    (c = 10 ∧ ¬ within (s.w * s.vin.length) s.platform.capBits)
  | .bytes2chars => (c = 9 ∧ ∃ x ∈ s.vin, 255 < x) ∨ (c = 10 ∧ ¬ within s.vin.length s.platform.capVals)
  | .chars2bytes => (c = 9 ∧ ∃ x ∈ s.vin, 255 < x) ∨ (c = 10 ∧ ¬ within s.vin.length s.platform.capVals)
  | .pad => (c = 3 ∧ s.w = 0) ∨ (c = 10 ∧ ¬ within (s.w * ((s.bin.length + s.w - 1) / s.w)) s.platform.capBits)
  | .frame =>
    (c = 3 ∧ s.w = 0) ∨ (c = 8 ∧ s.vin.length % s.w ≠ 0) ∨ (c = 10 ∧ ¬ within s.vin.length s.platform.capVals)
  | .mkperm _ => c = 10 ∧ ¬ within s.w s.platform.capPerm
  | .ilv =>
    (c = 6 ∧ s.perm.length ≠ s.bin.length) ∨
    (c = 7 ∧ s.perm.length = s.bin.length ∧ ¬ IsPerm s.perm s.bin.length)
  | .dilv =>
    (c = 6 ∧ s.perm.length ≠ s.bin.length) ∨
    (c = 7 ∧ s.perm.length = s.bin.length ∧ ¬ IsPerm s.perm s.bin.length)
  | .enc _ =>
    (c = 2 ∧ (s.n = 0 ∨ s.k = 0)) ∨ (c = 4 ∧ s.n < s.k) ∨
    (c = 5 ∧ 1 ≤ s.k ∧ s.k ≤ s.n ∧ codecAccepts s.platform.codec s.n s.k = false) ∨
    (c = 10 ∧ ¬ (within (8 * s.n * messageCount s) s.platform.capBits ∧
      within (8 * s.n * messageCount s) s.platform.capPerm)) ∨
    (c = 11 ∧ ∃ j, j < messageCount s ∧ (codewordBytes s j).length ≠ s.n)
  | .dec permuted =>
    (c = 2 ∧ (s.n = 0 ∨ s.k = 0)) ∨ (c = 4 ∧ s.n < s.k) ∨
    (c = 5 ∧ 1 ≤ s.k ∧ s.k ≤ s.n ∧ codecAccepts s.platform.codec s.n s.k = false) ∨
    (c = 6 ∧ permuted = true ∧ s.perm.length ≠ s.bin.length) ∨
    (c = 7 ∧ permuted = true ∧ s.perm.length = s.bin.length ∧ ¬ IsPerm s.perm s.bin.length) ∨
    (c = 8 ∧ (s.bin.length % 8 ≠ 0 ∨ s.bin.length / 8 % s.n ≠ 0)) ∨
    (c = 10 ∧ ¬ within (8 * s.k * codewordCount s) s.platform.capBits) ∨
    (c = 11 ∧ ∃ j, j < codewordCount s ∧ believedCorrectable permuted s j = true ∧
      s.k < (correctedBytes permuted s j).length)

/-- Two states agree on what a command reads (the operands-read column of R92): its registers and buffers, the parameters
and codec, and the number of the next free value, which stands for the one draw. -/
def sameOperands (i : Instr) (s t : State) : Prop :=
  s.platform = t.platform ∧ s.draws = t.draws ∧
  match i with
  | .bits2bytes => s.bin = t.bin ∧ s.w = t.w
  | .bytes2bits => s.vin = t.vin ∧ s.w = t.w
  | .bytes2chars => s.vin = t.vin
  | .chars2bytes => s.vin = t.vin
  | .pad => s.bin = t.bin ∧ s.w = t.w
  | .frame => s.vin = t.vin ∧ s.w = t.w
  | .mkperm _ => s.w = t.w
  | .ilv => s.bin = t.bin ∧ s.perm = t.perm
  | .dilv => s.bin = t.bin ∧ s.perm = t.perm
  | .enc _ => s.bin = t.bin ∧ s.n = t.n ∧ s.k = t.k
  | .dec permuted => s.bin = t.bin ∧ s.n = t.n ∧ s.k = t.k ∧ (permuted = true → s.perm = t.perm)

/-- Two states agree on an output. -/
def sameOutput (o : Output) (s t : State) : Prop :=
  match o with
  | .bout => s.bout = t.bout
  | .vout => s.vout = t.vout
  | .perm => s.perm = t.perm
  | .cwstat => s.cwstat = t.cwstat
  | .ncw => s.ncw = t.ncw
  | .cwidx => s.cwidx = t.cwidx

/-- A STATUS word of R24: reserved bits 0; FCODE at most 11, and 0 exactly where PHASE is not FAULT; CWSTATE one of the
five states, and 0 where PHASE is not BUSY. -/
def statusLegal (status : BitVec 16) : Prop :=
  status.extractLsb' 2 2 = 0 ∧ status.extractLsb' 11 5 = 0 ∧ fcodeOf status ≤ 11 ∧
  (phaseOf status = .fault ↔ fcodeOf status ≠ 0) ∧ (cwStateOf status).isSome ∧
  (phaseOf status ≠ .busy → cwStateOf status = some .received)

/-- Every register of IDXW bits holds a number of that width (R21, R25). -/
def registersFit (s : State) : Prop :=
  fitsWidth s.n s.platform.idxw ∧ fitsWidth s.k s.platform.idxw ∧ fitsWidth s.w s.platform.idxw ∧
  fitsWidth s.ncw s.platform.idxw ∧ fitsWidth s.cwidx s.platform.idxw

/-- The working storage of a running ENC: CWIDX codewords of n bytes made, the other messages still to encode, and the
result within the capacities (R177). -/
def encodingLegal (todo coded : List (List Nat)) (s : State) : Prop :=
  coded.length = s.cwidx ∧ coded.length + todo.length = s.ncw ∧ (∀ c ∈ coded, c.length = s.n) ∧
  fits (8 * s.n * s.ncw) s.platform.capBits ∧ fits (8 * s.n * s.ncw) s.platform.capPerm ∧
  cwStateOf s.status = some .received

/-- Where the machine of codeword CWIDX stands, with `made` messages in place (R194 to R199). -/
def codewordLegal (received : List (List Nat)) (made : Nat) (s : State) : Prop :=
  match cwStateOf s.status with
  | some .received => made = s.cwidx ∧ s.cwidx ≤ s.ncw
  | some .check => made = s.cwidx ∧ s.cwidx < s.ncw
  | some .decode =>
    made = s.cwidx ∧ s.cwidx < s.ncw ∧ askCheck s.platform.codec s.n s.k (currentCodeword received s) = true
  | some .fallback =>
    made = s.cwidx ∧ s.cwidx < s.ncw ∧ askCheck s.platform.codec s.n s.k (currentCodeword received s) = false
  | some .done => made = s.cwidx + 1 ∧ s.cwidx < s.ncw
  | none => False

/-- The working storage of a running DEC: NCW received codewords of n bytes, messages of k bytes, CWSTAT of NCW bits, the
result within the capacity (R193 to R200). -/
def decodingLegal (received out : List (List Nat)) (s : State) : Prop :=
  received.length = s.ncw ∧ (∀ r ∈ received, r.length = s.n) ∧ s.cwstat.length = s.ncw ∧ s.k ≤ s.n ∧
  (∀ m ∈ out, m.length = s.k) ∧ fits (8 * s.k * s.ncw) s.platform.capBits ∧
  codewordLegal received out.length s

/-- Working storage exists exactly while PHASE is BUSY, and is that of the running command (R29). -/
def workLegal (s : State) : Prop :=
  match s.work with
  | none => phaseOf s.status ≠ .busy
  | some (.primitive _) => phaseOf s.status = .busy
  | some (.encode _ todo coded) => phaseOf s.status = .busy ∧ encodingLegal todo coded s
  | some (.decode received out) => phaseOf s.status = .busy ∧ decodingLegal received out s

/-- The invariant of the machine. -/
def Inv (s : State) : Prop :=
  s.platform.wf = true ∧ Memory.wf s = true ∧ statusLegal s.status ∧ registersFit s ∧ workLegal s

end Sys2Proof.Machine
end

