-- ==== Sys2Proof/Certificates/Slice0/Obligations.lean ====
section
/-!
DEFINITION. What is claimed of the model, for the provers. Each statement's docstring names the rule of spec/ it follows.
A command's fault is a next state, so every statement about a command ends in one; `faultedWith code outs s t` says
nothing of the outputs `outs`, which R238 leaves unspecified.
-/

open Sys2Proof Sys2Proof.Machine

/-! Reset, the command word and the step. -/

/-- R32: after reset every register holds 0 and every buffer is empty, nothing runs, and a command issued before its
operands meets the fault or the empty result the rule names. -/
def Obligations.ResetLeavesZerosAndEmptyBuffers : Prop :=
  (∀ reg, reg < 12 → registerValue reg State.reset = some 0) ∧
  (∀ b index, bufferElement b index State.reset = none) ∧
  State.reset.work = none ∧ phaseOf State.reset.status = .idle ∧ fcodeOf State.reset.status = 0 ∧
  cwStateOf State.reset.status = some .received ∧
  (∀ flag, ∃ t, exec (.enc flag) State.reset = .next t ∧ t.status = 0x0023#16) ∧
  (∀ flag, ∃ t, exec (.dec flag) State.reset = .next t ∧ t.status = 0x0023#16) ∧
  (∀ i ∈ [Instr.bits2bytes, Instr.bytes2bits, Instr.pad, Instr.frame],
    ∃ t, exec i State.reset = .next t ∧ t.status = 0x0033#16) ∧
  (∀ flag, ∃ t, exec (.mkperm flag) State.reset = .next t ∧ t.status = 0x0002#16 ∧ t.perm = [])

/-- R265: reset, whenever it comes, a command running or not, gives every register and buffer its reset value and drops
the working storage. The model's own fields platform, draws, schedule and hostData stay (log 14). -/
def Obligations.ResetEventAbandonsEverything : Prop :=
  ∀ (s : State) (rest : List Event),
    step { s with schedule := .reset :: rest } =
      .next { State.reset with
        platform := s.platform, draws := s.draws, schedule := rest, hostData := s.hostData }

/-- A step at which the host issues a byte that decodes to `i` runs `i` on the state with the byte in CMD and the event
taken off the schedule; and so does the step of a state made by `withFetchWord` (R23, R90; log 5, log 21). -/
def Obligations.StepRunsTheIssuedCommand : Prop :=
  (∀ (s : State) (c : Byte) (rest : List Event) (i : Instr), isBusy s = false → decode c = .command i →
    step { s with schedule := .issue c :: rest } = exec i { s with schedule := rest, cmd := c }) ∧
  (∀ (s : State) (w : Nat) (i : Instr), decodeTableWord 8 w = some i →
    step (s.withFetchWord 8 w) = exec i { readyForCommand s with cmd := BitVec.ofNat 8 w })

/-- R94: every byte but the fourteen, 242 of them, written to CMD while not BUSY, only stores the byte and ends at once
with PHASE FAULT and FCODE 1, whether the command is seen as one step or started. -/
def Obligations.IllegalBytesFaultAndTouchNothing : Prop :=
  (List.range 256).countP (fun v => decide (BitVec.ofNat 8 v ∉ legalCommandBytes)) = 242 ∧
  ∀ (s : State) (c : Byte) (rest : List Event), isBusy s = false → c ∉ legalCommandBytes →
    step { s with schedule := .issue c :: rest } =
      .next { s with schedule := rest, cmd := c, status := 0x0013#16, work := none } ∧
    step { s with schedule := .start c :: rest } =
      .next { s with schedule := rest, cmd := c, status := 0x0013#16, work := none }

/-- R93: the fourteen legal bytes and what they select; no byte matches two rows of the table. -/
def Obligations.LegalBytesSelectTheirCommands : Prop :=
  decode 0x01 = .command .bits2bytes ∧ decode 0x02 = .command .bytes2bits ∧ decode 0x03 = .command .bytes2chars ∧
  decode 0x04 = .command .chars2bytes ∧ decode 0x05 = .command .pad ∧ decode 0x06 = .command .frame ∧
  decode 0x07 = .command (.mkperm false) ∧ decode 0x17 = .command (.mkperm true) ∧ decode 0x08 = .command .ilv ∧
  decode 0x09 = .command .dilv ∧ decode 0x0A = .command (.enc false) ∧ decode 0x1A = .command (.enc true) ∧
  decode 0x0B = .command (.dec false) ∧ decode 0x2B = .command (.dec true) ∧
  (∀ c : Byte, c ∉ legalCommandBytes → ∀ i, decode c ≠ .command i) ∧
  opcodeTable.Pairwise (fun r q => ∀ c : Byte, ¬ (r.selects c = true ∧ q.selects c = true))

/-- R91, R93: decoding an encoded command gives it back, and a byte that decodes is its command's encoding. -/
def Obligations.DecodeAndEncodeAgree : Prop :=
  (∀ i : Instr, i.wellFormed = true → decode (encode i) = .command i) ∧
  (∀ (c : Byte) (i : Instr), decode c = .command i → encode i = c)

/-! One rule per command. -/

/-- R123: BITS2BYTES. Value j of VOUT is the base-2 value of row j of BIN, first bit most significant. -/
def Obligations.Bits2bytesReadsRowsOrFaults : Prop :=
  decode 0x01 = .command .bits2bytes ∧
  ∀ s : State,
    ((s.w = 0 ∨ ¬ within s.w s.platform.valw) →
      ∃ t, exec .bits2bytes s = .next t ∧ faultedWith 3 [.vout] s t) ∧
    (1 ≤ s.w → within s.w s.platform.valw → s.bin.length % s.w ≠ 0 →
      ∃ t, exec .bits2bytes s = .next t ∧ faultedWith 8 [.vout] s t) ∧
    (1 ≤ s.w → within s.w s.platform.valw → s.bin.length % s.w = 0 →
      ¬ within (s.bin.length / s.w) s.platform.capVals →
      ∃ t, exec .bits2bytes s = .next t ∧ faultedWith 10 [.vout] s t) ∧
    (1 ≤ s.w → within s.w s.platform.valw → s.bin.length % s.w = 0 →
      within (s.bin.length / s.w) s.platform.capVals →
      ∃ v, exec .bits2bytes s = .next { s with vout := v, status := 0x0002#16, work := none } ∧
        v.length = s.bin.length / s.w ∧
        ∀ j, j < s.bin.length / s.w →
          v.getD j 0 = ∑ t ∈ Finset.range s.w, (s.bin.getD (s.w * j + t) false).toNat * 2 ^ (s.w - 1 - t))

/-- R124: BYTES2BITS. Bit W·j + t of BOUT is binary digit W−1−t of value j. -/
def Obligations.Bytes2bitsWritesDigitsOrFaults : Prop :=
  decode 0x02 = .command .bytes2bits ∧
  ∀ s : State,
    (s.w = 0 → ∃ t, exec .bytes2bits s = .next t ∧ faultedWith 3 [.bout] s t) ∧
    (1 ≤ s.w → (∃ x ∈ s.vin, 2 ^ s.w - 1 < x) →
      ∃ t, exec .bytes2bits s = .next t ∧ faultedWith 9 [.bout] s t) ∧
    (1 ≤ s.w → (∀ x ∈ s.vin, x ≤ 2 ^ s.w - 1) → ¬ within (s.w * s.vin.length) s.platform.capBits →
      ∃ t, exec .bytes2bits s = .next t ∧ faultedWith 10 [.bout] s t) ∧
    (1 ≤ s.w → (∀ x ∈ s.vin, x ≤ 2 ^ s.w - 1) → within (s.w * s.vin.length) s.platform.capBits →
      ∃ b, exec .bytes2bits s = .next { s with bout := b, status := 0x0002#16, work := none } ∧
        b.length = s.w * s.vin.length ∧
        ∀ j t, j < s.vin.length → t < s.w →
          b.getD (s.w * j + t) false = (s.vin.getD j 0).testBit (s.w - 1 - t))

/-- R126, R127: BYTES2CHARS and CHARS2BYTES copy VIN to VOUT where every element is in [0,255]; W is not read. -/
def Obligations.CharacterCommandsCopyBytesOrFault : Prop :=
  decode 0x03 = .command .bytes2chars ∧ decode 0x04 = .command .chars2bytes ∧
  ∀ (s : State) (i : Instr), i = .bytes2chars ∨ i = .chars2bytes →
    ((∃ x ∈ s.vin, 255 < x) → ∃ t, exec i s = .next t ∧ faultedWith 9 [.vout] s t) ∧
    ((∀ x ∈ s.vin, x ≤ 255) → ¬ within s.vin.length s.platform.capVals →
      ∃ t, exec i s = .next t ∧ faultedWith 10 [.vout] s t) ∧
    ((∀ x ∈ s.vin, x ≤ 255) → within s.vin.length s.platform.capVals →
      exec i s = .next { s with vout := s.vin, status := 0x0002#16, work := none })

/-- R142: PAD. The least multiple of W not below the length, zero bits on the left, the bits of BIN after them. -/
def Obligations.PadPrependsZerosOrFaults : Prop :=
  decode 0x05 = .command .pad ∧
  ∀ s : State,
    (s.w = 0 → ∃ t, exec .pad s = .next t ∧ faultedWith 3 [.bout] s t) ∧
    (1 ≤ s.w → ¬ within (s.w * ((s.bin.length + s.w - 1) / s.w)) s.platform.capBits →
      ∃ t, exec .pad s = .next t ∧ faultedWith 10 [.bout] s t) ∧
    (1 ≤ s.w → within (s.w * ((s.bin.length + s.w - 1) / s.w)) s.platform.capBits →
      ∃ b, exec .pad s = .next { s with bout := b, status := 0x0002#16, work := none } ∧
        b.length = s.w * ((s.bin.length + s.w - 1) / s.w) ∧ s.bin.length ≤ b.length ∧
        b.length < s.bin.length + s.w ∧
        (∀ i, i < b.length - s.bin.length → b.getD i true = false) ∧
        (∀ i, i < s.bin.length → b.getD (b.length - s.bin.length + i) false = s.bin.getD i false))

/-- R145: FRAME. VOUT is VIN, NCW the number of groups. -/
def Obligations.FrameCountsGroupsOrFaults : Prop :=
  decode 0x06 = .command .frame ∧
  ∀ s : State,
    (s.w = 0 → ∃ t, exec .frame s = .next t ∧ faultedWith 3 [.vout, .ncw] s t) ∧
    (1 ≤ s.w → s.vin.length % s.w ≠ 0 → ∃ t, exec .frame s = .next t ∧ faultedWith 8 [.vout, .ncw] s t) ∧
    (1 ≤ s.w → s.vin.length % s.w = 0 → ¬ within s.vin.length s.platform.capVals →
      ∃ t, exec .frame s = .next t ∧ faultedWith 10 [.vout, .ncw] s t) ∧
    (1 ≤ s.w → s.vin.length % s.w = 0 → within s.vin.length s.platform.capVals →
      exec .frame s =
        .next { s with vout := s.vin, ncw := s.vin.length / s.w, status := 0x0002#16, work := none })

/-- R161: MKPERM. The identity, or with the flag I some bijection of [0, W): which one is a free value. Nothing is said of
the model's own counter `draws` (log 3). -/
def Obligations.MkpermMakesABijectionOrFaults : Prop :=
  decode 0x07 = .command (.mkperm false) ∧ decode 0x17 = .command (.mkperm true) ∧
  ∀ (s : State) (drawn : Bool),
    (¬ within s.w s.platform.capPerm →
      ∃ t, exec (.mkperm drawn) s = .next t ∧ faultedWith 10 [.perm] s t) ∧
    (within s.w s.platform.capPerm →
      ∃ p d, exec (.mkperm drawn) s =
          .next { s with perm := p, draws := d, status := 0x0002#16, work := none } ∧
        IsPerm p s.w ∧ (drawn = false → p = List.range s.w))

/-- R162: ILV, the scatter: BOUT[PERM[i]] = BIN[i]. -/
def Obligations.IlvScattersOrFaults : Prop :=
  decode 0x08 = .command .ilv ∧
  ∀ s : State,
    (s.perm.length ≠ s.bin.length → ∃ t, exec .ilv s = .next t ∧ faultedWith 6 [.bout] s t) ∧
    (s.perm.length = s.bin.length → ¬ IsPerm s.perm s.bin.length →
      ∃ t, exec .ilv s = .next t ∧ faultedWith 7 [.bout] s t) ∧
    (IsPerm s.perm s.bin.length →
      ∃ b, exec .ilv s = .next { s with bout := b, status := 0x0002#16, work := none } ∧
        b.length = s.bin.length ∧
        ∀ i, i < s.bin.length → b.getD (s.perm.getD i 0) false = s.bin.getD i false)

/-- R163: DILV, the inverse: BOUT[i] = BIN[PERM[i]]. -/
def Obligations.DilvGathersOrFaults : Prop :=
  decode 0x09 = .command .dilv ∧
  ∀ s : State,
    (s.perm.length ≠ s.bin.length → ∃ t, exec .dilv s = .next t ∧ faultedWith 6 [.bout] s t) ∧
    (s.perm.length = s.bin.length → ¬ IsPerm s.perm s.bin.length →
      ∃ t, exec .dilv s = .next t ∧ faultedWith 7 [.bout] s t) ∧
    (IsPerm s.perm s.bin.length →
      ∃ b, exec .dilv s = .next { s with bout := b, status := 0x0002#16, work := none } ∧
        b.length = s.bin.length ∧
        ∀ i, i < s.bin.length → b.getD i false = s.bin.getD (s.perm.getD i 0) false)

/-- R176: the admission of ENC, in its order; ENC raises no length fault and no value-range fault. -/
def Obligations.EncAdmissionFaultsInOrder : Prop :=
  ∀ (s : State) (drawn : Bool),
    (s.n = 0 ∨ s.k = 0 →
      ∃ t, exec (.enc drawn) s = .next t ∧ faultedWith 2 [.bout, .perm, .ncw, .cwidx] s t) ∧
    (1 ≤ s.n → s.n < s.k →
      ∃ t, exec (.enc drawn) s = .next t ∧ faultedWith 4 [.bout, .perm, .ncw, .cwidx] s t) ∧
    (1 ≤ s.k → s.k ≤ s.n → codecAccepts s.platform.codec s.n s.k = false →
      ∃ t, exec (.enc drawn) s = .next t ∧ faultedWith 5 [.bout, .perm, .ncw, .cwidx] s t) ∧
    (1 ≤ s.k → s.k ≤ s.n → codecAccepts s.platform.codec s.n s.k = true →
      ¬ (within (8 * s.n * messageCount s) s.platform.capBits ∧
        within (8 * s.n * messageCount s) s.platform.capPerm) →
      ∃ t, exec (.enc drawn) s = .next t ∧ faultedWith 10 [.bout, .perm, .ncw, .cwidx] s t) ∧
    (∀ t, exec (.enc drawn) s = .next t → fcodeOf t.status ≠ 8 ∧ fcodeOf t.status ≠ 9)

/-- R177, R179: the result of ENC. PERM is the permutation used, and bit t of byte i of codeword j, the codec's encoding
of message j, stands at BOUT[PERM[8·(n·j+i)+t]]. A codeword whose length is not n is the fault 11. Nothing is said of the model's own
counter `draws` (log 3). -/
def Obligations.EncScattersTheCodecsCodewords : Prop :=
  decode 0x0A = .command (.enc false) ∧ decode 0x1A = .command (.enc true) ∧
  ∀ (s : State) (drawn : Bool), encAdmitted s →
    ((∃ j, j < messageCount s ∧ (codewordBytes s j).length ≠ s.n) →
      ∃ t, exec (.enc drawn) s = .next t ∧ faultedWith 11 [.bout, .perm, .ncw, .cwidx] s t) ∧
    ((∀ j, j < messageCount s → (codewordBytes s j).length = s.n) →
      ∃ b p d, exec (.enc drawn) s =
          .next { s with
            bout := b, perm := p, ncw := messageCount s, cwidx := messageCount s,
            draws := d, status := 0x0002#16, work := none } ∧
        IsPerm p (8 * s.n * messageCount s) ∧ (drawn = false → p = List.range (8 * s.n * messageCount s)) ∧
        b.length = 8 * s.n * messageCount s ∧
        ∀ j i t, j < messageCount s → i < s.n → t < 8 →
          b.getD (p.getD (8 * (s.n * j + i) + t) 0) false = ((codewordBytes s j).getD i 0).getLsbD (7 - t))

/-- R191: the admission of DEC, in its order; the last check cannot fail where BIN is within its capacity. -/
def Obligations.DecAdmissionFaultsInOrder : Prop :=
  ∀ (s : State) (permuted : Bool),
    (s.n = 0 ∨ s.k = 0 →
      ∃ t, exec (.dec permuted) s = .next t ∧ faultedWith 2 [.bout, .cwstat, .ncw, .cwidx] s t) ∧
    (1 ≤ s.n → s.n < s.k →
      ∃ t, exec (.dec permuted) s = .next t ∧ faultedWith 4 [.bout, .cwstat, .ncw, .cwidx] s t) ∧
    (1 ≤ s.k → s.k ≤ s.n → codecAccepts s.platform.codec s.n s.k = false →
      ∃ t, exec (.dec permuted) s = .next t ∧ faultedWith 5 [.bout, .cwstat, .ncw, .cwidx] s t) ∧
    (1 ≤ s.k → s.k ≤ s.n → codecAccepts s.platform.codec s.n s.k = true →
      (permuted = true → s.perm.length ≠ s.bin.length →
        ∃ t, exec (.dec permuted) s = .next t ∧ faultedWith 6 [.bout, .cwstat, .ncw, .cwidx] s t) ∧
      (permuted = true → s.perm.length = s.bin.length → ¬ IsPerm s.perm s.bin.length →
        ∃ t, exec (.dec permuted) s = .next t ∧ faultedWith 7 [.bout, .cwstat, .ncw, .cwidx] s t) ∧
      ((permuted = true → IsPerm s.perm s.bin.length) → (s.bin.length % 8 ≠ 0 ∨ s.bin.length / 8 % s.n ≠ 0) →
        ∃ t, exec (.dec permuted) s = .next t ∧ faultedWith 8 [.bout, .cwstat, .ncw, .cwidx] s t) ∧
      ((permuted = true → IsPerm s.perm s.bin.length) → s.bin.length % 8 = 0 → s.bin.length / 8 % s.n = 0 →
        ¬ within (8 * s.k * codewordCount s) s.platform.capBits →
        ∃ t, exec (.dec permuted) s = .next t ∧ faultedWith 10 [.bout, .cwstat, .ncw, .cwidx] s t) ∧
      (within s.bin.length s.platform.capBits → within (8 * s.k * codewordCount s) s.platform.capBits))

/-- R204: the result of DEC. CWSTAT[j] is the codec's answer to Check, and bit t of byte i of message j, the codec's or
the rightmost k received bytes, stands at BOUT[8·(k·j+i)+t]. A message longer than k is the fault 11. -/
def Obligations.DecDeliversOrFallsBackPerCodeword : Prop :=
  decode 0x0B = .command (.dec false) ∧ decode 0x2B = .command (.dec true) ∧
  ∀ (s : State) (permuted : Bool), decAdmitted permuted s →
    ((∃ j, j < codewordCount s ∧ believedCorrectable permuted s j = true ∧
        s.k < (correctedBytes permuted s j).length) →
      ∃ t, exec (.dec permuted) s = .next t ∧ faultedWith 11 [.bout, .cwstat, .ncw, .cwidx] s t) ∧
    ((∀ j, j < codewordCount s → believedCorrectable permuted s j = true →
        (correctedBytes permuted s j).length ≤ s.k) →
      ∃ b c, exec (.dec permuted) s =
          .next { s with
            bout := b, cwstat := c, ncw := codewordCount s, cwidx := codewordCount s,
            status := 0x0002#16, work := none } ∧
        b.length = 8 * s.k * codewordCount s ∧ c.length = codewordCount s ∧
        ∀ j, j < codewordCount s →
          c.getD j false = believedCorrectable permuted s j ∧
          ∀ i t, i < s.k → t < 8 →
            b.getD (8 * (s.k * j + i) + t) false = ((deliveredBytes permuted s j).getD i 0).getLsbD (7 - t))

/-- R202: codewords are independent. Two runs of DEC on two states with the same n, k and codec, received codeword `j` the
same in both, give the same message `j` and the same CWSTAT[j], whatever the other codewords are. -/
def Obligations.CodewordsAreIndependent : Prop :=
  ∀ (s s' t t' : State) (permuted permuted' : Bool) (j j' : Nat),
    s.n = s'.n → s.k = s'.k → s.platform.codec = s'.platform.codec →
    j < codewordCount s → j' < codewordCount s' → receivedBytes permuted s j = receivedBytes permuted' s' j' →
    exec (.dec permuted) s = .next t → t.status = 0x0002#16 →
    exec (.dec permuted') s' = .next t' → t'.status = 0x0002#16 →
    t.cwstat.getD j false = t'.cwstat.getD j' false ∧
    ∀ i, i < 8 * s.k → t.bout.getD (8 * s.k * j + i) false = t'.bout.getD (8 * s.k * j' + i) false

/-- R207: with no received bits DEC is DONE with nothing delivered; PERM the identity is as no permutation. -/
def Obligations.DecCornerCases : Prop :=
  (∀ (s : State) (permuted : Bool), 1 ≤ s.k → s.k ≤ s.n → codecAccepts s.platform.codec s.n s.k = true →
    s.bin = [] → (permuted = true → s.perm = []) →
    exec (.dec permuted) s =
      .next { s with bout := [], cwstat := [], ncw := 0, cwidx := 0, status := 0x0002#16, work := none }) ∧
  (∀ s : State, s.perm = List.range s.bin.length → exec (.dec true) s = exec (.dec false) s)

/-! The laws the source states of its functions. -/

/-- R122: the two conversions undo one another at every width, and their lengths. -/
def Obligations.ConversionsRoundTrip : Prop :=
  (∀ (v : List Nat) (w : Nat), 1 ≤ w → (∀ x ∈ v, x ≤ 2 ^ w - 1) →
    bitsToVals (valsToBits v w) w = v ∧ (valsToBits v w).length = w * v.length) ∧
  (∀ (b : List Bit) (w : Nat), 1 ≤ w → b.length % w = 0 →
    valsToBits (bitsToVals b w) w = b ∧ (bitsToVals b w).length = b.length / w)

/-- R141: the laws of padding: a multiple of m, idempotent, the original the suffix, nothing for nothing, the number the
bits stand for unchanged. -/
def Obligations.PaddingLaws : Prop :=
  ∀ (b : List Bit) (m : Nat), 1 ≤ m →
    (padToMultiple b m).length % m = 0 ∧ (padToMultiple b m).length = m * ((b.length + m - 1) / m) ∧
    padToMultiple (padToMultiple b m) m = padToMultiple b m ∧
    (padToMultiple b m).drop ((m - b.length % m) % m) = b ∧
    padToMultiple [] m = [] ∧ rowValue (padToMultiple b m) = rowValue b

/-- R144: the laws of framing. -/
def Obligations.FramingLaws : Prop :=
  (∀ (v : List Nat) (g : Nat), 1 ≤ g → v.length % g = 0 → unframed (framed v g) = v) ∧
  (∀ (l : List (List Nat)) (g : Nat), 1 ≤ g → (∀ r ∈ l, r.length = g) → framed (unframed l) g = l) ∧
  (∀ l : List (List Nat), (unframed l).length = (l.map List.length).sum)

/-- R155: the inverse of a permutation is one, and undoes it on both sides; the empty sequence is a permutation. -/
def Obligations.InverseOfAPermutation : Prop :=
  (∀ (p : List Nat) (len : Nat), IsPerm p len →
    IsPerm (invPerm p) len ∧
    ∀ i, i < len → (invPerm p).getD (p.getD i 0) 0 = i ∧ p.getD ((invPerm p).getD i 0) 0 = i) ∧
  IsPerm [] 0

/-- R160: interleaving and de-interleaving undo one another, the identity moves nothing, de-interleaving is interleaving
by the inverse, and any bijection of the right length is accepted without a fault. -/
def Obligations.InterleavingLaws : Prop :=
  ∀ (b : List Bit) (p : List Nat), IsPerm p b.length →
    deinterleave (interleave b p) p = b ∧ interleave (deinterleave b p) p = b ∧
    interleave b (idPerm b.length) = b ∧ deinterleave b (idPerm b.length) = b ∧
    deinterleave b p = interleave b (invPerm p) ∧
    ∀ s : State, ∃ t, exec .dilv { s with bin := b, perm := p } = .next t ∧ t.status = 0x0002#16

/-- 95 P1, and P2 where the codec decodes what it encodes (a hypothesis here, 93 U18): ENC with or without interleaving,
then DEC.P on what ENC left in BOUT and PERM, gives the padded input back, every codeword corrected; without interleaving
so does DEC. -/
def Obligations.EncodeThenDecodeIsLossless : Prop :=
  ∀ (s : State) (drawn : Bool), encAdmitted s →
    (∀ m : List Byte, m.length = s.k →
      (codecEncode s.platform.codec s.n s.k m).length = s.n ∧
      codecCheck s.platform.codec s.n s.k (codecEncode s.platform.codec s.n s.k m) = true ∧
      codecDecode s.platform.codec s.n s.k (codecEncode s.platform.codec s.n s.k m) = m) →
    ∃ t u, exec (.enc drawn) s = .next t ∧ t.status = 0x0002#16 ∧
      exec (.dec true) { t with bin := t.bout } = .next u ∧ u.status = 0x0002#16 ∧
      u.bout = padToMultiple s.bin (8 * s.k) ∧ u.cwstat = List.replicate u.ncw true ∧ u.ncw = messageCount s ∧
      (drawn = false →
        ∃ v, exec (.dec false) { t with bin := t.bout } = .next v ∧ v.status = 0x0002#16 ∧
          v.bout = padToMultiple s.bin (8 * s.k) ∧ v.cwstat = List.replicate v.ncw true)

/-! Rules about every command. -/

/-- R31: what a command answers depends on its listed operands alone (and the codec, the parameters and the draw): two
states that agree on those end with the same STATUS and the same listed outputs; and whatever is not listed is kept. -/
def Obligations.ResultDependsOnListedOperandsOnly : Prop :=
  ∀ (i : Instr) (s s' : State), sameOperands i s s' →
    ∃ t t', exec i s = .next t ∧ exec i s' = .next t' ∧ t.status = t'.status ∧
      (∀ o ∈ listedOutputs i, sameOutput o t t') ∧
      keepsInputs s t ∧ keepsOutputsExcept (listedOutputs i) s t

/-- R72: no command modifies an input, and only MKPERM and ENC modify PERM, fault or no fault; seen through the host's
view of registers and of single elements too. -/
def Obligations.InputsArePreserved : Prop :=
  ∀ (i : Instr) (s t : State), exec i s = .next t →
    t.bin = s.bin ∧ t.vin = s.vin ∧ t.n = s.n ∧ t.k = s.k ∧ t.w = s.w ∧
    (∀ reg ∈ [0, 2, 3, 4, 5, 6], registerValue reg t = registerValue reg s) ∧
    (∀ b ∈ [Buffer.bin, Buffer.vin], ∀ index, bufferElement b index t = bufferElement b index s) ∧
    ((∀ drawn, i ≠ .mkperm drawn ∧ i ≠ .enc drawn) →
      t.perm = s.perm ∧ ∀ index, bufferElement .perm index t = bufferElement .perm index s)

/-- The frame of every command, fault or no fault: each buffer and register that R92 does not list as written reads as
before, at every index; STATUS aside. -/
def Obligations.UnlistedStateIsUnchanged : Prop :=
  ∀ (i : Instr) (s t : State), exec i s = .next t →
    t.cmd = s.cmd ∧ t.n = s.n ∧ t.k = s.k ∧ t.w = s.w ∧ t.platform = s.platform ∧ t.schedule = s.schedule ∧
    t.hostData = s.hostData ∧
    (∀ index, bufferElement .bin index t = bufferElement .bin index s) ∧
    (∀ index, bufferElement .vin index t = bufferElement .vin index s) ∧
    (.bout ∉ listedOutputs i → ∀ index, bufferElement .bout index t = bufferElement .bout index s) ∧
    (.vout ∉ listedOutputs i → ∀ index, bufferElement .vout index t = bufferElement .vout index s) ∧
    (.perm ∉ listedOutputs i → ∀ index, bufferElement .perm index t = bufferElement .perm index s) ∧
    (.cwstat ∉ listedOutputs i → ∀ index, bufferElement .cwstat index t = bufferElement .cwstat index s) ∧
    (.ncw ∉ listedOutputs i → t.ncw = s.ncw) ∧ (.cwidx ∉ listedOutputs i → t.cwidx = s.cwidx)

/-- R236: every command answers a state, with PHASE DONE, or PHASE FAULT and one of the codes R236 lists for it. -/
def Obligations.EveryCommandEndsDoneOrInAListedFault : Prop :=
  ∀ (i : Instr) (s : State), ∃ t, exec i s = .next t ∧
    (t.status = 0x0002#16 ∨ ∃ code ∈ listedFaults i, t.status = BitVec.ofNat 16 (3 + 16 * code))

/-- R237: of the causes that hold for a command, the one with the lowest code is the fault reported; where none holds the
command is DONE. -/
def Obligations.TheLowestCodeIsReported : Prop :=
  ∀ (i : Instr) (s : State), ∃ t, exec i s = .next t ∧
    ((t.status = 0x0002#16 ∧ ∀ c, ¬ causeHolds i s c) ∨
      ∃ c, t.status = BitVec.ofNat 16 (3 + 16 * c) ∧ causeHolds i s c ∧ ∀ b, b < c → ¬ causeHolds i s b)

/-- R238: fault entry. A command that ends with PHASE FAULT has set FCODE, cleared CWSTATE and dropped the working
storage; CMD, N, K, W, BIN, VIN and every output it does not list are as before. -/
def Obligations.FaultEntryKeepsInputsAndUnlistedOutputs : Prop :=
  ∀ (i : Instr) (s t : State), exec i s = .next t → phaseOf t.status = .fault →
    ∃ code, 1 ≤ code ∧ code ≤ 11 ∧ fcodeOf t.status = code ∧ cwStateOf t.status = some .received ∧
      faultedWith code (listedOutputs i) s t

/-- R239: a command starts in FAULT, or from any STATUS and whatever working storage, exactly as from IDLE. -/
def Obligations.AFaultLeavesNoTraceInTheNextCommand : Prop :=
  ∀ (i : Instr) (s : State) (status : BitVec 16) (work : Option Work),
    exec i { s with status := status, work := work } = exec i s

/-! The per-codeword machine. -/

/-- R195, R196: from RECEIVED to CHECK, and from CHECK to DECODE or FALLBACK by the codec's answer alone; nothing else is
written. -/
def Obligations.CheckChoosesDecodeOrFallback : Prop :=
  ∀ (s : State) (received out : List (List Nat)), s.schedule = [] → s.work = some (.decode received out) →
    (s.status = 0x0001#16 → s.cwidx < s.ncw → step s = .next { s with status := 0x0101#16 }) ∧
    (s.status = 0x0101#16 →
      step s = .next { s with
        status :=
          if codecCheck s.platform.codec s.n s.k ((received.getD s.cwidx []).map (BitVec.ofNat 8)) then 0x0201#16
          else 0x0301#16 })

/-- R197: in DECODE the codec's message, zero bytes on its left up to k bytes, is put in place and CWSTAT[CWIDX] set; a
longer answer is the fault 11. -/
def Obligations.DecodeStatePadsTheCodecsMessage : Prop :=
  ∀ (s : State) (received out : List (List Nat)) (m : List Byte), s.schedule = [] →
    s.work = some (.decode received out) → s.status = 0x0201#16 →
    m = codecDecode s.platform.codec s.n s.k ((received.getD s.cwidx []).map (BitVec.ofNat 8)) →
    (m.length ≤ s.k →
      step s = .next { s with
        status := 0x0401#16
        cwstat := s.cwstat.set s.cwidx true
        work := some (.decode received (out ++ [List.replicate (s.k - m.length) 0 ++ m.map BitVec.toNat])) }) ∧
    (s.k < m.length → ∃ t, step s = .next t ∧ faultedWith 11 [.bout, .cwstat, .ncw, .cwidx] s t)

/-- R198: in FALLBACK the rightmost k bytes of the received codeword are put in place, unchanged, and CWSTAT[CWIDX] is
cleared; the codec is not asked. -/
def Obligations.FallbackStateKeepsTheRightmostBytes : Prop :=
  ∀ (s : State) (received out : List (List Nat)), s.schedule = [] → s.work = some (.decode received out) →
    s.status = 0x0301#16 → (received.getD s.cwidx []).length = s.n → s.k ≤ s.n →
    step s = .next { s with
      status := 0x0401#16
      cwstat := s.cwstat.set s.cwidx false
      work := some (.decode received (out ++ [(received.getD s.cwidx []).drop (s.n - s.k)])) }

/-- R199, R200: from DONE CWIDX advances by one; another codeword starts in RECEIVED, or the messages are concatenated,
converted to bits most significant first, and the command is DONE. -/
def Obligations.DoneStateAdvancesOrFinishes : Prop :=
  ∀ (s : State) (received out : List (List Nat)), s.schedule = [] → s.work = some (.decode received out) →
    s.status = 0x0401#16 →
    (s.cwidx + 1 < s.ncw → step s = .next { s with cwidx := s.cwidx + 1, status := 0x0001#16 }) ∧
    (s.ncw ≤ s.cwidx + 1 →
      ∃ b, step s = .next { s with cwidx := s.cwidx + 1, bout := b, status := 0x0002#16, work := none } ∧
        b.length = 8 * out.flatten.length ∧
        ∀ j t, j < out.flatten.length → t < 8 →
          b.getD (8 * j + t) false = (out.flatten.getD j 0).testBit (7 - t))

/-- R177, R28: while ENC runs step by step, each step encodes the next message and CWIDX counts it; a codeword whose
length is not n is the fault 11. -/
def Obligations.EncStepEncodesOneMessage : Prop :=
  ∀ (s : State) (drawn : Bool) (m : List Nat) (rest coded : List (List Nat)) (c : List Byte), s.schedule = [] →
    isBusy s = true → s.work = some (.encode drawn (m :: rest) coded) →
    c = codecEncode s.platform.codec s.n s.k (m.map (BitVec.ofNat 8)) →
    (c.length = s.n →
      step s = .next { s with
        cwidx := s.cwidx + 1
        work := some (.encode drawn rest (coded ++ [c.map BitVec.toNat])) }) ∧
    (c.length ≠ s.n → ∃ t, step s = .next t ∧ faultedWith 11 [.bout, .perm, .ncw, .cwidx] s t)

/-- R205 says the machines of R194 to R199 and the one function of R204 agree. Here: started and left to run, every byte
written to CMD, legal or not, ends in exactly the state that issuing it gives. That a command can be started or issued, and
the count 4·len(BIN) + 3 of the model's own steps, are the model's choice (log 7), not R205's. -/
def Obligations.SmallStepsAgreeWithTheOneFunction : Prop :=
  ∀ (s : State) (c : Byte), isBusy s = false →
    runSteps (4 * s.bin.length + 3) { s with schedule := [.start c] } =
      step { s with schedule := [.issue c] }

/-- R28: while a command runs, one step of the framer leaves CWIDX or advances it by exactly one. -/
def Obligations.CwidxAdvancesByOne : Prop :=
  ∀ s t : State, s.schedule = [] → isBusy s = true → step s = .next t → isBusy t = true →
    t.cwidx = s.cwidx ∨ t.cwidx = s.cwidx + 1

/-! The invariant and the host's accesses. -/

/-- The state after reset meets the invariant. -/
def Obligations.ResetMeetsTheInvariant : Prop := Inv State.reset

/-- Every step keeps the invariant: legal parameters, buffers within their capacities and widths, a legal STATUS word,
registers within IDXW, and working storage exactly while BUSY, at the place STATUS and CWIDX say. -/
def Obligations.EveryStepKeepsTheInvariant : Prop := ∀ s t : State, Inv s → step s = .next t → Inv t

/-- From a state that meets the invariant no step ends in a stop of the model: it answers a state or refuses a host
access. -/
def Obligations.NoStopUnderTheInvariant : Prop := ∀ (s : State) (f : Fault), Inv s → step s ≠ .fault f

/-- R268: while BUSY the host reads STATUS, NCW and CWIDX, and every other access is refused. -/
def Obligations.HostAccessWhileBusyIsRefused : Prop :=
  ∀ (s : State) (rest : List Event), isBusy s = true →
    (∀ e : Event, e ≠ .framer → e ≠ .wait → e ≠ .reset → e ∉ [.read 1, .read 10, .read 11] →
      step { s with schedule := e :: rest } = .refused .accessWhileBusy) ∧
    (∀ reg v, (reg, v) ∈ [(1, s.status.toNat), (10, s.ncw), (11, s.cwidx)] →
      step { s with schedule := .read reg :: rest } = .next { s with schedule := rest, hostData := .number v })

/-- R30, R33: while not BUSY the host writes N, K and W, loads the input buffers, reads every register and buffer, and
issues a command by writing CMD; a load that does not fit and a register number of 12 or above are refused. -/
def Obligations.HostAccessWhileNotBusy : Prop :=
  ∀ (s : State) (rest : List Event), isBusy s = false →
    (∀ v, fitsWidth v s.platform.idxw = true →
      step { s with schedule := .write 2 v :: rest } = .next { s with schedule := rest, n := v } ∧
      step { s with schedule := .write 3 v :: rest } = .next { s with schedule := rest, k := v } ∧
      step { s with schedule := .write 4 v :: rest } = .next { s with schedule := rest, w := v }) ∧
    (∀ b : List Bit, step { s with schedule := .loadBin b :: rest } =
      if fits b.length s.platform.capBits then .next { s with schedule := rest, bin := b }
      else .refused .loadDoesNotFit) ∧
    (∀ v : List Nat, step { s with schedule := .loadVin v :: rest } =
      if fits v.length s.platform.capVals ∧ ∀ x ∈ v, fitsWidth x s.platform.valw then
        .next { s with schedule := rest, vin := v }
      else .refused .loadDoesNotFit) ∧
    (∀ p : List Nat, step { s with schedule := .loadPerm p :: rest } =
      if fits p.length s.platform.capPerm ∧ ∀ x ∈ p, fitsWidth x s.platform.idxw then
        .next { s with schedule := rest, perm := p }
      else .refused .loadDoesNotFit) ∧
    (∀ reg v, registerValue reg s = some v →
      step { s with schedule := .read reg :: rest } = .next { s with schedule := rest, hostData := .number v }) ∧
    (∀ b : Buffer,
      step { s with schedule := .readBuffer b :: rest } =
        .next { s with schedule := rest, hostData := bufferData b s }) ∧
    (∀ c : Byte, step { s with schedule := .write 0 c.toNat :: rest } = step { s with schedule := .issue c :: rest }) ∧
    (∀ reg v, 12 ≤ reg →
      step { s with schedule := .read reg :: rest } = .refused .noSuchRegister ∧
      step { s with schedule := .write reg v :: rest } = .refused .noSuchRegister)

/-- R25, 93 U16: a host write of STATUS, BOUT_LEN, VOUT_LEN, NCW or CWIDX while not BUSY is ignored. -/
def Obligations.WritesOfReadOnlyRegistersAreIgnored : Prop :=
  ∀ (s : State) (rest : List Event) (v : Nat), isBusy s = false → ∀ reg ∈ [1, 8, 9, 10, 11],
    step { s with schedule := .write reg v :: rest } = .next { s with schedule := rest }

/-- R244: with nothing to do the framer waits and loses nothing. -/
def Obligations.WaitingLosesNothing : Prop :=
  ∀ s : State, s.schedule = [] → isBusy s = false → step s = .next s

/-- The parameters of R7 are fixed for the machine: no step changes one. -/
def Obligations.NoStepChangesTheParameters : Prop := ∀ s t : State, step s = .next t → t.platform = s.platform
end

