-- ==== Sys2Proof/Laws/Conversion.lean ====
section
/-!
SUPPORT. Lengths and elements of the conversions, the padder and the framer (R120, R121, R140, R143).
-/

namespace Sys2Proof.Machine

/-! Slices and groups. -/

@[simp] theorem length_slice {α : Type} (l : List α) (i j : Nat) :
    (slice l i j).length = min (j - i) (l.length - i) := by simp [slice]

theorem getD_slice {α : Type} (l : List α) (i j t : Nat) (d : α) (h : t < j - i) :
    (slice l i j).getD t d = l.getD (i + t) d := by
  simp [slice, List.getD_eq_getElem?_getD, h]

@[simp] theorem length_framed {α : Type} (v : List α) (g : Nat) : (framed v g).length = v.length / g := by
  simp [framed]

theorem mul_add_le_of_lt_div {c g len : Nat} (h : c < len / g) : g * c + g ≤ len := by
  have h1 : (c + 1) * g ≤ len := (Nat.le_div_iff_mul_le (Nat.pos_of_ne_zero (by rintro rfl; simp at h))).1 h
  nlinarith

/-- Every group has size g. -/
theorem length_of_mem_framed {α : Type} {v : List α} {g : Nat} {r : List α} (h : r ∈ framed v g) : r.length = g := by
  simp only [framed, List.mem_map, List.mem_range] at h
  obtain ⟨c, hc, rfl⟩ := h
  have := mul_add_le_of_lt_div hc
  simp; omega

/-- Group c is v[g·c .. g·c+g). -/
theorem getD_framed {α : Type} (v : List α) {g c : Nat} (h : c < v.length / g) (d : List α) :
    (framed v g).getD c d = slice v (g * c) (g * c + g) := by
  simp [framed, List.getD_eq_getElem?_getD, h]

/-- Element i of group c is v[g·c + i]. -/
theorem getD_getD_framed {α : Type} (v : List α) {g c i : Nat} (h : c < v.length / g) (hi : i < g) (d : α) :
    ((framed v g).getD c []).getD i d = v.getD (g * c + i) d := by
  rw [getD_framed v h, getD_slice _ _ _ _ _ (by omega)]

theorem framed_take {α : Type} (v : List α) (g : Nat) (m : Nat) (h : m ≤ v.length / g) :
    ((List.range m).map (fun c => slice v (g * c) (g * c + g))).flatten = v.take (g * m) := by
  induction m with
  | zero => simp
  | succ m ih =>
    have := mul_add_le_of_lt_div (show m < v.length / g from h)
    rw [List.range_succ, List.map_append, List.flatten_append, ih (by omega), Nat.mul_succ, List.take_add]
    simp [slice]

/-- Concatenating the groups gives the sequence back (R144). -/
theorem flatten_framed {α : Type} (v : List α) {g : Nat} (h : v.length % g = 0) : (framed v g).flatten = v := by
  rw [framed, framed_take v g _ le_rfl, Nat.mul_div_cancel' (Nat.dvd_of_mod_eq_zero h), List.take_length]

theorem length_flatten_of_forall {α : Type} {l : List (List α)} {g : Nat} (h : ∀ r ∈ l, r.length = g) :
    l.flatten.length = g * l.length := by
  induction l with
  | nil => simp
  | cons r l ih =>
    simp only [List.flatten_cons, List.length_append, List.length_cons, ih (fun x hx => h x (List.mem_cons_of_mem _ hx)),
      h r List.mem_cons_self]
    ring

theorem getD_flatten_of_forall {α : Type} {l : List (List α)} {g : Nat} (h : ∀ r ∈ l, r.length = g) {c i : Nat}
    (hi : i < g) (d : α) : l.flatten.getD (g * c + i) d = (l.getD c []).getD i d := by
  induction l generalizing c with
  | nil => simp
  | cons r l ih =>
    have hr := h r List.mem_cons_self
    cases c with
    | zero => simp [List.getD_eq_getElem?_getD, List.getElem?_append, hr, hi]
    | succ c =>
      have := ih (fun x hx => h x (List.mem_cons_of_mem _ hx)) (c := c)
      rw [List.getD_cons_succ, ← this]
      simp only [List.flatten_cons, List.getD_eq_getElem?_getD]
      rw [List.getElem?_append_right (by rw [hr]; nlinarith), hr]
      congr 2
      rw [Nat.mul_succ]; omega

/-- Groups of one size are what framing their concatenation gives (R144). -/
theorem framed_flatten {α : Type} {l : List (List α)} {g : Nat} (hg : 1 ≤ g) (h : ∀ r ∈ l, r.length = g) :
    framed l.flatten g = l := by
  have hlen : (framed l.flatten g).length = l.length := by
    rw [length_framed, length_flatten_of_forall h, Nat.mul_div_cancel_left _ hg]
  refine List.ext_getElem hlen fun c h1 h2 => ?_
  have hs : (framed l.flatten g)[c].length = g := length_of_mem_framed (List.getElem_mem h1)
  have hr : l[c].length = g := h _ (List.getElem_mem h2)
  refine List.ext_getElem (by rw [hs, hr]) fun i h3 h4 => ?_
  have hi : i < g := by omega
  have h5 : c < l.flatten.length / g := by rwa [length_framed] at h1
  have d : α := l[c][i]
  have e := getD_getD_framed l.flatten h5 hi d
  rw [getD_flatten_of_forall h hi d] at e
  simpa only [List.getD_eq_getElem?_getD, List.getElem?_eq_getElem h1, List.getElem?_eq_getElem h2, Option.getD_some,
    List.getElem?_eq_getElem h3, List.getElem?_eq_getElem h4] using e

/-! Rows of bits. -/

theorem rowValue_lt (r : List Bit) : rowValue r < 2 ^ r.length := by
  induction r with
  | nil => simp [rowValue]
  | cons b r ih =>
    simp only [rowValue, List.length_cons, pow_succ]
    cases b <;> simp <;> omega

@[simp] theorem length_rowBits (d x : Nat) : (rowBits d x).length = d := by simp [rowBits]

theorem getD_rowBits {d x t : Nat} (h : t < d) : (rowBits d x).getD t false = decide (binaryDigit (d - 1 - t) x = 1) := by
  simp [rowBits, List.getD_eq_getElem?_getD, h]

theorem rowBits_succ (d x : Nat) : rowBits (d + 1) x = decide (binaryDigit d x = 1) :: rowBits d x := by
  simp only [rowBits, List.range_succ_eq_map, List.map_cons, List.map_map]
  congr 1
  refine List.map_congr_left fun t _ => ?_
  simp only [Function.comp, Nat.succ_eq_add_one]
  congr 3
  omega

/-- A row of d bits holds x modulo 2^d. -/
theorem rowValue_rowBits_mod (d x : Nat) : rowValue (rowBits d x) = x % 2 ^ d := by
  induction d with
  | zero => simp [rowBits, rowValue, Nat.mod_one]
  | succ d ih =>
    rw [rowBits_succ, rowValue, ih, length_rowBits, pow_succ, Nat.mod_mul]
    have : (decide (binaryDigit d x = 1)).toNat = x / 2 ^ d % 2 := by
      unfold binaryDigit
      rcases Nat.mod_two_eq_zero_or_one (x / 2 ^ d) with h | h <;> simp [h]
    rw [this]; ring

theorem rowBits_rowValue (r : List Bit) : rowBits r.length (rowValue r) = r := by
  induction r with
  | nil => simp [rowBits]
  | cons b r ih =>
    have hlt := rowValue_lt r
    have h1 : (b.toNat * 2 ^ r.length + rowValue r) / 2 ^ r.length = b.toNat := by
      rw [Nat.add_comm, Nat.add_mul_div_right _ _ (by positivity), Nat.div_eq_of_lt hlt, Nat.zero_add]
    have h2 : rowBits r.length (b.toNat * 2 ^ r.length + rowValue r) = rowBits r.length (rowValue r) := by
      have e1 := rowValue_rowBits_mod r.length (b.toNat * 2 ^ r.length + rowValue r)
      rw [Nat.add_comm, Nat.add_mul_mod_self_right, Nat.mod_eq_of_lt hlt] at e1
      refine List.map_congr_left fun t ht => ?_
      rw [List.mem_range] at ht
      have hs : r.length = r.length - 1 - t + (t + 1) := by omega
      have : binaryDigit (r.length - 1 - t) (b.toNat * 2 ^ r.length + rowValue r) =
          binaryDigit (r.length - 1 - t) (rowValue r) := by
        unfold binaryDigit
        generalize hu : r.length - 1 - t = u at hs
        rw [hs, pow_add, show b.toNat * (2 ^ u * 2 ^ (t + 1)) + rowValue r =
          rowValue r + 2 ^ u * (b.toNat * 2 ^ (t + 1)) by ring, Nat.add_mul_div_left _ _ (by positivity), pow_succ,
          ← mul_assoc, Nat.add_mul_mod_self_right]
      rw [this]
    rw [List.length_cons, rowBits_succ, rowValue, h2, ih]
    congr 1
    rw [binaryDigit, h1]
    cases b <;> rfl

theorem rowValue_append (a b : List Bit) : rowValue (a ++ b) = rowValue a * 2 ^ b.length + rowValue b := by
  induction a with
  | nil => simp [rowValue]
  | cons x a ih => simp only [List.cons_append, rowValue, ih, List.length_append, pow_add]; ring

theorem rowValue_replicate_false (m : Nat) : rowValue (List.replicate m false) = 0 := by
  induction m with
  | zero => rfl
  | succ m ih => simp [List.replicate_succ, rowValue, ih]

/-- A row's value as the sum of R9. -/
theorem rowValue_eq_sum (r : List Bit) :
    rowValue r = ∑ t ∈ Finset.range r.length, (r.getD t false).toNat * 2 ^ (r.length - 1 - t) := by
  induction r with
  | nil => simp [rowValue]
  | cons b r ih =>
    rw [List.length_cons, Finset.sum_range_succ', rowValue, ih, add_comm]
    simp only [List.getD_cons_succ, List.getD_cons_zero, Nat.add_sub_cancel, Nat.sub_zero]
    congr 1
    refine Finset.sum_congr rfl fun t _ => ?_
    congr 2
    omega

/-! The conversions. -/

@[simp] theorem length_bitsToVals (b : List Bit) (w : Nat) : (bitsToVals b w).length = b.length / w := by
  simp [bitsToVals]

theorem lt_of_mem_bitsToVals {b : List Bit} {w x : Nat} (h : x ∈ bitsToVals b w) : x < 2 ^ w := by
  simp only [bitsToVals, List.mem_map] at h
  obtain ⟨r, hr, rfl⟩ := h
  exact length_of_mem_framed hr ▸ rowValue_lt r

/-- Value j is the row b[w·j .. w·j+w) (R120). -/
theorem getD_bitsToVals (b : List Bit) {w j : Nat} (h : j < b.length / w) :
    (bitsToVals b w).getD j 0 = rowValue (slice b (w * j) (w * j + w)) := by
  simp [bitsToVals, framed, List.getD_eq_getElem?_getD, h]

@[simp] theorem length_valsToBits (v : List Nat) (d : Nat) : (valsToBits v d).length = d * v.length := by
  induction v with
  | nil => simp [valsToBits]
  | cons x v ih =>
    simp only [valsToBits, List.flatMap_cons, List.length_append, length_rowBits, List.length_cons] at ih ⊢
    rw [ih]; ring

/-- Bit d·j+t is digit d−1−t of value j (R121). -/
theorem getD_valsToBits (v : List Nat) {d j t : Nat} (hj : j < v.length) (ht : t < d) :
    (valsToBits v d).getD (d * j + t) false = decide (binaryDigit (d - 1 - t) (v.getD j 0) = 1) := by
  have h : ∀ r ∈ v.map (rowBits d), r.length = d := by simp
  rw [valsToBits, List.flatMap_def, getD_flatten_of_forall h ht false]
  rw [← getD_rowBits ht]
  simp [List.getD_eq_getElem?_getD, hj]

/-- Converting to bits and back (R122). -/
theorem bitsToVals_valsToBits {v : List Nat} {w : Nat} (hw : 1 ≤ w) (h : ∀ x ∈ v, x < 2 ^ w) :
    bitsToVals (valsToBits v w) w = v := by
  have h2 : ∀ r ∈ v.map (rowBits w), r.length = w := by simp
  rw [bitsToVals, valsToBits, List.flatMap_def, framed_flatten hw h2, List.map_map]
  conv_rhs => rw [← List.map_id v]
  exact List.map_congr_left fun x hx => by
    simpa [Nat.mod_eq_of_lt (h x hx)] using rowValue_rowBits_mod w x

/-- Converting to values and back (R122). -/
theorem valsToBits_bitsToVals {b : List Bit} {w : Nat} (h : b.length % w = 0) : valsToBits (bitsToVals b w) w = b := by
  rw [bitsToVals, valsToBits, List.flatMap_def, List.map_map]
  conv_rhs => rw [← flatten_framed b h, ← List.map_id (framed b w)]
  congr 1
  refine List.map_congr_left fun r hr => ?_
  have := rowBits_rowValue r
  rwa [length_of_mem_framed hr] at this

/-! The padder. -/

theorem length_padToMultiple (b : List Bit) (m : Nat) :
    (padToMultiple b m).length = (if b.length % m = 0 then 0 else m - b.length % m) + b.length := by
  unfold padToMultiple
  split <;> simp_all

/-- The original bits are the suffix after the pad (R140). -/
theorem padToMultiple_eq (b : List Bit) (m : Nat) :
    padToMultiple b m = List.replicate (if b.length % m = 0 then 0 else m - b.length % m) false ++ b := by
  unfold padToMultiple
  split <;> simp_all

theorem length_padToMultiple_mod (b : List Bit) {m : Nat} (hm : 1 ≤ m) : (padToMultiple b m).length % m = 0 := by
  rw [length_padToMultiple]
  split
  · simpa
  · have := Nat.mod_lt b.length hm
    have h2 : m - b.length % m + b.length = m * (b.length / m + 1) := by
      have := Nat.mod_add_div b.length m
      rw [Nat.mul_add]; omega
    rw [h2, Nat.mul_mod_right]

theorem length_padToMultiple_div (b : List Bit) {m : Nat} (hm : 1 ≤ m) :
    (padToMultiple b m).length / m = (b.length + m - 1) / m := by
  have hd := Nat.mod_add_div b.length m
  have hl := Nat.mod_lt b.length hm
  rw [length_padToMultiple]
  split
  · next h =>
    rw [h] at hd
    rw [Nat.zero_add, show b.length + m - 1 = (m - 1) + m * (b.length / m) by omega,
      Nat.add_mul_div_left _ _ hm, Nat.div_eq_of_lt (show m - 1 < m by omega), Nat.zero_add]
  · have e : m * (b.length / m + 1) = m * (b.length / m) + m := by ring
    have h1 : m - b.length % m + b.length = m * (b.length / m + 1) := by omega
    have h2 : b.length + m - 1 = (b.length % m - 1) + m * (b.length / m + 1) := by omega
    have h3 : (b.length % m - 1 + m * (b.length / m + 1)) / m = b.length / m + 1 := by
      rw [Nat.add_mul_div_left _ _ hm, Nat.div_eq_of_lt (by omega), Nat.zero_add]
    rw [h1, h2, h3, Nat.mul_div_cancel_left _ hm]

/-! Characters. -/

@[simp] theorem chr_toNat_of_le {x : Nat} (h : x ≤ 255) : (chr x).toNat = x := by
  simp [chr]; omega

@[simp] theorem chr_ord (c : Byte) : chr (ord c) = c := by simp [chr, ord]

theorem ord_lt (c : Byte) : ord c < 256 := c.isLt

end Sys2Proof.Machine
end

