-- ==== Sys2Proof/Laws/Flags.lean ====
section
/-!
SUPPORT. Reading a STATUS word's fields gives what was written (10_state.md R24).
-/

namespace Sys2Proof.Machine

@[simp] theorem phaseOf_statusWord (p : Phase) (f : Option FaultCode) (c : CwState) :
    phaseOf (statusWord p f c) = p := by
  cases p <;> cases c <;> (rcases f with _ | f <;> [decide; (cases f <;> decide)])

@[simp] theorem cwStateOf_statusWord (p : Phase) (f : Option FaultCode) (c : CwState) :
    cwStateOf (statusWord p f c) = some c := by
  cases p <;> cases c <;> (rcases f with _ | f <;> [decide; (cases f <;> decide)])

@[simp] theorem fcodeOf_statusWord (p : Phase) (f : Option FaultCode) (c : CwState) :
    fcodeOf (statusWord p f c) = fcodeNumber f := by
  cases p <;> cases c <;> (rcases f with _ | f <;> [decide; (cases f <;> decide)])

theorem statusWord_reserved (p : Phase) (f : Option FaultCode) (c : CwState) :
    (statusWord p f c).extractLsb' 2 2 = 0 ∧ (statusWord p f c).extractLsb' 11 5 = 0 := by
  cases p <;> cases c <;> (rcases f with _ | f <;> [decide; (cases f <;> decide)])

@[simp] theorem phaseOf_statusDone : phaseOf statusDone = .done := phaseOf_statusWord ..
@[simp] theorem phaseOf_statusBusy (c : CwState) : phaseOf (statusBusy c) = .busy := phaseOf_statusWord ..
@[simp] theorem phaseOf_statusFault (f : FaultCode) : phaseOf (statusFault f) = .fault := phaseOf_statusWord ..
@[simp] theorem cwStateOf_statusDone : cwStateOf statusDone = some .received := cwStateOf_statusWord ..
@[simp] theorem cwStateOf_statusBusy (c : CwState) : cwStateOf (statusBusy c) = some c := cwStateOf_statusWord ..
@[simp] theorem cwStateOf_statusFault (f : FaultCode) : cwStateOf (statusFault f) = some .received :=
  cwStateOf_statusWord ..
@[simp] theorem fcodeOf_statusDone : fcodeOf statusDone = 0 := fcodeOf_statusWord ..
@[simp] theorem fcodeOf_statusBusy (c : CwState) : fcodeOf (statusBusy c) = 0 := fcodeOf_statusWord ..
@[simp] theorem fcodeOf_statusFault (f : FaultCode) : fcodeOf (statusFault f) = faultNumber f := fcodeOf_statusWord ..

/-- The numbers of R24 and 95_test_vectors.md: DONE is 0x0002. -/
theorem statusDone_eq : statusDone = 0x0002#16 := by decide

/-- BUSY in codeword state `c` is 0x0001 + 0x0100 · c. -/
theorem statusBusy_eq (c : CwState) : statusBusy c = BitVec.ofNat 16 (1 + 256 * cwStateNumber c) := by
  cases c <;> decide

/-- FAULT with code `c` is 0x0003 + 16 · c. -/
theorem statusFault_eq (f : FaultCode) : statusFault f = BitVec.ofNat 16 (3 + 16 * faultNumber f) := by
  cases f <;> decide

theorem faultNumber_pos (f : FaultCode) : 1 ≤ faultNumber f := by cases f <;> decide

theorem faultNumber_le (f : FaultCode) : faultNumber f ≤ 11 := by cases f <;> decide

end Sys2Proof.Machine
end

