-- ==== Sys2Proof/Laws/Interleaver.lean ====
section
/-!
SUPPORT. Permutations and what applying one does (R155 to R159).
-/

namespace Sys2Proof.Machine

theorem isPerm_idPerm (len : Nat) : IsPerm (idPerm len) len := by
  simp [IsPerm, idPerm, List.nodup_range]

/-- A draw is a bijection, whatever the random source answers (R228). -/
theorem isPerm_drawnPerm (count len : Nat) : IsPerm (drawnPerm count len) len := by
  refine ⟨by simp [drawnPerm], ?_, ?_⟩
  · intro x hx
    simp only [drawnPerm, List.mem_ofFn] at hx
    obtain ⟨i, rfl⟩ := hx
    exact (Config.draw count len i).isLt
  · exact List.nodup_ofFn.2 fun a b h => (Config.draw count len).injective (Fin.val_injective h)

theorem isPerm_makePermutation (drawn : Bool) (len : Nat) (s : State) : IsPerm (makePermutation drawn len s) len := by
  cases drawn
  · exact isPerm_idPerm len
  · exact isPerm_drawnPerm s.draws len

/-- Every position is hit by a permutation. -/
theorem mem_of_isPerm {p : List Nat} {len j : Nat} (h : IsPerm p len) (hj : j < len) : j ∈ p := by
  obtain ⟨h1, h2, h3⟩ := h
  have hsub : p.toFinset ⊆ Finset.range len := fun x hx => by simpa using h2 x (by simpa using hx)
  have hcard : p.toFinset.card = len := by rw [List.toFinset_card_of_nodup h3, h1]
  have heq := Finset.eq_of_subset_of_card_le hsub (by simp [hcard])
  exact List.mem_toFinset.1 (heq.symm ▸ Finset.mem_range.2 hj)

theorem idxOf_lt_of_isPerm {p : List Nat} {len j : Nat} (h : IsPerm p len) (hj : j < len) : p.idxOf j < len :=
  h.1 ▸ List.idxOf_lt_length_of_mem (mem_of_isPerm h hj)

@[simp] theorem length_invPerm (p : List Nat) : (invPerm p).length = p.length := by simp [invPerm]

theorem getD_invPerm {p : List Nat} {j : Nat} (hj : j < p.length) : (invPerm p).getD j 0 = p.idxOf j := by
  simp [invPerm, List.getD_eq_getElem?_getD, hj]

theorem getD_lt_of_isPerm {p : List Nat} {len i : Nat} (h : IsPerm p len) (hi : i < len) : p.getD i 0 < len := by
  have hi' : i < p.length := h.1 ▸ hi
  have := h.2.1 (p[i]) (List.getElem_mem hi')
  simpa [List.getD_eq_getElem?_getD, hi'] using this

/-- q[p[i]] = i for q = Inv(p) (R155). -/
theorem idxOf_getD_of_isPerm {p : List Nat} {len i : Nat} (h : IsPerm p len) (hi : i < len) :
    p.idxOf (p.getD i 0) = i := by
  have hi' : i < p.length := h.1 ▸ hi
  simp only [List.getD_eq_getElem?_getD, List.getElem?_eq_getElem hi', Option.getD_some]
  exact h.2.2.idxOf_getElem i hi'

/-- p[q[j]] = j for q = Inv(p) (R155). -/
theorem getD_idxOf_of_isPerm {p : List Nat} {len j : Nat} (h : IsPerm p len) (hj : j < len) :
    p.getD (p.idxOf j) 0 = j := by
  have hj' : p.idxOf j < p.length := h.1.symm ▸ idxOf_lt_of_isPerm h hj
  simp [List.getD_eq_getElem?_getD, hj']

theorem isPerm_invPerm {p : List Nat} {len : Nat} (h : IsPerm p len) : IsPerm (invPerm p) len := by
  refine ⟨by simp [h.1], ?_, ?_⟩
  · intro x hx
    simp only [invPerm, List.mem_map, List.mem_range] at hx
    obtain ⟨j, hj, rfl⟩ := hx
    exact idxOf_lt_of_isPerm h (h.1 ▸ hj)
  · refine List.Nodup.map_on ?_ List.nodup_range
    intro a ha b hb hab
    rw [List.mem_range, h.1] at ha hb
    rw [← getD_idxOf_of_isPerm h ha, hab, getD_idxOf_of_isPerm h hb]

/-! Gathers. -/

@[simp] theorem length_gather (b : List Bit) (p : List Nat) : (gather b p).length = p.length := by simp [gather]

theorem getD_gather (b : List Bit) (p : List Nat) {i : Nat} (hi : i < p.length) :
    (gather b p).getD i false = b.getD (p.getD i 0) false := by
  simp [gather, List.getD_eq_getElem?_getD, hi]

@[simp] theorem length_interleave (b : List Bit) (p : List Nat) : (interleave b p).length = p.length := by
  simp [interleave]

@[simp] theorem length_deinterleave (b : List Bit) (p : List Nat) : (deinterleave b p).length = p.length := by
  simp [deinterleave]

/-- Two bit sequences of one length are equal where their bits are. -/
theorem bits_ext {a b : List Bit} (hl : a.length = b.length)
    (h : ∀ i, i < a.length → a.getD i false = b.getD i false) : a = b := by
  refine List.ext_getElem hl fun i h1 h2 => ?_
  simpa [List.getD_eq_getElem?_getD, h1, h2] using h i h1

/-- out[p[i]] = b[i]: the scatter (R158). -/
theorem getD_interleave {b : List Bit} {p : List Nat} {i : Nat} (h : IsPerm p b.length) (hi : i < b.length) :
    (interleave b p).getD (p.getD i 0) false = b.getD i false := by
  have hp := getD_lt_of_isPerm h hi
  rw [interleave, getD_gather _ _ (by simpa [h.1] using hp), getD_invPerm (by simpa [h.1] using hp),
    idxOf_getD_of_isPerm h hi]

/-- De-interleaving undoes interleaving (R160). -/
theorem deinterleave_interleave {b : List Bit} {p : List Nat} (h : IsPerm p b.length) :
    deinterleave (interleave b p) p = b := by
  refine bits_ext (by simp [h.1]) fun i hi => ?_
  have hi' : i < b.length := by simpa [h.1] using hi
  rw [deinterleave, getD_gather _ _ (h.1 ▸ hi'), getD_interleave h hi']

/-- Interleaving undoes de-interleaving (R160). -/
theorem interleave_deinterleave {b : List Bit} {p : List Nat} (h : IsPerm p b.length) :
    interleave (deinterleave b p) p = b := by
  have hp := h
  rw [show b.length = (deinterleave b p).length by simp [h.1]] at hp
  refine bits_ext (by simp [h.1]) fun j hj => ?_
  have hj' : j < b.length := by simpa [h.1] using hj
  have hq := idxOf_lt_of_isPerm h hj'
  have e := getD_interleave hp (i := p.idxOf j) (by simpa [h.1] using hq)
  rw [getD_idxOf_of_isPerm h hj'] at e
  rw [e, deinterleave, getD_gather _ _ (by simpa [h.1] using hq), getD_idxOf_of_isPerm h hj']

theorem gather_idPerm (b : List Bit) : gather b (idPerm b.length) = b := by
  refine bits_ext (by simp [idPerm]) fun i hi => ?_
  have hi' : i < b.length := by simpa [idPerm] using hi
  rw [getD_gather _ _ (by simpa [idPerm] using hi')]
  simp [idPerm, List.getD_eq_getElem?_getD, hi']

theorem invPerm_idPerm (len : Nat) : invPerm (idPerm len) = idPerm len := by
  refine List.ext_getElem (by simp) fun i h1 h2 => ?_
  have hi : i < len := by simpa [idPerm] using h2
  have := idxOf_getD_of_isPerm (isPerm_idPerm len) hi
  simp [idPerm, List.getD_eq_getElem?_getD, hi] at this
  simp [invPerm, idPerm, this]

/-- The identity moves nothing (R160). -/
theorem interleave_idPerm (b : List Bit) : interleave b (idPerm b.length) = b := by
  rw [interleave, invPerm_idPerm, gather_idPerm]

theorem deinterleave_idPerm (b : List Bit) : deinterleave b (idPerm b.length) = b := gather_idPerm b

end Sys2Proof.Machine
end

