-- ==== Sys2Proof/Laws/State.lean ====
section
/-!
SUPPORT. What each update of the state writes and leaves: one lemma per field per update, so that no proof unfolds a
record update.
-/

namespace Sys2Proof.Machine

/-! Completion writes STATUS and drops the working storage. -/
@[simp] theorem complete_cmd (s : State) : (complete s).cmd = s.cmd := rfl
@[simp] theorem complete_status (s : State) : (complete s).status = statusDone := rfl
@[simp] theorem complete_n (s : State) : (complete s).n = s.n := rfl
@[simp] theorem complete_k (s : State) : (complete s).k = s.k := rfl
@[simp] theorem complete_w (s : State) : (complete s).w = s.w := rfl
@[simp] theorem complete_ncw (s : State) : (complete s).ncw = s.ncw := rfl
@[simp] theorem complete_cwidx (s : State) : (complete s).cwidx = s.cwidx := rfl
@[simp] theorem complete_bin (s : State) : (complete s).bin = s.bin := rfl
@[simp] theorem complete_vin (s : State) : (complete s).vin = s.vin := rfl
@[simp] theorem complete_perm (s : State) : (complete s).perm = s.perm := rfl
@[simp] theorem complete_bout (s : State) : (complete s).bout = s.bout := rfl
@[simp] theorem complete_vout (s : State) : (complete s).vout = s.vout := rfl
@[simp] theorem complete_cwstat (s : State) : (complete s).cwstat = s.cwstat := rfl
@[simp] theorem complete_work (s : State) : (complete s).work = none := rfl
@[simp] theorem complete_platform (s : State) : (complete s).platform = s.platform := rfl
@[simp] theorem complete_draws (s : State) : (complete s).draws = s.draws := rfl
@[simp] theorem complete_schedule (s : State) : (complete s).schedule = s.schedule := rfl
@[simp] theorem complete_hostData (s : State) : (complete s).hostData = s.hostData := rfl
/-! A raised fault writes STATUS and drops the working storage. -/
@[simp] theorem raise_cmd (f : FaultCode) (s : State) : (raise f s).cmd = s.cmd := rfl
@[simp] theorem raise_status (f : FaultCode) (s : State) : (raise f s).status = statusFault f := rfl
@[simp] theorem raise_n (f : FaultCode) (s : State) : (raise f s).n = s.n := rfl
@[simp] theorem raise_k (f : FaultCode) (s : State) : (raise f s).k = s.k := rfl
@[simp] theorem raise_w (f : FaultCode) (s : State) : (raise f s).w = s.w := rfl
@[simp] theorem raise_ncw (f : FaultCode) (s : State) : (raise f s).ncw = s.ncw := rfl
@[simp] theorem raise_cwidx (f : FaultCode) (s : State) : (raise f s).cwidx = s.cwidx := rfl
@[simp] theorem raise_bin (f : FaultCode) (s : State) : (raise f s).bin = s.bin := rfl
@[simp] theorem raise_vin (f : FaultCode) (s : State) : (raise f s).vin = s.vin := rfl
@[simp] theorem raise_perm (f : FaultCode) (s : State) : (raise f s).perm = s.perm := rfl
@[simp] theorem raise_bout (f : FaultCode) (s : State) : (raise f s).bout = s.bout := rfl
@[simp] theorem raise_vout (f : FaultCode) (s : State) : (raise f s).vout = s.vout := rfl
@[simp] theorem raise_cwstat (f : FaultCode) (s : State) : (raise f s).cwstat = s.cwstat := rfl
@[simp] theorem raise_work (f : FaultCode) (s : State) : (raise f s).work = none := rfl
@[simp] theorem raise_platform (f : FaultCode) (s : State) : (raise f s).platform = s.platform := rfl
@[simp] theorem raise_draws (f : FaultCode) (s : State) : (raise f s).draws = s.draws := rfl
@[simp] theorem raise_schedule (f : FaultCode) (s : State) : (raise f s).schedule = s.schedule := rfl
@[simp] theorem raise_hostData (f : FaultCode) (s : State) : (raise f s).hostData = s.hostData := rfl
/-! Unspecifying outputs writes the listed outputs and the counter. -/
@[simp] theorem unspecify_cmd (outs : List Output) (s : State) : (unspecify outs s).cmd = s.cmd := rfl
@[simp] theorem unspecify_status (outs : List Output) (s : State) : (unspecify outs s).status = s.status := rfl
@[simp] theorem unspecify_n (outs : List Output) (s : State) : (unspecify outs s).n = s.n := rfl
@[simp] theorem unspecify_k (outs : List Output) (s : State) : (unspecify outs s).k = s.k := rfl
@[simp] theorem unspecify_w (outs : List Output) (s : State) : (unspecify outs s).w = s.w := rfl
@[simp] theorem unspecify_bin (outs : List Output) (s : State) : (unspecify outs s).bin = s.bin := rfl
@[simp] theorem unspecify_vin (outs : List Output) (s : State) : (unspecify outs s).vin = s.vin := rfl
@[simp] theorem unspecify_work (outs : List Output) (s : State) : (unspecify outs s).work = s.work := rfl
@[simp] theorem unspecify_platform (outs : List Output) (s : State) : (unspecify outs s).platform = s.platform := rfl
@[simp] theorem unspecify_draws (outs : List Output) (s : State) : (unspecify outs s).draws = s.draws + 1 := rfl
@[simp] theorem unspecify_schedule (outs : List Output) (s : State) : (unspecify outs s).schedule = s.schedule := rfl
@[simp] theorem unspecify_hostData (outs : List Output) (s : State) : (unspecify outs s).hostData = s.hostData := rfl
/-! Fault entry writes STATUS, the listed outputs and the counter. -/
@[simp] theorem faultEntry_cmd (f : FaultCode) (outs : List Output) (s : State) : (faultEntry f outs s).cmd = s.cmd := rfl
@[simp] theorem faultEntry_status (f : FaultCode) (outs : List Output) (s : State) : (faultEntry f outs s).status = statusFault f := rfl
@[simp] theorem faultEntry_n (f : FaultCode) (outs : List Output) (s : State) : (faultEntry f outs s).n = s.n := rfl
@[simp] theorem faultEntry_k (f : FaultCode) (outs : List Output) (s : State) : (faultEntry f outs s).k = s.k := rfl
@[simp] theorem faultEntry_w (f : FaultCode) (outs : List Output) (s : State) : (faultEntry f outs s).w = s.w := rfl
@[simp] theorem faultEntry_bin (f : FaultCode) (outs : List Output) (s : State) : (faultEntry f outs s).bin = s.bin := rfl
@[simp] theorem faultEntry_vin (f : FaultCode) (outs : List Output) (s : State) : (faultEntry f outs s).vin = s.vin := rfl
@[simp] theorem faultEntry_work (f : FaultCode) (outs : List Output) (s : State) : (faultEntry f outs s).work = none := rfl
@[simp] theorem faultEntry_platform (f : FaultCode) (outs : List Output) (s : State) : (faultEntry f outs s).platform = s.platform := rfl
@[simp] theorem faultEntry_draws (f : FaultCode) (outs : List Output) (s : State) : (faultEntry f outs s).draws = s.draws + 1 := rfl
@[simp] theorem faultEntry_schedule (f : FaultCode) (outs : List Output) (s : State) : (faultEntry f outs s).schedule = s.schedule := rfl
@[simp] theorem faultEntry_hostData (f : FaultCode) (outs : List Output) (s : State) : (faultEntry f outs s).hostData = s.hostData := rfl
theorem faultEntry_bout_of_not_listed (f : FaultCode) (outs : List Output) (s : State) (h : Output.bout ∉ outs) :
    (faultEntry f outs s).bout = s.bout := if_neg h
theorem faultEntry_vout_of_not_listed (f : FaultCode) (outs : List Output) (s : State) (h : Output.vout ∉ outs) :
    (faultEntry f outs s).vout = s.vout := if_neg h
theorem faultEntry_perm_of_not_listed (f : FaultCode) (outs : List Output) (s : State) (h : Output.perm ∉ outs) :
    (faultEntry f outs s).perm = s.perm := if_neg h
theorem faultEntry_cwstat_of_not_listed (f : FaultCode) (outs : List Output) (s : State) (h : Output.cwstat ∉ outs) :
    (faultEntry f outs s).cwstat = s.cwstat := if_neg h
theorem faultEntry_ncw_of_not_listed (f : FaultCode) (outs : List Output) (s : State) (h : Output.ncw ∉ outs) :
    (faultEntry f outs s).ncw = s.ncw := if_neg h
theorem faultEntry_cwidx_of_not_listed (f : FaultCode) (outs : List Output) (s : State) (h : Output.cwidx ∉ outs) :
    (faultEntry f outs s).cwidx = s.cwidx := if_neg h
/-! A write of CMD stores the byte. -/
@[simp] theorem storeCommand_cmd (c : Byte) (s : State) : (storeCommand c s).cmd = c := rfl
@[simp] theorem storeCommand_status (c : Byte) (s : State) : (storeCommand c s).status = s.status := rfl
@[simp] theorem storeCommand_n (c : Byte) (s : State) : (storeCommand c s).n = s.n := rfl
@[simp] theorem storeCommand_k (c : Byte) (s : State) : (storeCommand c s).k = s.k := rfl
@[simp] theorem storeCommand_w (c : Byte) (s : State) : (storeCommand c s).w = s.w := rfl
@[simp] theorem storeCommand_ncw (c : Byte) (s : State) : (storeCommand c s).ncw = s.ncw := rfl
@[simp] theorem storeCommand_cwidx (c : Byte) (s : State) : (storeCommand c s).cwidx = s.cwidx := rfl
@[simp] theorem storeCommand_bin (c : Byte) (s : State) : (storeCommand c s).bin = s.bin := rfl
@[simp] theorem storeCommand_vin (c : Byte) (s : State) : (storeCommand c s).vin = s.vin := rfl
@[simp] theorem storeCommand_perm (c : Byte) (s : State) : (storeCommand c s).perm = s.perm := rfl
@[simp] theorem storeCommand_bout (c : Byte) (s : State) : (storeCommand c s).bout = s.bout := rfl
@[simp] theorem storeCommand_vout (c : Byte) (s : State) : (storeCommand c s).vout = s.vout := rfl
@[simp] theorem storeCommand_cwstat (c : Byte) (s : State) : (storeCommand c s).cwstat = s.cwstat := rfl
@[simp] theorem storeCommand_work (c : Byte) (s : State) : (storeCommand c s).work = s.work := rfl
@[simp] theorem storeCommand_platform (c : Byte) (s : State) : (storeCommand c s).platform = s.platform := rfl
@[simp] theorem storeCommand_draws (c : Byte) (s : State) : (storeCommand c s).draws = s.draws := rfl
@[simp] theorem storeCommand_schedule (c : Byte) (s : State) : (storeCommand c s).schedule = s.schedule := rfl
@[simp] theorem storeCommand_hostData (c : Byte) (s : State) : (storeCommand c s).hostData = s.hostData := rfl
/-! A transition writes STATUS. -/
@[simp] theorem enterState_cmd (c : CwState) (s : State) : (enterState c s).cmd = s.cmd := rfl
@[simp] theorem enterState_status (c : CwState) (s : State) : (enterState c s).status = statusBusy c := rfl
@[simp] theorem enterState_n (c : CwState) (s : State) : (enterState c s).n = s.n := rfl
@[simp] theorem enterState_k (c : CwState) (s : State) : (enterState c s).k = s.k := rfl
@[simp] theorem enterState_w (c : CwState) (s : State) : (enterState c s).w = s.w := rfl
@[simp] theorem enterState_ncw (c : CwState) (s : State) : (enterState c s).ncw = s.ncw := rfl
@[simp] theorem enterState_cwidx (c : CwState) (s : State) : (enterState c s).cwidx = s.cwidx := rfl
@[simp] theorem enterState_bin (c : CwState) (s : State) : (enterState c s).bin = s.bin := rfl
@[simp] theorem enterState_vin (c : CwState) (s : State) : (enterState c s).vin = s.vin := rfl
@[simp] theorem enterState_perm (c : CwState) (s : State) : (enterState c s).perm = s.perm := rfl
@[simp] theorem enterState_bout (c : CwState) (s : State) : (enterState c s).bout = s.bout := rfl
@[simp] theorem enterState_vout (c : CwState) (s : State) : (enterState c s).vout = s.vout := rfl
@[simp] theorem enterState_cwstat (c : CwState) (s : State) : (enterState c s).cwstat = s.cwstat := rfl
@[simp] theorem enterState_work (c : CwState) (s : State) : (enterState c s).work = s.work := rfl
@[simp] theorem enterState_platform (c : CwState) (s : State) : (enterState c s).platform = s.platform := rfl
@[simp] theorem enterState_draws (c : CwState) (s : State) : (enterState c s).draws = s.draws := rfl
@[simp] theorem enterState_schedule (c : CwState) (s : State) : (enterState c s).schedule = s.schedule := rfl
@[simp] theorem enterState_hostData (c : CwState) (s : State) : (enterState c s).hostData = s.hostData := rfl
/-! A delivered message writes STATUS, CWSTAT and the working storage. -/
@[simp] theorem deliver_cmd (received out : List (List Nat)) (m : List Nat) (b : Bit) (s : State) : (deliver received out m b s).cmd = s.cmd := rfl
@[simp] theorem deliver_status (received out : List (List Nat)) (m : List Nat) (b : Bit) (s : State) : (deliver received out m b s).status = statusBusy .done := rfl
@[simp] theorem deliver_n (received out : List (List Nat)) (m : List Nat) (b : Bit) (s : State) : (deliver received out m b s).n = s.n := rfl
@[simp] theorem deliver_k (received out : List (List Nat)) (m : List Nat) (b : Bit) (s : State) : (deliver received out m b s).k = s.k := rfl
@[simp] theorem deliver_w (received out : List (List Nat)) (m : List Nat) (b : Bit) (s : State) : (deliver received out m b s).w = s.w := rfl
@[simp] theorem deliver_ncw (received out : List (List Nat)) (m : List Nat) (b : Bit) (s : State) : (deliver received out m b s).ncw = s.ncw := rfl
@[simp] theorem deliver_cwidx (received out : List (List Nat)) (m : List Nat) (b : Bit) (s : State) : (deliver received out m b s).cwidx = s.cwidx := rfl
@[simp] theorem deliver_bin (received out : List (List Nat)) (m : List Nat) (b : Bit) (s : State) : (deliver received out m b s).bin = s.bin := rfl
@[simp] theorem deliver_vin (received out : List (List Nat)) (m : List Nat) (b : Bit) (s : State) : (deliver received out m b s).vin = s.vin := rfl
@[simp] theorem deliver_perm (received out : List (List Nat)) (m : List Nat) (b : Bit) (s : State) : (deliver received out m b s).perm = s.perm := rfl
@[simp] theorem deliver_bout (received out : List (List Nat)) (m : List Nat) (b : Bit) (s : State) : (deliver received out m b s).bout = s.bout := rfl
@[simp] theorem deliver_vout (received out : List (List Nat)) (m : List Nat) (b : Bit) (s : State) : (deliver received out m b s).vout = s.vout := rfl
@[simp] theorem deliver_cwstat (received out : List (List Nat)) (m : List Nat) (b : Bit) (s : State) : (deliver received out m b s).cwstat = s.cwstat.set s.cwidx b := rfl
@[simp] theorem deliver_work (received out : List (List Nat)) (m : List Nat) (b : Bit) (s : State) : (deliver received out m b s).work = some (.decode received (out ++ [m])) := rfl
@[simp] theorem deliver_platform (received out : List (List Nat)) (m : List Nat) (b : Bit) (s : State) : (deliver received out m b s).platform = s.platform := rfl
@[simp] theorem deliver_draws (received out : List (List Nat)) (m : List Nat) (b : Bit) (s : State) : (deliver received out m b s).draws = s.draws := rfl
@[simp] theorem deliver_schedule (received out : List (List Nat)) (m : List Nat) (b : Bit) (s : State) : (deliver received out m b s).schedule = s.schedule := rfl
@[simp] theorem deliver_hostData (received out : List (List Nat)) (m : List Nat) (b : Bit) (s : State) : (deliver received out m b s).hostData = s.hostData := rfl
/-! Counting a draw writes the counter. -/
@[simp] theorem countDraw_cmd (drawn : Bool) (s : State) : (countDraw drawn s).cmd = s.cmd := by cases drawn <;> rfl
@[simp] theorem countDraw_status (drawn : Bool) (s : State) : (countDraw drawn s).status = s.status := by cases drawn <;> rfl
@[simp] theorem countDraw_n (drawn : Bool) (s : State) : (countDraw drawn s).n = s.n := by cases drawn <;> rfl
@[simp] theorem countDraw_k (drawn : Bool) (s : State) : (countDraw drawn s).k = s.k := by cases drawn <;> rfl
@[simp] theorem countDraw_w (drawn : Bool) (s : State) : (countDraw drawn s).w = s.w := by cases drawn <;> rfl
@[simp] theorem countDraw_ncw (drawn : Bool) (s : State) : (countDraw drawn s).ncw = s.ncw := by cases drawn <;> rfl
@[simp] theorem countDraw_cwidx (drawn : Bool) (s : State) : (countDraw drawn s).cwidx = s.cwidx := by cases drawn <;> rfl
@[simp] theorem countDraw_bin (drawn : Bool) (s : State) : (countDraw drawn s).bin = s.bin := by cases drawn <;> rfl
@[simp] theorem countDraw_vin (drawn : Bool) (s : State) : (countDraw drawn s).vin = s.vin := by cases drawn <;> rfl
@[simp] theorem countDraw_perm (drawn : Bool) (s : State) : (countDraw drawn s).perm = s.perm := by cases drawn <;> rfl
@[simp] theorem countDraw_bout (drawn : Bool) (s : State) : (countDraw drawn s).bout = s.bout := by cases drawn <;> rfl
@[simp] theorem countDraw_vout (drawn : Bool) (s : State) : (countDraw drawn s).vout = s.vout := by cases drawn <;> rfl
@[simp] theorem countDraw_cwstat (drawn : Bool) (s : State) : (countDraw drawn s).cwstat = s.cwstat := by cases drawn <;> rfl
@[simp] theorem countDraw_work (drawn : Bool) (s : State) : (countDraw drawn s).work = s.work := by cases drawn <;> rfl
@[simp] theorem countDraw_platform (drawn : Bool) (s : State) : (countDraw drawn s).platform = s.platform := by cases drawn <;> rfl
@[simp] theorem countDraw_draws (drawn : Bool) (s : State) : (countDraw drawn s).draws = if drawn then s.draws + 1 else s.draws := by cases drawn <;> rfl
@[simp] theorem countDraw_schedule (drawn : Bool) (s : State) : (countDraw drawn s).schedule = s.schedule := by cases drawn <;> rfl
@[simp] theorem countDraw_hostData (drawn : Bool) (s : State) : (countDraw drawn s).hostData = s.hostData := by cases drawn <;> rfl
/-! Step 5 of ENC writes BOUT, PERM and the counter. -/
@[simp] theorem interleaveOut_cmd (drawn : Bool) (cb : List Bit) (s : State) : (interleaveOut drawn cb s).cmd = s.cmd := by cases drawn <;> rfl
@[simp] theorem interleaveOut_status (drawn : Bool) (cb : List Bit) (s : State) : (interleaveOut drawn cb s).status = s.status := by cases drawn <;> rfl
@[simp] theorem interleaveOut_n (drawn : Bool) (cb : List Bit) (s : State) : (interleaveOut drawn cb s).n = s.n := by cases drawn <;> rfl
@[simp] theorem interleaveOut_k (drawn : Bool) (cb : List Bit) (s : State) : (interleaveOut drawn cb s).k = s.k := by cases drawn <;> rfl
@[simp] theorem interleaveOut_w (drawn : Bool) (cb : List Bit) (s : State) : (interleaveOut drawn cb s).w = s.w := by cases drawn <;> rfl
@[simp] theorem interleaveOut_ncw (drawn : Bool) (cb : List Bit) (s : State) : (interleaveOut drawn cb s).ncw = s.ncw := by cases drawn <;> rfl
@[simp] theorem interleaveOut_cwidx (drawn : Bool) (cb : List Bit) (s : State) : (interleaveOut drawn cb s).cwidx = s.cwidx := by cases drawn <;> rfl
@[simp] theorem interleaveOut_bin (drawn : Bool) (cb : List Bit) (s : State) : (interleaveOut drawn cb s).bin = s.bin := by cases drawn <;> rfl
@[simp] theorem interleaveOut_vin (drawn : Bool) (cb : List Bit) (s : State) : (interleaveOut drawn cb s).vin = s.vin := by cases drawn <;> rfl
@[simp] theorem interleaveOut_perm (drawn : Bool) (cb : List Bit) (s : State) : (interleaveOut drawn cb s).perm = makePermutation drawn cb.length s := by cases drawn <;> rfl
@[simp] theorem interleaveOut_bout (drawn : Bool) (cb : List Bit) (s : State) : (interleaveOut drawn cb s).bout = interleave cb (makePermutation drawn cb.length s) := by cases drawn <;> rfl
@[simp] theorem interleaveOut_vout (drawn : Bool) (cb : List Bit) (s : State) : (interleaveOut drawn cb s).vout = s.vout := by cases drawn <;> rfl
@[simp] theorem interleaveOut_cwstat (drawn : Bool) (cb : List Bit) (s : State) : (interleaveOut drawn cb s).cwstat = s.cwstat := by cases drawn <;> rfl
@[simp] theorem interleaveOut_work (drawn : Bool) (cb : List Bit) (s : State) : (interleaveOut drawn cb s).work = s.work := by cases drawn <;> rfl
@[simp] theorem interleaveOut_platform (drawn : Bool) (cb : List Bit) (s : State) : (interleaveOut drawn cb s).platform = s.platform := by cases drawn <;> rfl
@[simp] theorem interleaveOut_draws (drawn : Bool) (cb : List Bit) (s : State) : (interleaveOut drawn cb s).draws = if drawn then s.draws + 1 else s.draws := by cases drawn <;> rfl
@[simp] theorem interleaveOut_schedule (drawn : Bool) (cb : List Bit) (s : State) : (interleaveOut drawn cb s).schedule = s.schedule := by cases drawn <;> rfl
@[simp] theorem interleaveOut_hostData (drawn : Bool) (cb : List Bit) (s : State) : (interleaveOut drawn cb s).hostData = s.hostData := by cases drawn <;> rfl
/-! Reset writes every register and buffer. -/
@[simp] theorem resetEntry_cmd (s : State) : (resetEntry s).cmd = State.reset.cmd := rfl
@[simp] theorem resetEntry_status (s : State) : (resetEntry s).status = State.reset.status := rfl
@[simp] theorem resetEntry_n (s : State) : (resetEntry s).n = State.reset.n := rfl
@[simp] theorem resetEntry_k (s : State) : (resetEntry s).k = State.reset.k := rfl
@[simp] theorem resetEntry_w (s : State) : (resetEntry s).w = State.reset.w := rfl
@[simp] theorem resetEntry_ncw (s : State) : (resetEntry s).ncw = State.reset.ncw := rfl
@[simp] theorem resetEntry_cwidx (s : State) : (resetEntry s).cwidx = State.reset.cwidx := rfl
@[simp] theorem resetEntry_bin (s : State) : (resetEntry s).bin = State.reset.bin := rfl
@[simp] theorem resetEntry_vin (s : State) : (resetEntry s).vin = State.reset.vin := rfl
@[simp] theorem resetEntry_perm (s : State) : (resetEntry s).perm = State.reset.perm := rfl
@[simp] theorem resetEntry_bout (s : State) : (resetEntry s).bout = State.reset.bout := rfl
@[simp] theorem resetEntry_vout (s : State) : (resetEntry s).vout = State.reset.vout := rfl
@[simp] theorem resetEntry_cwstat (s : State) : (resetEntry s).cwstat = State.reset.cwstat := rfl
@[simp] theorem resetEntry_work (s : State) : (resetEntry s).work = State.reset.work := rfl
@[simp] theorem resetEntry_platform (s : State) : (resetEntry s).platform = s.platform := rfl
@[simp] theorem resetEntry_draws (s : State) : (resetEntry s).draws = s.draws := rfl
@[simp] theorem resetEntry_schedule (s : State) : (resetEntry s).schedule = s.schedule := rfl
@[simp] theorem resetEntry_hostData (s : State) : (resetEntry s).hostData = s.hostData := rfl

end Sys2Proof.Machine
end

