-- ==== Sys2Proof/Laws/Ops.lean ====
section
/-!
SUPPORT. What the shared operations can do, each said once: the order of checks, the two outcomes of a command, fault
entry, and what storage a cut value fits.
-/

namespace Sys2Proof.Machine

/-! The order of checks. -/

@[simp] theorem firstFault_nil : firstFault [] = none := rfl

@[simp] theorem firstFault_cons (b : Bool) (f : FaultCode) (cs : Checks) :
    firstFault ((b, f) :: cs) = if b then firstFault cs else some f := rfl

/-- A command is admitted exactly where every check holds. -/
theorem firstFault_eq_none_iff (cs : Checks) : firstFault cs = none ↔ ∀ c ∈ cs, c.1 = true := by
  induction cs with
  | nil => simp
  | cons c cs ih => obtain ⟨b, f⟩ := c; cases b <;> simp [ih]

/-- A reported fault is that of a check that fails. -/
theorem firstFault_mem {cs : Checks} {f : FaultCode} (h : firstFault cs = some f) : (false, f) ∈ cs := by
  induction cs with
  | nil => simp at h
  | cons c cs ih =>
    obtain ⟨b, g⟩ := c
    cases b
    · simp_all
    · simp only [firstFault_cons, if_true] at h; exact List.mem_cons_of_mem _ (ih h)

@[simp] theorem firstFault_append (cs ds : Checks) : firstFault (cs ++ ds) = (firstFault cs).or (firstFault ds) := by
  induction cs with
  | nil => simp
  | cons c cs ih => obtain ⟨b, f⟩ := c; cases b <;> simp [ih]

/-! The outcomes of a command. -/

theorem command_ok {checks : Checks} (outs : List Output) (effect : State → State) (s : State)
    (h : firstFault checks = none) : command checks outs effect s = .next (complete (effect s)) := by
  simp only [command, h]

theorem command_fault {checks : Checks} {f : FaultCode} (outs : List Output) (effect : State → State) (s : State)
    (h : firstFault checks = some f) : command checks outs effect s = .next (faultEntry f outs s) := by
  simp only [command, h]

/-- Everything a command can do: take its first failing check's fault, or have its effect and complete. -/
theorem command_cases {checks : Checks} {outs : List Output} {effect : State → State} {s : State}
    {o : Host.Outcome State Fault Refusal} (h : command checks outs effect s = o) :
    (∃ f, firstFault checks = some f ∧ o = .next (faultEntry f outs s)) ∨
    (firstFault checks = none ∧ o = .next (complete (effect s))) := by
  cases hc : firstFault checks with
  | none => exact .inr ⟨rfl, by rw [← h, command_ok outs effect s hc]⟩
  | some f => exact .inl ⟨f, rfl, by rw [← h, command_fault outs effect s hc]⟩

theorem pipeline_ok {checks : Checks} (outs : List Output) {effect : State → Option State} {s t : State}
    (h : firstFault checks = none) (he : effect s = some t) :
    pipeline checks outs effect s = .next (complete t) := by
  simp only [pipeline, h, he]

theorem pipeline_protocol {checks : Checks} (outs : List Output) {effect : State → Option State} {s : State}
    (h : firstFault checks = none) (he : effect s = none) :
    pipeline checks outs effect s = .next (faultEntry .codecProtocol outs s) := by
  simp only [pipeline, h, he]

theorem pipeline_fault {checks : Checks} {f : FaultCode} (outs : List Output) (effect : State → Option State)
    (s : State) (h : firstFault checks = some f) :
    pipeline checks outs effect s = .next (faultEntry f outs s) := by
  simp only [pipeline, h]

/-- Everything a pipeline command can do. -/
theorem pipeline_cases {checks : Checks} {outs : List Output} {effect : State → Option State} {s : State}
    {o : Host.Outcome State Fault Refusal} (h : pipeline checks outs effect s = o) :
    (∃ f, firstFault checks = some f ∧ o = .next (faultEntry f outs s)) ∨
    (firstFault checks = none ∧ effect s = none ∧ o = .next (faultEntry .codecProtocol outs s)) ∨
    (∃ t, firstFault checks = none ∧ effect s = some t ∧ o = .next (complete t)) := by
  cases hc : firstFault checks with
  | some f => exact .inl ⟨f, rfl, by rw [← h, pipeline_fault outs effect s hc]⟩
  | none =>
    cases he : effect s with
    | none => exact .inr (.inl ⟨rfl, rfl, by rw [← h, pipeline_protocol outs hc he]⟩)
    | some t => exact .inr (.inr ⟨t, rfl, rfl, by rw [← h, pipeline_ok outs hc he]⟩)

/-! Fault entry. -/

/-- Fault entry leaves what R238 says. -/
theorem faultEntry_faultedWith (f : FaultCode) (outs : List Output) (s : State) :
    faultedWith (faultNumber f) outs s (faultEntry f outs s) := by
  refine ⟨by simp [statusFault_eq], by simp, by simp [keepsInputs], ?_⟩
  simp +contextual only [keepsOutputsExcept, faultEntry_bout_of_not_listed, faultEntry_vout_of_not_listed,
    faultEntry_perm_of_not_listed, faultEntry_cwstat_of_not_listed, faultEntry_ncw_of_not_listed,
    faultEntry_cwidx_of_not_listed, not_false_eq_true, implies_true, and_self]

/-! What fits. -/

theorem fits_mono {a b : Nat} {cap : Option Nat} (h : a ≤ b) (hb : fits b cap = true) : fits a cap = true := by
  cases cap <;> simp_all [fits]; omega

theorem fitsWidth_mono {a b : Nat} {width : Option Nat} (h : a ≤ b) (hb : fitsWidth b width = true) :
    fitsWidth a width = true := by
  cases width <;> simp_all [fitsWidth]; omega

theorem fits_cutTo {α : Type} (cap : Option Nat) (l : List α) : fits (cutTo cap l).length cap = true := by
  cases cap <;> simp [fits, cutTo]

theorem mem_of_mem_cutTo {α : Type} {cap : Option Nat} {l : List α} {x : α} (h : x ∈ cutTo cap l) : x ∈ l := by
  cases cap with
  | none => exact h
  | some c => exact List.mem_of_mem_take h

theorem fitsWidth_cutWidth (width : Option Nat) (v : Nat) : fitsWidth (cutWidth width v) width = true := by
  cases width <;> simp [fitsWidth, cutWidth, Nat.mod_lt]

/-- Whatever fits a capacity fits the registers, for legal parameters (R7). -/
theorem Platform.wf_fitsWidth {p : Platform} (h : p.wf = true) {v : Nat}
    (hv : fits v p.capBits = true ∨ fits v p.capVals = true ∨ fits v p.capPerm = true) :
    fitsWidth v p.idxw = true := by
  obtain ⟨cb, cv, cp, vw, ix, co⟩ := p
  cases ix with
  | none => rfl
  | some b =>
    cases cb <;> cases cv <;> cases cp <;> simp_all [Platform.wf, fits, fitsWidth]
    omega

end Sys2Proof.Machine
end

