-- ==== Sys2Proof/Laws/Pipeline.lean ====
section
/-!
SUPPORT. What the two pipelines' steps make: how many messages and codewords, of what size (R177, R193, R197, R198).
-/

namespace Sys2Proof.Machine

theorem mul_mul_div_mul (a b c : Nat) (h : 1 ≤ a) : a * b / (a * c) = b / c := Nat.mul_div_mul_left b c h

/-- The number of messages is ceil(len(BIN) / 8k) (R179). -/
theorem length_encMessages (s : State) (hk : 1 ≤ s.k) : (encMessages s).length = encCount s := by
  simp only [encMessages, length_framed, length_bitsToVals, encCount, Nat.div_div_eq_div_mul]
  exact length_padToMultiple_div s.bin (by omega)

theorem length_of_mem_encMessages {s : State} {m : List Nat} (h : m ∈ encMessages s) : m.length = s.k :=
  length_of_mem_framed h

theorem length_decReceived {permuted : Bool} {s : State} (h : (permOperand permuted s).length = s.bin.length) :
    (decReceived permuted s).length = decCount s := by
  simp [decReceived, h, decCount, Nat.div_div_eq_div_mul]

theorem length_of_mem_decReceived {permuted : Bool} {s : State} {r : List Nat} (h : r ∈ decReceived permuted s) :
    r.length = s.n := length_of_mem_framed h

theorem length_encodeOne {s : State} {m c : List Nat} (h : encodeOne s m = some c) : c.length = s.n := by
  unfold encodeOne at h
  split at h <;> simp_all

@[simp] theorem encodeAll_nil (s : State) : encodeAll s [] = some [] := rfl

theorem encodeAll_cons_some {s : State} {m c : List Nat} {ms cs : List (List Nat)} (h1 : encodeOne s m = some c)
    (h2 : encodeAll s ms = some cs) : encodeAll s (m :: ms) = some (c :: cs) := by simp only [encodeAll, h1, h2]

theorem encodeAll_cons_none {s : State} {m : List Nat} {ms : List (List Nat)}
    (h : encodeOne s m = none ∨ encodeAll s ms = none) : encodeAll s (m :: ms) = none := by
  rcases h with h | h <;> cases h2 : encodeOne s m <;> simp_all [encodeAll]

/-- The codewords are the messages' own, in order. -/
theorem encodeAll_eq_some_iff {s : State} {ms cs : List (List Nat)} :
    encodeAll s ms = some cs ↔ ms.map (encodeOne s) = cs.map some := by
  induction ms generalizing cs with
  | nil => cases cs <;> simp
  | cons m ms ih =>
    cases h1 : encodeOne s m with
    | none => simp only [encodeAll_cons_none (.inl h1)]; cases cs <;> simp [h1]
    | some c =>
      cases h2 : encodeAll s ms with
      | none =>
        simp only [encodeAll_cons_none (.inr h2), List.map_cons, h1]
        cases cs with
        | nil => simp
        | cons d ds =>
          have := (ih (cs := ds)).not.1 (by simp [h2])
          simp [this]
      | some ds =>
        rw [encodeAll_cons_some h1 h2]
        cases cs with
        | nil => simp
        | cons d es =>
          have := ih (cs := es)
          simp only [h2, Option.some.injEq] at this
          simp [h1, this]

theorem encodeAll_eq_none_iff {s : State} {ms : List (List Nat)} :
    encodeAll s ms = none ↔ ∃ m ∈ ms, encodeOne s m = none := by
  induction ms with
  | nil => simp
  | cons m ms ih =>
    cases h1 : encodeOne s m with
    | none => simp [encodeAll_cons_none (.inl h1), h1]
    | some c =>
      cases h2 : encodeAll s ms with
      | none => simp [encodeAll_cons_none (.inr h2), h1, ← ih, h2]
      | some ds => simp [encodeAll_cons_some h1 h2, h1, ← ih, h2]

theorem length_encodeAll {s : State} {ms cs : List (List Nat)} (h : encodeAll s ms = some cs) :
    cs.length = ms.length := by
  have := congrArg List.length (encodeAll_eq_some_iff.1 h)
  simpa using this.symm

theorem length_of_mem_encodeAll {s : State} {ms cs : List (List Nat)} (h : encodeAll s ms = some cs) {c : List Nat}
    (hc : c ∈ cs) : c.length = s.n := by
  have h1 : some c ∈ ms.map (encodeOne s) := by
    rw [encodeAll_eq_some_iff.1 h]; exact List.mem_map_of_mem hc
  obtain ⟨m, _, hm⟩ := List.mem_map.1 h1
  exact length_encodeOne hm

/-- A corrected message has exactly k bytes (R197). -/
theorem length_correctedMessage {s : State} {r m : List Nat} (h : correctedMessage s r = some m) : m.length = s.k := by
  unfold correctedMessage at h
  split at h
  · next hle => cases h; simp only [List.length_append, List.length_replicate]; omega
  · cases h

/-- A fallback message has exactly k bytes (R198). -/
theorem length_fallbackMessage {s : State} {r : List Nat} (hr : r.length = s.n) (hk : s.k ≤ s.n) :
    (fallbackMessage s r).length = s.k := by simp only [fallbackMessage, length_slice, hr]; omega

theorem length_decodeOne {s : State} {r m : List Nat} {b : Bit} (h : decodeOne s r = some (m, b)) (hr : r.length = s.n)
    (hk : s.k ≤ s.n) : m.length = s.k := by
  unfold decodeOne at h
  split at h
  · split at h
    · next hm => cases h; exact length_correctedMessage hm
    · cases h
  · cases h; exact length_fallbackMessage hr hk

@[simp] theorem decodeAll_nil (s : State) : decodeAll s [] = some [] := rfl

theorem decodeAll_cons_some {s : State} {r : List Nat} {m : List Nat × Bit} {rs : List (List Nat)}
    {ms : List (List Nat × Bit)} (h1 : decodeOne s r = some m) (h2 : decodeAll s rs = some ms) :
    decodeAll s (r :: rs) = some (m :: ms) := by simp only [decodeAll, h1, h2]

theorem decodeAll_cons_none {s : State} {r : List Nat} {rs : List (List Nat)}
    (h : decodeOne s r = none ∨ decodeAll s rs = none) : decodeAll s (r :: rs) = none := by
  rcases h with h | h <;> cases h2 : decodeOne s r <;> simp_all [decodeAll]

/-- The messages are the codewords' own, in order. -/
theorem decodeAll_eq_some_iff {s : State} {rs : List (List Nat)} {ms : List (List Nat × Bit)} :
    decodeAll s rs = some ms ↔ rs.map (decodeOne s) = ms.map some := by
  induction rs generalizing ms with
  | nil => cases ms <;> simp
  | cons r rs ih =>
    cases h1 : decodeOne s r with
    | none => simp only [decodeAll_cons_none (.inl h1)]; cases ms <;> simp [h1]
    | some c =>
      cases h2 : decodeAll s rs with
      | none =>
        simp only [decodeAll_cons_none (.inr h2), List.map_cons, h1]
        cases ms with
        | nil => simp
        | cons d ds =>
          have := (ih (ms := ds)).not.1 (by simp [h2])
          simp [this]
      | some ds =>
        rw [decodeAll_cons_some h1 h2]
        cases ms with
        | nil => simp
        | cons d es =>
          have := ih (ms := es)
          simp only [h2, Option.some.injEq] at this
          simp [h1, this]

theorem decodeAll_eq_none_iff {s : State} {rs : List (List Nat)} :
    decodeAll s rs = none ↔ ∃ r ∈ rs, decodeOne s r = none := by
  induction rs with
  | nil => simp
  | cons r rs ih =>
    cases h1 : decodeOne s r with
    | none => simp [decodeAll_cons_none (.inl h1), h1]
    | some c =>
      cases h2 : decodeAll s rs with
      | none => simp [decodeAll_cons_none (.inr h2), h1, ← ih, h2]
      | some ds => simp [decodeAll_cons_some h1 h2, h1, ← ih, h2]

theorem length_decodeAll {s : State} {rs : List (List Nat)} {ms : List (List Nat × Bit)}
    (h : decodeAll s rs = some ms) : ms.length = rs.length := by
  have := congrArg List.length (decodeAll_eq_some_iff.1 h)
  simpa using this.symm

theorem length_of_mem_decodeAll {s : State} {rs : List (List Nat)} {ms : List (List Nat × Bit)}
    (h : decodeAll s rs = some ms) (hr : ∀ r ∈ rs, r.length = s.n) (hk : s.k ≤ s.n) {m : List Nat × Bit}
    (hm : m ∈ ms) : m.1.length = s.k := by
  have h1 : some m ∈ rs.map (decodeOne s) := by
    rw [decodeAll_eq_some_iff.1 h]; exact List.mem_map_of_mem hm
  obtain ⟨r, hrm, hd⟩ := List.mem_map.1 h1
  exact length_decodeOne hd (hr r hrm) hk

/-- Coded bits: 8·n per codeword (R179). -/
theorem length_codedBits {cs : List (List Nat)} {n : Nat} (h : ∀ c ∈ cs, c.length = n) :
    (codedBits cs).length = 8 * n * cs.length := by
  rw [codedBits, length_valsToBits, unframed, length_flatten_of_forall h]; ring

/-- Decoded bits: 8·k per codeword (R201). -/
theorem length_decodedBits {ms : List (List Nat)} {k : Nat} (h : ∀ m ∈ ms, m.length = k) :
    (decodedBits ms).length = 8 * k * ms.length := length_codedBits h

end Sys2Proof.Machine
end

