-- ==== Sys2Proof/Laws/Memory.lean ====
section
/-!
SUPPORT. Every operation that writes a buffer keeps the canonical form of the six buffers, and reset has it (R26, log 18).
-/

namespace Sys2Proof.Machine

/-- A sequence of numbers is within a capacity and a width. -/
def valuesFit (v : List Nat) (cap width : Option Nat) : Bool := fits v.length cap && v.all (fun x => fitsWidth x width)

/-- The canonical form, buffer by buffer. -/
theorem Memory.wf_iff (s : State) :
    Memory.wf s = true ↔
      fits s.bin.length s.platform.capBits = true ∧ fits s.bout.length s.platform.capBits = true ∧
      fits s.cwstat.length s.platform.capBits = true ∧ valuesFit s.vin s.platform.capVals s.platform.valw = true ∧
      valuesFit s.vout s.platform.capVals s.platform.valw = true ∧
      valuesFit s.perm s.platform.capPerm s.platform.idxw = true := by
  simp only [Memory.wf, valuesFit, Bool.and_eq_true, and_assoc]

theorem Memory.wf_reset : Memory.wf State.reset = true := by decide

theorem valuesFit_cut (v : List Nat) (cap width : Option Nat) :
    valuesFit (cutTo cap (v.map (cutWidth width))) cap width = true := by
  simp only [valuesFit, fits_cutTo, Bool.true_and, List.all_eq_true]
  intro x hx
  obtain ⟨y, _, rfl⟩ := List.mem_map.1 (mem_of_mem_cutTo hx)
  exact fitsWidth_cutWidth width y

/-- Only the buffers and the parameters matter. -/
theorem Memory.wf_congr {s t : State} (h : Memory.wf s = true) (h1 : t.bin = s.bin) (h2 : t.bout = s.bout)
    (h3 : t.cwstat = s.cwstat) (h4 : t.vin = s.vin) (h5 : t.vout = s.vout) (h6 : t.perm = s.perm)
    (h7 : t.platform = s.platform) : Memory.wf t = true := by
  simpa only [Memory.wf, h1, h2, h3, h4, h5, h6, h7] using h

theorem Memory.wf_complete {s : State} (h : Memory.wf s = true) : Memory.wf (complete s) = true :=
  Memory.wf_congr h rfl rfl rfl rfl rfl rfl rfl

theorem Memory.wf_raise {s : State} (f : FaultCode) (h : Memory.wf s = true) : Memory.wf (raise f s) = true :=
  Memory.wf_congr h rfl rfl rfl rfl rfl rfl rfl

theorem Memory.wf_unspecify {s : State} (outs : List Output) (h : Memory.wf s = true) :
    Memory.wf (unspecify outs s) = true := by
  rw [Memory.wf_iff] at h ⊢
  obtain ⟨h1, h2, h3, h4, h5, h6⟩ := h
  refine ⟨h1, ?_, ?_, h4, ?_, ?_⟩
  · unfold unspecify; dsimp only; split
    · exact fits_cutTo _ _
    · exact h2
  · unfold unspecify; dsimp only; split
    · exact fits_cutTo _ _
    · exact h3
  · unfold unspecify; dsimp only; split
    · exact valuesFit_cut _ _ _
    · exact h5
  · unfold unspecify; dsimp only; split
    · exact valuesFit_cut _ _ _
    · exact h6

/-- Fault entry keeps the canonical form. -/
theorem Memory.wf_faultEntry {s : State} (f : FaultCode) (outs : List Output) (h : Memory.wf s = true) :
    Memory.wf (faultEntry f outs s) = true := Memory.wf_raise f (Memory.wf_unspecify outs h)

/-- Writing bits of a length that fits to BOUT keeps the canonical form. -/
theorem Memory.wf_set_bout {s : State} {b : List Bit} (h : Memory.wf s = true)
    (hb : fits b.length s.platform.capBits = true) : Memory.wf { s with bout := b } = true := by
  rw [Memory.wf_iff] at h ⊢; exact ⟨h.1, hb, h.2.2⟩

theorem Memory.wf_set_cwstat {s : State} {b : List Bit} (h : Memory.wf s = true)
    (hb : fits b.length s.platform.capBits = true) : Memory.wf { s with cwstat := b } = true := by
  rw [Memory.wf_iff] at h ⊢; exact ⟨h.1, h.2.1, hb, h.2.2.2⟩

theorem Memory.wf_set_vout {s : State} {v : List Nat} (h : Memory.wf s = true)
    (hv : valuesFit v s.platform.capVals s.platform.valw = true) : Memory.wf { s with vout := v } = true := by
  rw [Memory.wf_iff] at h ⊢; exact ⟨h.1, h.2.1, h.2.2.1, h.2.2.2.1, hv, h.2.2.2.2.2⟩

theorem Memory.wf_set_perm {s : State} {p : List Nat} (h : Memory.wf s = true)
    (hp : valuesFit p s.platform.capPerm s.platform.idxw = true) : Memory.wf { s with perm := p } = true := by
  rw [Memory.wf_iff] at h ⊢; exact ⟨h.1, h.2.1, h.2.2.1, h.2.2.2.1, h.2.2.2.2.1, hp⟩

theorem Memory.wf_set_bin {s : State} {b : List Bit} (h : Memory.wf s = true)
    (hb : fits b.length s.platform.capBits = true) : Memory.wf { s with bin := b } = true := by
  rw [Memory.wf_iff] at h ⊢; exact ⟨hb, h.2⟩

theorem Memory.wf_set_vin {s : State} {v : List Nat} (h : Memory.wf s = true)
    (hv : valuesFit v s.platform.capVals s.platform.valw = true) : Memory.wf { s with vin := v } = true := by
  rw [Memory.wf_iff] at h ⊢; exact ⟨h.1, h.2.1, h.2.2.1, hv, h.2.2.2.2⟩

/-- A permutation whose length fits PERM has entries that fit, for legal parameters. -/
theorem valuesFit_of_isPerm {p : Platform} {perm : List Nat} {len : Nat} (hw : p.wf = true) (h : IsPerm perm len)
    (hf : fits len p.capPerm = true) : valuesFit perm p.capPerm p.idxw = true := by
  simp only [valuesFit, h.1, hf, Bool.true_and, List.all_eq_true]
  intro x hx
  exact fitsWidth_mono (Nat.le_of_lt (h.2.1 x hx)) (Platform.wf_fitsWidth hw (.inr (.inr hf)))

/-- Step 5 of ENC keeps the canonical form where the coded bits fit. -/
theorem Memory.wf_interleaveOut {s : State} (drawn : Bool) {cb : List Bit} (hw : s.platform.wf = true)
    (h : Memory.wf s = true) (hb : fits cb.length s.platform.capBits = true)
    (hp : fits cb.length s.platform.capPerm = true) : Memory.wf (interleaveOut drawn cb s) = true := by
  have hperm := isPerm_makePermutation drawn cb.length s
  have := Memory.wf_set_perm (Memory.wf_set_bout (b := interleave cb (makePermutation drawn cb.length s)) h
    (by simpa [hperm.1] using hb)) (valuesFit_of_isPerm hw hperm hp)
  exact Memory.wf_congr this (by simp) (by simp) (by simp) (by simp) (by simp) (by simp) (by simp)

/-- A resized sequence has the length written. -/
@[simp] theorem length_resized {α : Type} (len : Nat) (fresh : Nat → α) (l : List α) :
    (resized len fresh l).length = len := by
  simp [resized]; omega

theorem valuesFit_resized {v : List Nat} {cap width : Option Nat} (len : Nat) (fresh : Nat → Nat)
    (h : valuesFit v cap width = true) (hl : fits len cap = true) :
    valuesFit (resized len (fun j => cutWidth width (fresh j)) v) cap width = true := by
  simp only [valuesFit, Bool.and_eq_true, List.all_eq_true, length_resized] at h ⊢
  refine ⟨hl, fun x hx => ?_⟩
  simp only [resized, List.mem_append, List.mem_map] at hx
  rcases hx with hx | ⟨j, _, rfl⟩
  · exact h.2 x (List.mem_of_mem_take hx)
  · exact fitsWidth_cutWidth _ _

end Sys2Proof.Machine
end

