-- ==== Sys2Proof/Laws/PerInstr.lean ====
section
/-!
SUPPORT. Statements made per command, one lemma per constructor: the word that encodes it is one R94 does not call illegal.
-/

namespace Sys2Proof.Laws.EncodedWord

/-- The command's byte has CMD[7:6] 00, an assigned opcode, and only the flags of its format (R91, R93, R94). -/
def Statement (i : Instr) : Prop := wordWellFormed (encode i) = true ∧ i.wellFormed = true

theorem bits2bytes : Statement .bits2bytes := ⟨by decide, rfl⟩
theorem bytes2bits : Statement .bytes2bits := ⟨by decide, rfl⟩
theorem bytes2chars : Statement .bytes2chars := ⟨by decide, rfl⟩
theorem chars2bytes : Statement .chars2bytes := ⟨by decide, rfl⟩
theorem pad : Statement .pad := ⟨by decide, rfl⟩
theorem frame : Statement .frame := ⟨by decide, rfl⟩
theorem mkperm (drawn : Bool) : Statement (.mkperm drawn) := ⟨by cases drawn <;> decide, rfl⟩
theorem ilv : Statement .ilv := ⟨by decide, rfl⟩
theorem dilv : Statement .dilv := ⟨by decide, rfl⟩
theorem enc (interleave : Bool) : Statement (.enc interleave) := ⟨by cases interleave <;> decide, rfl⟩
theorem dec (permuted : Bool) : Statement (.dec permuted) := ⟨by cases permuted <;> decide, rfl⟩

end Sys2Proof.Laws.EncodedWord
end

