-- ==== Sys2Proof/Laws/Step.lean ====
section
/-!
SUPPORT. What one step of the whole machine can be, and what the commands' meanings are as shared operations.
-/

namespace Sys2Proof.Machine

/-- With nothing scheduled a step is the framer's own, or nothing. -/
theorem step_unattended {s : State} (h : s.schedule = []) : step s = unattended s := by
  unfold step machineStep; rw [h]

theorem step_framer {s : State} (h : s.schedule = []) (hb : isBusy s = true) : step s = framerStep s := by
  rw [step_unattended h, unattended, if_pos hb]

theorem step_waiting {s : State} (h : s.schedule = []) (hb : isBusy s = false) : step s = .next s := by
  rw [step_unattended h, unattended, if_neg (by simp [hb])]

/-- A scheduled event is taken off the schedule and dealt with by phase. -/
theorem step_event {s : State} {e : Event} {rest : List Event} (h : s.schedule = e :: rest) :
    step s = event e { s with schedule := rest } := by
  unfold step machineStep; rw [h]

theorem step_event_busy {s : State} {e : Event} {rest : List Event} (h : s.schedule = e :: rest)
    (hb : isBusy s = true) : step s = busyEvent e { s with schedule := rest } := by
  rw [step_event h, event, if_pos (by simpa [isBusy] using hb)]

theorem step_event_idle {s : State} {e : Event} {rest : List Event} (h : s.schedule = e :: rest)
    (hb : isBusy s = false) : step s = idleEvent e { s with schedule := rest } := by
  rw [step_event h, event, if_neg (by simpa [isBusy] using hb)]

/-- An event put first, while a command runs. -/
theorem step_scheduled_busy (s : State) (e : Event) (rest : List Event) (hb : isBusy s = true) :
    step { s with schedule := e :: rest } = busyEvent e { s with schedule := rest } := step_event_busy rfl hb

/-- An event put first, while none runs. -/
theorem step_scheduled_idle (s : State) (e : Event) (rest : List Event) (hb : isBusy s = false) :
    step { s with schedule := e :: rest } = idleEvent e { s with schedule := rest } := step_event_idle rfl hb

/-- Everything a step can be. -/
theorem step_cases (s : State) :
    (s.schedule = [] ∧ isBusy s = true ∧ step s = framerStep s) ∨
    (s.schedule = [] ∧ isBusy s = false ∧ step s = .next s) ∨
    (∃ e rest, s.schedule = e :: rest ∧ isBusy s = true ∧ step s = busyEvent e { s with schedule := rest }) ∨
    (∃ e rest, s.schedule = e :: rest ∧ isBusy s = false ∧ step s = idleEvent e { s with schedule := rest }) := by
  cases hs : s.schedule with
  | nil =>
    cases hb : isBusy s
    · exact .inr (.inl ⟨rfl, rfl, step_waiting hs hb⟩)
    · exact .inl ⟨rfl, rfl, step_framer hs hb⟩
  | cons e rest =>
    cases hb : isBusy s
    · exact .inr (.inr (.inr ⟨e, rest, rfl, rfl, step_event_idle hs hb⟩))
    · exact .inr (.inr (.inl ⟨e, rest, rfl, rfl, step_event_busy hs hb⟩))

/-- A framer's step by its working storage. -/
theorem framerStep_primitive {s : State} {i : Instr} (h : s.work = some (.primitive i)) : framerStep s = exec i s := by
  unfold framerStep; rw [h]

theorem framerStep_encode {s : State} {drawn : Bool} {todo coded : List (List Nat)}
    (h : s.work = some (.encode drawn todo coded)) : framerStep s = .next (encStep drawn todo coded s) := by
  unfold framerStep; rw [h]

theorem framerStep_decode {s : State} {received out : List (List Nat)} {c : CwState}
    (h : s.work = some (.decode received out)) (hc : cwStateOf s.status = some c) :
    framerStep s = .next (decStep received out c s) := by
  unfold framerStep; rw [h]; simp only [hc]

theorem command_ends (checks : Checks) (outs : List Output) (effect : State → State) (s : State) :
    (∃ f, command checks outs effect s = .next (faultEntry f outs s)) ∨
    (∃ t, command checks outs effect s = .next (complete t)) := by
  rcases command_cases (rfl : command checks outs effect s = _) with ⟨f, _, h⟩ | ⟨_, h⟩
  exacts [.inl ⟨f, h⟩, .inr ⟨_, h⟩]

theorem pipeline_ends (checks : Checks) (outs : List Output) (effect : State → Option State) (s : State) :
    (∃ f, pipeline checks outs effect s = .next (faultEntry f outs s)) ∨
    (∃ t, pipeline checks outs effect s = .next (complete t)) := by
  rcases pipeline_cases (rfl : pipeline checks outs effect s = _) with ⟨f, _, h⟩ | ⟨_, _, h⟩ | ⟨t, _, _, h⟩
  exacts [.inl ⟨f, h⟩, .inl ⟨_, h⟩, .inr ⟨t, h⟩]

/-! Each command as its checks, outputs and effect. -/

theorem exec_bits2bytes (s : State) : exec .bits2bytes s =
    command (bits2bytesChecks s) [.vout] (fun s => { s with vout := bitsToVals s.bin s.w }) s := rfl

theorem exec_bytes2bits (s : State) : exec .bytes2bits s =
    command (bytes2bitsChecks s) [.bout] (fun s => { s with bout := valsToBits s.vin s.w }) s := rfl

theorem exec_bytes2chars (s : State) : exec .bytes2chars s =
    command (charChecks s) [.vout] (fun s => { s with vout := s.vin.map (fun v => (chr v).toNat) }) s := rfl

theorem exec_chars2bytes (s : State) : exec .chars2bytes s =
    command (charChecks s) [.vout] (fun s => { s with vout := s.vin.map (fun c => ord (BitVec.ofNat 8 c)) }) s := rfl

theorem exec_pad (s : State) : exec .pad s =
    command (padChecks s) [.bout] (fun s => { s with bout := padToMultiple s.bin s.w }) s := rfl

theorem exec_frame (s : State) : exec .frame s =
    command (frameChecks s) [.vout, .ncw]
      (fun s => { s with vout := unframed (framed s.vin s.w), ncw := s.vin.length / s.w }) s := rfl

theorem exec_mkperm (drawn : Bool) (s : State) : exec (.mkperm drawn) s =
    command (mkpermChecks s) [.perm] (fun s => countDraw drawn { s with perm := makePermutation drawn s.w s }) s := rfl

theorem exec_ilv (s : State) : exec .ilv s =
    command (interleaveChecks s) [.bout] (fun s => { s with bout := interleave s.bin s.perm }) s := rfl

theorem exec_dilv (s : State) : exec .dilv s =
    command (interleaveChecks s) [.bout] (fun s => { s with bout := deinterleave s.bin s.perm }) s := rfl

theorem exec_enc (drawn : Bool) (s : State) : exec (.enc drawn) s =
    pipeline (encChecks s) [.bout, .perm, .ncw, .cwidx] (encEffect drawn) s := rfl

theorem exec_dec (permuted : Bool) (s : State) : exec (.dec permuted) s =
    pipeline (decChecks permuted s) [.bout, .cwstat, .ncw, .cwidx] (decEffect permuted) s := rfl

/-- Every command ends in a next state: its fault's entry, or a completion. -/
theorem exec_cases (i : Instr) (s : State) :
    (∃ f, exec i s = .next (faultEntry f (listedOutputs i) s)) ∨ (∃ t, exec i s = .next (complete t)) := by
  cases i <;>
    simp only [exec_bits2bytes, exec_bytes2bits, exec_bytes2chars, exec_chars2bytes, exec_pad, exec_frame, exec_mkperm,
      exec_ilv, exec_dilv, exec_enc, exec_dec, listedOutputs] <;>
    first
    | exact command_ends _ _ _ s
    | exact pipeline_ends _ _ _ s

end Sys2Proof.Machine
end

