-- ==== Sys2Proof/Tests/Slice0.lean ====
section
/-!
SUPPORT. Tests against spec/: well-formedness, the bits of every command, the worked vectors of 95_test_vectors.md (each
named in its comment, its expected value copied from there), and for every obligation with hypotheses a witness of them.
-/

namespace Sys2Proof.Tests

open Sys2Proof.Machine

/-! Small states and views. -/

/-- Bytes as bits, most significant first. -/
def byteBits (bytes : List Nat) : List Bit := bytes.flatMap (fun x => [7, 6, 5, 4, 3, 2, 1, 0].map (fun t => x.testBit t))

/-- Binary digits as bits. -/
def bits (digits : List Nat) : List Bit := digits.map (fun d => d = 1)

/-- Parameters with every capacity `c`, values of 8 bits, and a codec. -/
def capped (c : Nat) (codec : CodecRef) : Platform :=
  { capBits := some c, capVals := some c, capPerm := some c, valw := some 8, idxw := none, codec := codec }

/-- A state whose BIN holds `bin` and whose W is `w`. -/
def withBits (bin : List Bit) (w : Nat) : State := { State.reset with bin := bin, w := w }

/-- A state whose VIN holds `vin` and whose W is `w`. -/
def withVals (vin : List Nat) (w : Nat) : State := { State.reset with vin := vin, w := w }

/-- A state whose BIN and PERM are given. -/
def withPerm (bin : List Bit) (perm : List Nat) : State := { State.reset with bin := bin, perm := perm }

/-- A state ready for a pipeline command: a codec, (n, k), and BIN given as bytes. -/
def withCodec (codec : CodecRef) (n k : Nat) (bytes : List Nat) : State :=
  { State.reset with platform := { Platform.unbounded with codec := codec }, n := n, k := k, bin := byteBits bytes }

/-- `s` with every capacity `c`, and values of 8 bits. -/
def capTo (c : Nat) (s : State) : State := { s with platform := capped c s.platform.codec }

/-- A running DEC with one received codeword, its machine in the state `status` says. -/
def running (codec : CodecRef) (status : BitVec 16) (ncw : Nat) (received : List (List Nat)) : State :=
  { withCodec codec 3 2 [] with
    status := status, ncw := ncw, cwstat := List.replicate ncw false, work := some (.decode received []) }

/-- A running ENC with one message of two bytes to encode. -/
def encoding (codec : CodecRef) : State :=
  { withCodec codec 3 2 [] with status := 0x0001, ncw := 1, work := some (.encode false [[72, 105]] []) }

/-- PAD accepted and not yet carried out, on one bit, within finite parameters. -/
def padPending : State :=
  { capTo 8 (withBits [true] 8) with status := 0x0001, work := some (.primitive .pad) }

/-- What a view sees of the next state, if there is one. -/
def after {α : Type} (view : State → α) (o : Host.Outcome State Fault Refusal) : Option α :=
  match o with
  | .next t => some (view t)
  | .fault _ => none
  | .refused _ => none

/-! Well-formedness: one ill-formed word for each check (R91, R94), and ill-formed parameters (R7). -/

theorem test_reservedBits_refused : reservedBitsZero 0x4A = false ∧ wordWellFormed 0x4A = false := by decide
theorem test_opcode_refused : opcodeAssigned 0x0C = false ∧ wordWellFormed 0x0C = false := by decide
theorem test_flagI_refused : flagsFitFormat 0x11 = false ∧ wordWellFormed 0x11 = false := by decide
theorem test_flagP_refused : flagsFitFormat 0x27 = false ∧ wordWellFormed 0x27 = false := by decide
theorem test_dec_flagI_refused : flagsFitFormat 0x1B = false ∧ wordWellFormed 0x1B = false := by decide
theorem test_valw_refused : Platform.wf { Platform.unbounded with valw := some 7 } = false := by decide
theorem test_idxw_refused : Platform.wf { capped 8 .sR with idxw := some 3 } = false := by decide
theorem test_platform_accepted : Platform.wf { capped 7 .sR with idxw := some 3 } = true := by decide

/-- The canonical form refuses a BIN beyond its capacity and a VIN element beyond its width. -/
theorem test_memory_refused :
    Memory.wf (capTo 1 (withBits [true, true] 1)) = false ∧ Memory.wf (capTo 1 (withVals [256] 1)) = false := by decide

/-! Decoding: the words of R93, bit by bit as R91 lays them out (00, P, I, opcode). -/

theorem test_word_bits2bytes : decode 0b00000001 = .command .bits2bytes := by decide
theorem test_word_bytes2bits : decode 0b00000010 = .command .bytes2bits := by decide
theorem test_word_bytes2chars : decode 0b00000011 = .command .bytes2chars := by decide
theorem test_word_chars2bytes : decode 0b00000100 = .command .chars2bytes := by decide
theorem test_word_pad : decode 0b00000101 = .command .pad := by decide
theorem test_word_frame : decode 0b00000110 = .command .frame := by decide
theorem test_word_mkperm : decode 0b00000111 = .command (.mkperm false) := by decide
theorem test_word_mkperm_i : decode 0b00010111 = .command (.mkperm true) := by decide
theorem test_word_ilv : decode 0b00001000 = .command .ilv := by decide
theorem test_word_dilv : decode 0b00001001 = .command .dilv := by decide
theorem test_word_enc : decode 0b00001010 = .command (.enc false) := by decide
theorem test_word_enc_i : decode 0b00011010 = .command (.enc true) := by decide
theorem test_word_dec : decode 0b00001011 = .command (.dec false) := by decide
theorem test_word_dec_p : decode 0b00101011 = .command (.dec true) := by decide

/-- V-CMD-1 to V-CMD-10. -/
theorem test_words_illegal :
    ∀ c ∈ ([0x00, 0x0C, 0x0D, 0x0E, 0x0F, 0x11, 0x28, 0x27, 0x2A, 0x1B, 0x3B, 0x3A, 0x4A, 0x8B, 0xCA, 0xFF, 0x10,
      0x20] : List Byte), after State.status (step { State.reset with schedule := [.issue c] }) = some 0x0013 := by decide

/-- The table's numbering is that of the byte; a bit above the row's width is not read. -/
theorem test_table_word : decodeTableWord 8 0x2B = some (.dec true) ∧ decodeTableWord 8 0x12B = some (.dec true) := by
  decide

/-! One step of each command. -/

/-- V-CONV-5 -/
theorem test_bits2bytes :
    after (fun t => (t.status, t.vout)) (exec .bits2bytes (withBits (bits [1, 1, 1, 1, 1, 1, 1, 1, 0, 0, 0, 0, 0, 0, 0, 0,
      1, 0, 0, 0, 0, 0, 0, 0, 0, 0, 0, 0, 0, 0, 0, 1]) 8)) = some (0x0002, [255, 0, 128, 1]) := by decide

/-- V-CONV-9: code 3 beats 8. -/
theorem test_bits2bytes_width : after State.status (exec .bits2bytes (withBits [true] 0)) = some 0x0033 := by decide

/-- V-CONV-12: most significant digit first. -/
theorem test_bytes2bits :
    after (fun t => (t.status, t.bout)) (exec .bytes2bits (withVals [5] 8)) =
      some (0x0002, bits [0, 0, 0, 0, 0, 1, 0, 1]) := by decide

/-- V-CONV-17: 4 does not fit two digits. -/
theorem test_bytes2bits_range : after State.status (exec .bytes2bits (withVals [4] 2)) = some 0x0093 := by decide

/-- V-CONV-23 -/
theorem test_bytes2chars :
    after (fun t => (t.status, t.vout)) (exec .bytes2chars (withVals [0, 255] 0)) = some (0x0002, [0, 255]) := by decide

/-- V-CONV-24 -/
theorem test_bytes2chars_range : after State.status (exec .bytes2chars (withVals [256] 0)) = some 0x0093 := by decide

/-- V-CONV-25 -/
theorem test_chars2bytes :
    after (fun t => (t.status, t.vout)) (exec .chars2bytes (withVals [65] 0)) = some (0x0002, [65]) := by decide

/-- V-CONV-26 -/
theorem test_chars2bytes_range : after State.status (exec .chars2bytes (withVals [300, 1] 0)) = some 0x0093 := by decide

/-- V-PAD-1 -/
theorem test_pad :
    after (fun t => (t.status, t.bout)) (exec .pad (withBits (bits [1, 1, 0, 0, 0, 0, 0, 0, 0, 1]) 8)) =
      some (0x0002, bits [0, 0, 0, 0, 0, 0, 1, 1, 0, 0, 0, 0, 0, 0, 0, 1]) := by decide

/-- V-PAD-8a: a whole block gets no padding. -/
theorem test_pad_none :
    after State.bout (exec .pad (withBits (List.replicate 24 true) 24)) = some (List.replicate 24 true) := by decide

/-- V-FRM-1 -/
theorem test_frame :
    after (fun t => (t.status, t.vout, t.ncw)) (exec .frame (withVals [1, 2, 3, 4, 5, 6] 3)) =
      some (0x0002, [1, 2, 3, 4, 5, 6], 2) := by decide

/-- V-FRM-8 -/
theorem test_frame_divides : after State.status (exec .frame (withVals [1, 2, 3, 4, 5, 6] 4)) = some 0x0083 := by decide

/-- V-ILV-10 -/
theorem test_mkperm :
    after (fun t => (t.status, t.perm)) (exec (.mkperm false) (withBits [] 4)) = some (0x0002, [0, 1, 2, 3]) := by decide

/-- V-ILV-13: the only permutation of one. -/
theorem test_mkperm_i : after State.perm (exec (.mkperm true) (withBits [] 1)) = some [0] := by
  have h : drawnPerm 0 1 = [0] := by simp [drawnPerm]
  exact congrArg some h

/-- V-ILV-1 -/
theorem test_ilv :
    after (fun t => (t.status, t.bout)) (exec .ilv (withPerm (bits [1, 0, 1, 1, 0, 0, 1, 0]) [3, 0, 7, 1, 6, 2, 5, 4])) =
      some (0x0002, bits [0, 1, 0, 1, 0, 1, 0, 1]) := by decide

/-- V-ILV-6: a repeated entry. -/
theorem test_ilv_invalid :
    after State.status (exec .ilv (withPerm (bits [1, 0, 1]) [0, 1, 1])) = some 0x0073 := by decide

/-- V-ILV-3, which separates the readings of 90_conflicts.md C1. -/
theorem test_dilv :
    after (fun t => (t.status, t.bout)) (exec .dilv (withPerm (bits [0, 1, 0]) [1, 2, 0])) =
      some (0x0002, bits [1, 0, 0]) := by decide

/-- V-ILV-5 -/
theorem test_dilv_length : after State.status (exec .dilv (withPerm (bits [1, 0, 1]) [0, 1])) = some 0x0063 := by decide

/-- V-ENC-5: padding on the left, two codewords. -/
theorem test_enc :
    after (fun t => (t.status, t.bout, t.ncw, t.cwidx, t.perm)) (exec (.enc false) (withCodec .xorP 3 2 [72, 105, 33])) =
      some (0x0002, byteBits [72, 0, 72, 72, 105, 33], 2, 2, List.range 48) := by decide

/-- V-ENC-F6: an answer of the wrong length. -/
theorem test_enc_protocol :
    after State.status (exec (.enc false) (withCodec .sBadE 5 3 [1, 2, 3])) = some 0x00B3 := by decide

/-- V-DEC-5: two codewords fall back, one is corrected. -/
theorem test_dec :
    after (fun t => (t.status, t.bout, t.cwstat, t.ncw, t.cwidx))
      (exec (.dec false) (withCodec .xorP 3 2 [30, 245, 20, 54, 30, 40, 14, 50, 61])) =
      some (0x0002, byteBits [245, 20, 30, 40, 50, 61], [false, true, false], 3, 3) := by decide

/-- V-DEC-8: de-interleaved by the permutation given. -/
theorem test_dec_p :
    after (fun t => (t.status, t.bout, t.cwstat)) (exec (.dec true) { withCodec .xorP 3 2 [40, 65, 105] with
      perm := [3, 10, 17, 0, 7, 14, 21, 4, 11, 18, 1, 8, 15, 22, 5, 12, 19, 2, 9, 16, 23, 6, 13, 20] }) =
      some (0x0002, byteBits [72, 105], [true]) := by decide

/-! The machine around the commands. -/

/-- V-RST-1 -/
theorem test_reset : State.reset.status = 0x0000 ∧ (List.range 12).map (fun r => registerValue r State.reset) =
    List.replicate 12 (some 0) := by decide

/-- V-RST-3: reset during DEC. -/
theorem test_reset_while_busy :
    after (fun t => (t.status, t.ncw, t.cwidx, t.bin, t.bout, t.cwstat, t.work))
      (step { running .xorP 0x0101 3 [[30, 245, 20], [54, 30, 40], [14, 50, 61]] with
        cwidx := 1, schedule := [.reset] }) = some (0x0000, 0, 0, [], [], [], none) := rfl

/-- 95 section 2.9: CHECK of codeword 0 of V-DEC-5 leads to FALLBACK, of codeword 1 to DECODE. -/
theorem test_check :
    after State.status (step (running .xorP 0x0101 1 [[30, 245, 20]])) = some 0x0301 ∧
    after State.status (step (running .xorP 0x0101 1 [[54, 30, 40]])) = some 0x0201 := by decide

/-- The host, while a command runs, sees STATUS (R30) and may not write (R268). -/
theorem test_busy_access :
    after State.hostData (step { padPending with schedule := [.read 1] }) = some (.number 1) ∧
    after State.hostData (step { padPending with schedule := [.write 2 5] }) = none := by decide

/-- LOOPBACK moves BOUT to BIN (R97). -/
theorem test_loopback :
    after State.bin (step { State.reset with bout := [true, false], schedule := scriptLoopback }) =
      some [true, false] := by decide

/-! Witnesses: for each obligation with hypotheses, data that meets them all, clause by clause at the boundaries. -/

theorem within_some {v c : Nat} (h : v ≤ c) : within v (some c) := fun _ e => Option.some.inj e ▸ h
theorem within_none (v : Nat) : within v none := fun _ e => nomatch e
theorem not_within_some {v c : Nat} (h : c < v) : ¬ within v (some c) := fun w => absurd (w c rfl) (by omega)

theorem witness_StepRunsTheIssuedCommand :
    isBusy State.reset = false ∧ decode 0x05 = .command .pad ∧ decodeTableWord 8 0x05 = some .pad := by decide

theorem witness_IllegalBytesFaultAndTouchNothing :
    isBusy State.reset = false ∧ (0x00 : Byte) ∉ legalCommandBytes ∧ (0x0C : Byte) ∉ legalCommandBytes ∧
    (0xFF : Byte) ∉ legalCommandBytes := by decide

theorem witness_DecodeAndEncodeAgree :
    (Instr.dec true).wellFormed = true ∧ decode 0x2B = .command (.dec true) := by decide

theorem witness_Bits2bytes_width :
    (withBits [] 0).w = 0 ∧ ¬ within (capTo 8 (withBits [] 9)).w (capTo 8 (withBits [] 9)).platform.valw :=
  ⟨rfl, not_within_some (by decide)⟩

theorem witness_Bits2bytes_divides :
    1 ≤ (capTo 8 (withBits [true] 2)).w ∧ within (capTo 8 (withBits [true] 2)).w (capTo 8 (withBits [true] 2)).platform.valw ∧
    (capTo 8 (withBits [true] 2)).bin.length % (capTo 8 (withBits [true] 2)).w ≠ 0 :=
  ⟨by decide, within_some (by decide), by decide⟩

theorem witness_Bits2bytes_capacity :
    1 ≤ (capTo 0 (withBits [true] 1)).w ∧ within (capTo 0 (withBits [true] 1)).w (capTo 0 (withBits [true] 1)).platform.valw ∧
    (capTo 0 (withBits [true] 1)).bin.length % (capTo 0 (withBits [true] 1)).w = 0 ∧
    ¬ within ((capTo 0 (withBits [true] 1)).bin.length / (capTo 0 (withBits [true] 1)).w)
      (capTo 0 (withBits [true] 1)).platform.capVals :=
  ⟨by decide, within_some (by decide), by decide, not_within_some (by decide)⟩

theorem witness_Bits2bytes_result :
    1 ≤ (capTo 1 (withBits (byteBits [65]) 8)).w ∧
    within (capTo 1 (withBits (byteBits [65]) 8)).w (capTo 1 (withBits (byteBits [65]) 8)).platform.valw ∧
    (capTo 1 (withBits (byteBits [65]) 8)).bin.length % (capTo 1 (withBits (byteBits [65]) 8)).w = 0 ∧
    within ((capTo 1 (withBits (byteBits [65]) 8)).bin.length / (capTo 1 (withBits (byteBits [65]) 8)).w)
      (capTo 1 (withBits (byteBits [65]) 8)).platform.capVals :=
  ⟨by decide, within_some (by decide), by decide, within_some (by decide)⟩

theorem witness_Bytes2bits_width : (withVals [1] 0).w = 0 := rfl

theorem witness_Bytes2bits_range :
    1 ≤ (withVals [2] 1).w ∧ ∃ x ∈ (withVals [2] 1).vin, 2 ^ (withVals [2] 1).w - 1 < x :=
  ⟨by decide, 2, by decide, by decide⟩

theorem witness_Bytes2bits_capacity :
    1 ≤ (capTo 0 (withVals [1] 1)).w ∧
    (∀ x ∈ (capTo 0 (withVals [1] 1)).vin, x ≤ 2 ^ (capTo 0 (withVals [1] 1)).w - 1) ∧
    ¬ within ((capTo 0 (withVals [1] 1)).w * (capTo 0 (withVals [1] 1)).vin.length)
      (capTo 0 (withVals [1] 1)).platform.capBits :=
  ⟨by decide, by decide, not_within_some (by decide)⟩

theorem witness_Bytes2bits_result :
    1 ≤ (capTo 1 (withVals [1] 1)).w ∧
    (∀ x ∈ (capTo 1 (withVals [1] 1)).vin, x ≤ 2 ^ (capTo 1 (withVals [1] 1)).w - 1) ∧
    within ((capTo 1 (withVals [1] 1)).w * (capTo 1 (withVals [1] 1)).vin.length)
      (capTo 1 (withVals [1] 1)).platform.capBits :=
  ⟨by decide, by decide, within_some (by decide)⟩

theorem witness_Character_range : ∃ x ∈ (withVals [256] 0).vin, 255 < x := ⟨256, by decide, by decide⟩

theorem witness_Character_capacity :
    (∀ x ∈ (capTo 0 (withVals [255] 0)).vin, x ≤ 255) ∧
    ¬ within (capTo 0 (withVals [255] 0)).vin.length (capTo 0 (withVals [255] 0)).platform.capVals :=
  ⟨by decide, not_within_some (by decide)⟩

theorem witness_Character_result :
    (∀ x ∈ (capTo 1 (withVals [255] 0)).vin, x ≤ 255) ∧
    within (capTo 1 (withVals [255] 0)).vin.length (capTo 1 (withVals [255] 0)).platform.capVals :=
  ⟨by decide, within_some (by decide)⟩

/-- The length PAD makes of one bit at W = 8 is 8: one over a capacity of 7, and at a capacity of 8. -/
theorem witness_Pad :
    (withBits [true] 0).w = 0 ∧ 1 ≤ (capTo 7 (withBits [true] 8)).w ∧
    ¬ within ((capTo 7 (withBits [true] 8)).w *
      (((capTo 7 (withBits [true] 8)).bin.length + (capTo 7 (withBits [true] 8)).w - 1) / (capTo 7 (withBits [true] 8)).w))
      (capTo 7 (withBits [true] 8)).platform.capBits ∧
    within ((capTo 8 (withBits [true] 8)).w *
      (((capTo 8 (withBits [true] 8)).bin.length + (capTo 8 (withBits [true] 8)).w - 1) / (capTo 8 (withBits [true] 8)).w))
      (capTo 8 (withBits [true] 8)).platform.capBits :=
  ⟨rfl, by decide, not_within_some (by decide), within_some (by decide)⟩

theorem witness_Frame :
    (withVals [1] 0).w = 0 ∧ (1 ≤ (withVals [1] 2).w ∧ (withVals [1] 2).vin.length % (withVals [1] 2).w ≠ 0) ∧
    (1 ≤ (capTo 0 (withVals [1] 1)).w ∧ (capTo 0 (withVals [1] 1)).vin.length % (capTo 0 (withVals [1] 1)).w = 0 ∧
      ¬ within (capTo 0 (withVals [1] 1)).vin.length (capTo 0 (withVals [1] 1)).platform.capVals) ∧
    (1 ≤ (capTo 1 (withVals [1] 1)).w ∧ (capTo 1 (withVals [1] 1)).vin.length % (capTo 1 (withVals [1] 1)).w = 0 ∧
      within (capTo 1 (withVals [1] 1)).vin.length (capTo 1 (withVals [1] 1)).platform.capVals) :=
  ⟨rfl, by decide, ⟨by decide, by decide, not_within_some (by decide)⟩, by decide, by decide, within_some (by decide)⟩

theorem witness_Mkperm :
    ¬ within (capTo 0 (withBits [] 1)).w (capTo 0 (withBits [] 1)).platform.capPerm ∧
    within (capTo 1 (withBits [] 1)).w (capTo 1 (withBits [] 1)).platform.capPerm ∧
    within (capTo 0 (withBits [] 0)).w (capTo 0 (withBits [] 0)).platform.capPerm :=
  ⟨not_within_some (by decide), within_some (by decide), within_some (by decide)⟩

/-- The three clauses of ILV and DILV, the last also at length 0. -/
theorem witness_Interleave :
    (withPerm (bits [1, 0, 1]) [0, 1]).perm.length ≠ (withPerm (bits [1, 0, 1]) [0, 1]).bin.length ∧
    ([0, 1, 3].length = (bits [1, 0, 1]).length ∧ ¬ IsPerm [0, 1, 3] (bits [1, 0, 1]).length) ∧
    IsPerm [1, 2, 0] (bits [1, 0, 0]).length ∧ IsPerm [] ([] : List Bit).length := by decide

/-- The clauses of ENC's admission: n or k zero, k above n, a codec that does not accept, 8 coded bits above 7. -/
theorem witness_EncAdmission :
    ((withCodec .sR 0 3 []).n = 0 ∧ (withCodec .sR 3 0 []).k = 0) ∧
    (1 ≤ (withCodec .sR 1 2 []).n ∧ (withCodec .sR 1 2 []).n < (withCodec .sR 1 2 []).k) ∧
    codecAccepts .xorP 5 3 = false ∧
    (codecAccepts .sR 1 1 = true ∧
      ¬ (within (8 * 1 * messageCount (capTo 7 (withCodec .sR 1 1 [65]))) (some 7) ∧
        within (8 * 1 * messageCount (capTo 7 (withCodec .sR 1 1 [65]))) (some 7))) :=
  ⟨by decide, by decide, by decide, by decide, fun h => not_within_some (by decide) h.1⟩

theorem witness_EncAdmission_next : ∃ t, exec (.enc false) (withCodec .sR 1 1 [65]) = .next t := ⟨_, rfl⟩

/-- A codec whose codeword is short: every codeword breaks the contract. -/
theorem witness_EncScatters_protocol :
    encAdmitted (withCodec .sBadE 5 3 [1, 2, 3]) ∧ 0 < messageCount (withCodec .sBadE 5 3 [1, 2, 3]) ∧
    (codewordBytes (withCodec .sBadE 5 3 [1, 2, 3]) 0).length ≠ (withCodec .sBadE 5 3 [1, 2, 3]).n :=
  ⟨⟨by decide, by decide, by decide, by decide, within_none _, within_none _⟩, by decide,
    by simp [codewordBytes, messageBytes, codecEncode, withCodec]⟩

/-- 8 coded bits at capacities of 8. -/
theorem witness_EncScatters_result :
    encAdmitted (capTo 8 (withCodec .sR 1 1 [65])) ∧
    ∀ j, j < messageCount (capTo 8 (withCodec .sR 1 1 [65])) →
      (codewordBytes (capTo 8 (withCodec .sR 1 1 [65])) j).length = (capTo 8 (withCodec .sR 1 1 [65])).n :=
  ⟨⟨by decide, by decide, by decide, by decide, within_some (by decide), within_some (by decide)⟩,
    fun j _ => by simp [codewordBytes, messageBytes, codecEncode, withCodec, capTo, capped]⟩

/-- The clauses of DEC's admission; the first three are those of ENC. -/
theorem witness_DecAdmission :
    codecAccepts .sR 5 3 = true ∧ codecAccepts .sR 1 1 = true ∧
    [0, 1].length ≠ (byteBits [0, 0, 0, 0, 0]).length ∧
    ([0, 0].length = (bits [1, 0]).length ∧ ¬ IsPerm [0, 0] (bits [1, 0]).length) ∧
    (IsPerm [1, 0] (bits [1, 0]).length ∧ (bits [1, 0]).length % 8 ≠ 0) ∧
    ((byteBits [1, 2, 3, 4]).length % 8 = 0 ∧ (byteBits [1, 2, 3, 4]).length / 8 % 5 ≠ 0) ∧
    ((byteBits [1]).length % 8 = 0 ∧ (byteBits [1]).length / 8 % 1 = 0 ∧
      ¬ within (8 * 1 * codewordCount (withCodec .sR 1 1 [1])) (some 7)) :=
  ⟨by decide, by decide, by decide, by decide, by decide, by decide, by decide, by decide, not_within_some (by decide)⟩

theorem witness_DecAdmission_last :
    within (capTo 8 (withCodec .sR 1 1 [1])).bin.length (capTo 8 (withCodec .sR 1 1 [1])).platform.capBits :=
  within_some (by decide)

/-- A codec whose message is long. -/
theorem witness_DecDelivers_protocol :
    decAdmitted false (withCodec .sBadD 5 3 [1, 2, 3, 4, 5]) ∧ 0 < codewordCount (withCodec .sBadD 5 3 [1, 2, 3, 4, 5]) ∧
    believedCorrectable false (withCodec .sBadD 5 3 [1, 2, 3, 4, 5]) 0 = true ∧
    (withCodec .sBadD 5 3 [1, 2, 3, 4, 5]).k < (correctedBytes false (withCodec .sBadD 5 3 [1, 2, 3, 4, 5]) 0).length :=
  ⟨⟨by decide, by decide, by decide, by decide, by decide, by decide, by decide, within_none _⟩, by decide, rfl,
    by simp [correctedBytes, receivedBytes, codecDecode, withCodec]⟩

theorem witness_DecDelivers_result :
    decAdmitted true { withCodec .xorP 3 2 [33, 72, 105] with perm := List.range 24 } ∧
    ∀ j, j < codewordCount { withCodec .xorP 3 2 [33, 72, 105] with perm := List.range 24 } →
      believedCorrectable true { withCodec .xorP 3 2 [33, 72, 105] with perm := List.range 24 } j = true →
      (correctedBytes true { withCodec .xorP 3 2 [33, 72, 105] with perm := List.range 24 } j).length ≤
        (withCodec .xorP 3 2 [33, 72, 105]).k :=
  ⟨⟨by decide, by decide, by decide, by decide, fun _ => by decide, by decide, by decide, within_none _⟩,
    fun j _ _ => by simp [correctedBytes, receivedBytes, codecDecode, withCodec, slice]⟩

/-- The same codeword alone, and second after another. -/
theorem witness_CodewordsAreIndependent :
    0 < codewordCount (withCodec .xorP 3 2 [54, 30, 40]) ∧
    1 < codewordCount (withCodec .xorP 3 2 [1, 1, 1, 54, 30, 40]) ∧
    receivedBytes false (withCodec .xorP 3 2 [54, 30, 40]) 0 =
      receivedBytes false (withCodec .xorP 3 2 [1, 1, 1, 54, 30, 40]) 1 ∧
    after State.status (exec (.dec false) (withCodec .xorP 3 2 [54, 30, 40])) = some 0x0002 ∧
    after State.status (exec (.dec false) (withCodec .xorP 3 2 [1, 1, 1, 54, 30, 40])) = some 0x0002 :=
  ⟨by decide, by decide, by decide, by decide, by decide⟩

/-- The least parameters DEC admits, with BIN and PERM empty, and PERM the identity on one byte. -/
theorem witness_DecCornerCases :
    (1 ≤ (withCodec .sR 1 1 []).k ∧ (withCodec .sR 1 1 []).k ≤ (withCodec .sR 1 1 []).n ∧
      codecAccepts .sR 1 1 = true ∧ (withCodec .sR 1 1 []).bin = [] ∧ (withCodec .sR 1 1 []).perm = []) ∧
    [0, 1, 2, 3, 4, 5, 6, 7] = List.range (withCodec .sR 1 1 [9]).bin.length := by decide

theorem witness_ConversionsRoundTrip :
    (1 ≤ 8 ∧ ∀ x ∈ [255, 0], x ≤ 2 ^ 8 - 1) ∧ (byteBits [65]).length % 8 = 0 := by decide

theorem witness_FramingLaws :
    [1, 2, 3].length % 3 = 0 ∧ [1, 2, 3].length % 1 = 0 ∧ ∀ r ∈ [[1, 2], [3, 4]], r.length = 2 := by decide

theorem witness_InverseOfAPermutation : IsPerm [1, 2, 0] 3 ∧ IsPerm [0] 1 := by decide

/-- A codec that decodes what it encodes, for every message of its length. -/
theorem witness_EncodeThenDecodeIsLossless :
    encAdmitted (withCodec .sL 5 3 [0, 0, 65]) ∧
    ∀ m : List Byte, m.length = 3 →
      (codecEncode .sL 5 3 m).length = 5 ∧ codecCheck .sL 5 3 (codecEncode .sL 5 3 m) = true ∧
      codecDecode .sL 5 3 (codecEncode .sL 5 3 m) = m := by
  refine ⟨⟨by decide, by decide, by decide, by decide, within_none _, within_none _⟩, fun m hm => ?_⟩
  simp [codecEncode, codecCheck, codecDecode, slice, hm]

/-- Two states that differ in everything PAD does not read. -/
theorem witness_ResultDependsOnListedOperandsOnly :
    sameOperands .pad (withBits [true] 8)
      { withBits [true] 8 with status := 0x0023, vin := [7], bout := [true], perm := [1], n := 5, ncw := 2 } := by
  simp [sameOperands, withBits]

theorem witness_next : ∃ t, exec .pad (withBits [true] 8) = .next t := ⟨_, rfl⟩

theorem witness_FaultEntry :
    ∃ t, exec .pad (withBits [true] 0) = .next t ∧ phaseOf t.status = .fault := ⟨_, rfl, by decide⟩

theorem witness_CheckChooses :
    (running .xorP 0x0001 1 [[30, 245, 20]]).schedule = [] ∧
    (running .xorP 0x0001 1 [[30, 245, 20]]).work = some (.decode [[30, 245, 20]] []) ∧
    (running .xorP 0x0001 1 [[30, 245, 20]]).status = 0x0001 ∧ (running .xorP 0x0001 1 [[30, 245, 20]]).cwidx <
      (running .xorP 0x0001 1 [[30, 245, 20]]).ncw ∧
    (running .xorP 0x0101 1 [[30, 245, 20]]).status = 0x0101 := by decide

theorem witness_DecodeState :
    (running .xorP 0x0201 1 [[54, 30, 40]]).status = 0x0201 ∧
    (codecDecode .xorP 3 2 ([54, 30, 40].map (BitVec.ofNat 8))).length = 2 ∧
    (codecDecode .sP 3 2 ([0, 0, 40].map (BitVec.ofNat 8))).length = 1 ∧
    2 < (codecDecode .sBadD 3 2 ([1, 2, 3].map (BitVec.ofNat 8))).length := by decide

theorem witness_FallbackState :
    (running .xorP 0x0301 1 [[30, 245, 20]]).status = 0x0301 ∧
    ((running .xorP 0x0301 1 [[30, 245, 20]]).cwidx = 0 ∧ [[30, 245, 20]].getD 0 [] = [30, 245, 20]) ∧
    [30, 245, 20].length = (running .xorP 0x0301 1 [[30, 245, 20]]).n ∧
    (running .xorP 0x0301 1 [[30, 245, 20]]).k ≤ (running .xorP 0x0301 1 [[30, 245, 20]]).n := by decide

/-- One codeword of two, and the last one. -/
theorem witness_DoneState :
    (running .xorP 0x0401 2 [[1, 2, 3], [4, 5, 6]]).status = 0x0401 ∧
    (running .xorP 0x0401 2 [[1, 2, 3], [4, 5, 6]]).cwidx + 1 < (running .xorP 0x0401 2 [[1, 2, 3], [4, 5, 6]]).ncw ∧
    (running .xorP 0x0401 1 [[1, 2, 3]]).ncw ≤ (running .xorP 0x0401 1 [[1, 2, 3]]).cwidx + 1 := by decide

theorem witness_EncStep :
    isBusy (encoding .xorP) = true ∧ (encoding .xorP).schedule = [] ∧
    (encoding .xorP).work = some (.encode false [[72, 105]] []) ∧
    (codecEncode .xorP 3 2 ([72, 105].map (BitVec.ofNat 8))).length = 3 ∧
    (codecEncode .sBadE 3 2 ([72, 105].map (BitVec.ofNat 8))).length ≠ 3 := by decide

theorem witness_not_busy : isBusy State.reset = false ∧ State.reset.schedule = [] := by decide

/-- A step of a running ENC that leaves it running. -/
theorem witness_CwidxAdvances :
    (encoding .xorP).schedule = [] ∧ isBusy (encoding .xorP) = true ∧
    after isBusy (step (encoding .xorP)) = some true := by decide

/-- A state that meets the invariant while a command runs, and steps. -/
theorem witness_EveryStepKeeps : Inv padPending ∧ ∃ t, step padPending = .next t :=
  ⟨⟨by decide, by decide, by unfold statusLegal; decide, by unfold registersFit; decide, by show phaseOf _ = _; decide⟩,
    _, rfl⟩

/-- Events refused while BUSY, at the register numbers next to the readable ones. -/
theorem witness_HostAccessWhileBusy :
    isBusy padPending = true ∧ ∀ e ∈ [Event.read 0, .read 2, .read 9, .read 12, .write 4 1, .issue 0x0A],
      e ≠ .framer ∧ e ≠ .wait ∧ e ≠ .reset ∧ e ∉ [Event.read 1, .read 10, .read 11] := by decide

/-- A register at its widest, the last register, the first number that is none. -/
theorem witness_HostAccessWhileNotBusy :
    fitsWidth 255 (some 8) = true ∧ registerValue 11 State.reset = some 0 ∧ (12 : Nat) ≤ 12 ∧
    registerValue 12 State.reset = none := by decide

end Sys2Proof.Tests
end

section
/-!
PROOFS. The parameters of R7 are fixed for the machine: every way a step can answer leaves them as they were.
-/

namespace Sys2Proof.Machine

/-- Where `o` answers a state, its parameters are those of `s`. -/
def KeepsPlatform (s : State) (o : Host.Outcome State Fault Refusal) : Prop :=
  ∀ t, o = .next t → t.platform = s.platform

@[simp] theorem keepsPlatform_next (s t : State) : KeepsPlatform s (.next t) ↔ t.platform = s.platform := by
  simp [KeepsPlatform]

@[simp] theorem keepsPlatform_fault (s : State) (r : Fault) : KeepsPlatform s (.fault r) := by
  simp [KeepsPlatform]

@[simp] theorem keepsPlatform_refused (s : State) (r : Refusal) : KeepsPlatform s (.refused r) := by
  simp [KeepsPlatform]

/-- Only the parameters of the state before matter. -/
theorem KeepsPlatform.congr {s s' : State} {o : Host.Outcome State Fault Refusal} (h : KeepsPlatform s o)
    (hp : s.platform = s'.platform) : KeepsPlatform s' o := fun t ht => (h t ht).trans hp

/-- A guarded answer, as the host's writes and loads are. -/
theorem keepsPlatform_ite_refused {s t : State} (b : Bool) (r : Refusal) (h : t.platform = s.platform) :
    KeepsPlatform s (if b then .next t else .refused r) := by
  cases b <;> simp [h]

/-! Commands. -/

theorem command_keepsPlatform (checks : Checks) (outs : List Output) {effect : State → State} {s : State}
    (h : (effect s).platform = s.platform) : KeepsPlatform s (command checks outs effect s) := by
  obtain ⟨f, -, ho⟩ | ⟨-, ho⟩ := command_cases (rfl : command checks outs effect s = _) <;> simp [ho, h]

theorem pipeline_keepsPlatform (checks : Checks) (outs : List Output) {effect : State → Option State} {s : State}
    (h : ∀ t, effect s = some t → t.platform = s.platform) : KeepsPlatform s (pipeline checks outs effect s) := by
  obtain ⟨f, -, ho⟩ | ⟨-, -, ho⟩ | ⟨t, -, ht, ho⟩ := pipeline_cases (rfl : pipeline checks outs effect s = _)
  · simp [ho]
  · simp [ho]
  · simp [ho, h t ht]

theorem encEffect_platform {drawn : Bool} {s t : State} (h : encEffect drawn s = some t) :
    t.platform = s.platform := by
  unfold encEffect at h
  split at h
  · simp [← Option.some.inj h]
  · cases h

theorem decEffect_platform {permuted : Bool} {s t : State} (h : decEffect permuted s = some t) :
    t.platform = s.platform := by
  unfold decEffect at h
  split at h
  · simp [← Option.some.inj h]
  · cases h

theorem exec_keepsPlatform (i : Instr) (s : State) : KeepsPlatform s (exec i s) := by
  cases i with
  | bits2bytes => rw [exec_bits2bytes]; exact command_keepsPlatform _ _ rfl
  | bytes2bits => rw [exec_bytes2bits]; exact command_keepsPlatform _ _ rfl
  | bytes2chars => rw [exec_bytes2chars]; exact command_keepsPlatform _ _ rfl
  | chars2bytes => rw [exec_chars2bytes]; exact command_keepsPlatform _ _ rfl
  | pad => rw [exec_pad]; exact command_keepsPlatform _ _ rfl
  | frame => rw [exec_frame]; exact command_keepsPlatform _ _ rfl
  | mkperm drawn => rw [exec_mkperm]; exact command_keepsPlatform _ _ (by simp)
  | ilv => rw [exec_ilv]; exact command_keepsPlatform _ _ rfl
  | dilv => rw [exec_dilv]; exact command_keepsPlatform _ _ rfl
  | enc drawn => rw [exec_enc]; exact pipeline_keepsPlatform _ _ fun _ => encEffect_platform
  | dec permuted => rw [exec_dec]; exact pipeline_keepsPlatform _ _ fun _ => decEffect_platform

theorem issueCommand_keepsPlatform (c : Byte) (s : State) : KeepsPlatform s (issueCommand c s) := by
  unfold issueCommand
  split
  · exact exec_keepsPlatform _ (storeCommand c s)
  · simp [illegalCommand]

/-! Commands run step by step. -/

theorem encStart_platform (drawn : Bool) (s : State) : (encStart drawn s).platform = s.platform := by
  unfold encStart; split <;> simp

theorem decStart_platform (permuted : Bool) (s : State) : (decStart permuted s).platform = s.platform := by
  unfold decStart; split <;> simp

theorem startInstr_platform (i : Instr) (s : State) : (startInstr i s).platform = s.platform := by
  cases i with
  | enc drawn => exact encStart_platform drawn s
  | dec permuted => exact decStart_platform permuted s
  | _ => rfl

theorem startCommand_keepsPlatform (c : Byte) (s : State) : KeepsPlatform s (startCommand c s) := by
  unfold startCommand
  split
  · simp [startInstr_platform]
  · simp [illegalCommand]

theorem encStep_platform (drawn : Bool) (todo coded : List (List Nat)) (s : State) :
    (encStep drawn todo coded s).platform = s.platform := by
  cases todo with
  | nil => simp [encStep]
  | cons m rest => simp only [encStep]; split <;> simp

theorem decStep_platform (received out : List (List Nat)) (c : CwState) (s : State) :
    (decStep received out c s).platform = s.platform := by
  cases c with
  | received => simp only [decStep, stepReceived, decFinish]; split <;> simp
  | check => simp only [decStep, stepCheck]; split <;> simp
  | decode => simp only [decStep, stepDecode]; split <;> simp
  | fallback => simp [decStep, stepFallback]
  | done => simp only [decStep, stepDone, decFinish]; split <;> simp

theorem framerStep_keepsPlatform (s : State) : KeepsPlatform s (framerStep s) := by
  unfold framerStep
  split
  · simp
  · exact exec_keepsPlatform _ s
  · simp [encStep_platform]
  · split <;> simp [decStep_platform]

/-! The host's accesses. -/

theorem writeRegister_keepsPlatform (reg v : Nat) (s : State) : KeepsPlatform s (writeRegister reg v s) := by
  match reg with
  | 0 => simp only [writeRegister]; split <;> simp [issueCommand_keepsPlatform]
  | 1 | 8 | 9 | 10 | 11 => simp [writeRegister]
  | 2 | 3 | 4 | 5 | 6 | 7 => exact keepsPlatform_ite_refused _ _ rfl
  | _ + 12 => exact keepsPlatform_refused s _

theorem loadBin_keepsPlatform (b : List Bit) (s : State) : KeepsPlatform s (loadBin b s) :=
  keepsPlatform_ite_refused _ _ rfl

theorem loadVin_keepsPlatform (v : List Nat) (s : State) : KeepsPlatform s (loadVin v s) :=
  keepsPlatform_ite_refused _ _ rfl

theorem loadPerm_keepsPlatform (p : List Nat) (s : State) : KeepsPlatform s (loadPerm p s) :=
  keepsPlatform_ite_refused _ _ rfl

theorem readRegister_keepsPlatform (reg : Nat) (s : State) : KeepsPlatform s (readRegister reg s) := by
  unfold readRegister; split <;> simp

theorem readElement_keepsPlatform (b : Buffer) (index : Nat) (s : State) : KeepsPlatform s (readElement b index s) := by
  unfold readElement; split <;> simp

/-! Events, and the step of the whole machine. -/

theorem busyEvent_keepsPlatform (e : Event) (s : State) : KeepsPlatform s (busyEvent e s) := by
  cases e with
  | framer => exact framerStep_keepsPlatform s
  | wait => exact framerStep_keepsPlatform { s with schedule := .wait :: s.schedule }
  | read reg => simp only [busyEvent]; split <;> simp [readRegister_keepsPlatform]
  | reset => simp [busyEvent]
  | _ => exact keepsPlatform_refused s _

theorem idleEvent_keepsPlatform (e : Event) (s : State) : KeepsPlatform s (idleEvent e s) := by
  cases e with
  | write reg v => exact writeRegister_keepsPlatform reg v s
  | loadBin b => exact loadBin_keepsPlatform b s
  | loadVin v => exact loadVin_keepsPlatform v s
  | loadPerm p => exact loadPerm_keepsPlatform p s
  | moveBits => exact loadBin_keepsPlatform s.bout s
  | moveValues => exact loadVin_keepsPlatform s.vout s
  | issue c => exact issueCommand_keepsPlatform c s
  | start c => exact startCommand_keepsPlatform c s
  | framer => simp [idleEvent]
  | wait => exact readRegister_keepsPlatform 1 s
  | read reg => exact readRegister_keepsPlatform reg s
  | readBuffer b => simp [idleEvent, readBuffer]
  | readElement b index => exact readElement_keepsPlatform b index s
  | reset => simp [idleEvent]

theorem step_keepsPlatform (s : State) : KeepsPlatform s (step s) := by
  obtain ⟨-, -, h⟩ | ⟨-, -, h⟩ | ⟨e, rest, -, -, h⟩ | ⟨e, rest, -, -, h⟩ := step_cases s <;> rw [h]
  · exact framerStep_keepsPlatform s
  · simp
  · exact busyEvent_keepsPlatform e { s with schedule := rest }
  · exact idleEvent_keepsPlatform e { s with schedule := rest }

/-- Settles O48: every answer of a step keeps the parameters, by the cases of the step. -/
theorem noStepChangesTheParameters : Obligations.NoStepChangesTheParameters := by
  unfold Obligations.NoStepChangesTheParameters
  exact step_keepsPlatform

end Sys2Proof.Machine
end

section
/-!
PROOFS. The admission of each command as a proposition (R237), and the pipelines' effects as what the codec's answers
make.
-/

namespace Sys2Proof.Machine

/-! Admission: a command runs exactly where each of its checks holds. -/

theorem firstFault_cons_eq_none_iff (b : Bool) (f : FaultCode) (cs : Checks) :
    firstFault ((b, f) :: cs) = none ↔ b = true ∧ firstFault cs = none := by
  cases b <;> simp

theorem bits2bytes_admitted_iff (s : State) : firstFault (bits2bytesChecks s) = none ↔
    (1 ≤ s.w ∧ widthWithin s.w s.platform.valw = true) ∧ s.bin.length % s.w = 0 ∧
    fits (s.bin.length / s.w) s.platform.capVals = true := by
  simp [-firstFault_cons, firstFault_cons_eq_none_iff, bits2bytesChecks]

theorem bytes2bits_admitted_iff (s : State) : firstFault (bytes2bitsChecks s) = none ↔
    1 ≤ s.w ∧ (∀ v ∈ s.vin, v ≤ 2 ^ s.w - 1) ∧ fits (s.w * s.vin.length) s.platform.capBits = true := by
  simp [-firstFault_cons, firstFault_cons_eq_none_iff, bytes2bitsChecks]

theorem char_admitted_iff (s : State) : firstFault (charChecks s) = none ↔
    (∀ v ∈ s.vin, v ≤ 255) ∧ fits s.vin.length s.platform.capVals = true := by
  simp [-firstFault_cons, firstFault_cons_eq_none_iff, charChecks]

theorem pad_admitted_iff (s : State) : firstFault (padChecks s) = none ↔
    1 ≤ s.w ∧ fits (padToMultiple s.bin s.w).length s.platform.capBits = true := by
  simp [-firstFault_cons, firstFault_cons_eq_none_iff, padChecks]

theorem frame_admitted_iff (s : State) : firstFault (frameChecks s) = none ↔
    1 ≤ s.w ∧ s.vin.length % s.w = 0 ∧ fits s.vin.length s.platform.capVals = true := by
  simp [-firstFault_cons, firstFault_cons_eq_none_iff, frameChecks]

theorem mkperm_admitted_iff (s : State) : firstFault (mkpermChecks s) = none ↔
    fits s.w s.platform.capPerm = true := by
  simp [-firstFault_cons, firstFault_cons_eq_none_iff, mkpermChecks]

theorem interleave_admitted_iff (s : State) : firstFault (interleaveChecks s) = none ↔
    IsPerm s.perm s.bin.length := by
  simp +contextual [-firstFault_cons, firstFault_cons_eq_none_iff, interleaveChecks, IsPerm]

theorem params_admitted_iff (s : State) : firstFault (paramChecks s) = none ↔
    (1 ≤ s.n ∧ 1 ≤ s.k) ∧ s.k ≤ s.n ∧ codecAccepts s.platform.codec s.n s.k = true := by
  simp [-firstFault_cons, firstFault_cons_eq_none_iff, paramChecks]

theorem enc_admitted_iff (s : State) : firstFault (encChecks s) = none ↔
    firstFault (paramChecks s) = none ∧ fits (8 * s.n * encCount s) s.platform.capBits = true ∧
    fits (8 * s.n * encCount s) s.platform.capPerm = true := by
  simp [-firstFault_cons, firstFault_cons_eq_none_iff, encChecks, codedChecks]

theorem dec_admitted_iff (permuted : Bool) (s : State) : firstFault (decChecks permuted s) = none ↔
    firstFault (paramChecks s) = none ∧ IsPerm (permOperand permuted s) s.bin.length ∧ s.bin.length % 8 = 0 ∧
    s.bin.length / 8 % s.n = 0 ∧ fits (8 * s.k * decCount s) s.platform.capBits = true := by
  simp +contextual [-firstFault_cons, firstFault_cons_eq_none_iff, decChecks, receivedChecks, IsPerm]

/-! The pipelines' effects: none where the codec broke its contract, else steps 4 and 5 of what it answered. -/

theorem encEffect_eq (drawn : Bool) (s : State) : encEffect drawn s =
    (encodeAll s (encMessages s)).map fun coded =>
      interleaveOut drawn (codedBits coded) { s with ncw := encCount s, cwidx := encCount s } := by
  unfold encEffect
  cases encodeAll s (encMessages s) <;> rfl

theorem decEffect_eq (permuted : Bool) (s : State) : decEffect permuted s =
    (decodeAll s (decReceived permuted s)).map fun ms =>
      { s with
        bout := decodedBits (ms.map Prod.fst), cwstat := ms.map Prod.snd, ncw := decCount s, cwidx := decCount s } := by
  unfold decEffect
  cases decodeAll s (decReceived permuted s) <;> rfl

end Sys2Proof.Machine
end

section
/-!
PROOFS. The invariant of the machine: every answer of a step meets it and no step ends in a stop. What a command leaves
needs only that registers and buffers fit (`StorageLegal`); a running command's place needs the rest.
-/

namespace Sys2Proof.Machine

/-- The part of the invariant that commands read and write: legal parameters, buffers and registers that fit. -/
def StorageLegal (s : State) : Prop := s.platform.wf = true ∧ Memory.wf s = true ∧ registersFit s

/-- An answer the invariant allows: a next state that meets it, or a refusal; never a stop of the model. -/
def Sound (o : Host.Outcome State Fault Refusal) : Prop :=
  match o with
  | .next t => Inv t
  | .fault _ => False
  | .refused _ => True

@[simp] theorem sound_next (t : State) : Sound (.next t) ↔ Inv t := .rfl
@[simp] theorem not_sound_fault (f : Fault) : ¬ Sound (.fault f) := id
@[simp] theorem sound_refused (r : Refusal) : Sound (.refused r) := trivial

/-- A guarded answer, as the host's writes and loads are. -/
theorem sound_ite_refused {b : Bool} {t : State} (r : Refusal) (h : b = true → Inv t) :
    Sound (if b then .next t else .refused r) := by
  cases b
  · exact sound_refused r
  · exact h rfl

theorem Inv.storageLegal {s : State} (h : Inv s) : StorageLegal s := by
  obtain ⟨hp, hm, -, hr, -⟩ := h
  exact ⟨hp, hm, hr⟩

/-! STATUS words. -/

theorem statusLegal_statusWord {p : Phase} {f : Option FaultCode} {c : CwState} (hf : p = .fault ↔ f.isSome)
    (hc : p ≠ .busy → c = .received) : statusLegal (statusWord p f c) := by
  obtain ⟨h1, h2⟩ := statusWord_reserved p f c
  refine ⟨h1, h2, ?_, ?_, by simp, by simpa using hc⟩
  · cases f with
    | none => simp [fcodeNumber]
    | some f => simpa [fcodeNumber] using faultNumber_le f
  · cases f with
    | none => simpa [fcodeNumber] using hf
    | some f => simpa [fcodeNumber, hf] using Nat.ne_of_gt (faultNumber_pos f)

theorem statusLegal_statusDone : statusLegal statusDone := statusLegal_statusWord (by simp) (by simp)

theorem statusLegal_statusBusy (c : CwState) : statusLegal (statusBusy c) := statusLegal_statusWord (by simp) (by simp)

theorem statusLegal_statusFault (f : FaultCode) : statusLegal (statusFault f) :=
  statusLegal_statusWord (by simp) (by simp)

/-! What ends a command, and what accepts one. -/

theorem inv_complete {s : State} (h : StorageLegal s) : Inv (complete s) := by
  obtain ⟨hp, hm, hr⟩ := h
  exact ⟨hp, Memory.wf_complete hm, statusLegal_statusDone, hr, by simp [workLegal]⟩

theorem inv_raise {s : State} (f : FaultCode) (h : StorageLegal s) : Inv (raise f s) := by
  obtain ⟨hp, hm, hr⟩ := h
  exact ⟨hp, Memory.wf_raise f hm, statusLegal_statusFault f, hr, by simp [workLegal]⟩

theorem registersFit_unspecify {s : State} (outs : List Output) (h : registersFit s) :
    registersFit (unspecify outs s) := by
  obtain ⟨hn, hk, hw, hncw, hcwidx⟩ := h
  refine ⟨hn, hk, hw, ?_, ?_⟩
  · unfold unspecify; dsimp only; split
    · exact fitsWidth_cutWidth _ _
    · exact hncw
  · unfold unspecify; dsimp only; split
    · exact fitsWidth_cutWidth _ _
    · exact hcwidx

theorem inv_faultEntry {s : State} (f : FaultCode) (outs : List Output) (h : StorageLegal s) :
    Inv (faultEntry f outs s) := by
  obtain ⟨hp, hm, hr⟩ := h
  exact inv_raise f ⟨hp, Memory.wf_unspecify outs hm, registersFit_unspecify outs hr⟩

/-- The reset word is IDLE without a fault (R32). -/
theorem status_reset : State.reset.status = statusWord .idle none .received := by decide

theorem inv_resetEntry {s : State} (h : s.platform.wf = true) : Inv (resetEntry s) := by
  have h0 (cap : Option Nat) : fits 0 cap = true := by cases cap <;> simp [fits]
  have hw (width : Option Nat) : fitsWidth 0 width = true := by cases width <;> simp [fitsWidth]
  refine ⟨h, by simp [Memory.wf, State.reset, h0], ?_, ⟨hw _, hw _, hw _, hw _, hw _⟩, ?_⟩
  · rw [resetEntry_status, status_reset]
    exact statusLegal_statusWord (by simp) (by simp)
  · show phaseOf State.reset.status ≠ .busy
    simp [status_reset]

/-! Commands as one step. -/

theorem command_sound {checks : Checks} {effect : State → State} {s : State} (outs : List Output)
    (hs : StorageLegal s) (he : firstFault checks = none → StorageLegal (effect s)) :
    Sound (command checks outs effect s) := by
  obtain ⟨f, -, ho⟩ | ⟨hc, ho⟩ := command_cases (rfl : command checks outs effect s = _) <;> rw [ho]
  · exact inv_faultEntry f outs hs
  · exact inv_complete (he hc)

theorem pipeline_sound {checks : Checks} {effect : State → Option State} {s : State} (outs : List Output)
    (hs : StorageLegal s) (he : ∀ t, firstFault checks = none → effect s = some t → StorageLegal t) :
    Sound (pipeline checks outs effect s) := by
  obtain ⟨f, -, ho⟩ | ⟨-, -, ho⟩ | ⟨t, hc, ht, ho⟩ := pipeline_cases (rfl : pipeline checks outs effect s = _) <;>
    rw [ho]
  · exact inv_faultEntry f outs hs
  · exact inv_faultEntry _ outs hs
  · exact inv_complete (he t hc ht)

theorem fitsWidth_of_lt_two_pow {v w : Nat} {width : Option Nat} (hv : v < 2 ^ w) (hw : widthWithin w width = true) :
    fitsWidth v width = true := by
  cases width with
  | none => rfl
  | some b => simpa [fitsWidth] using hv.trans_le (Nat.pow_le_pow_right two_pos (by simpa [widthWithin] using hw))

/-- Every value register holds a byte, for legal parameters (R7). -/
theorem Platform.wf_byteWidth {p : Platform} (h : p.wf = true) : widthWithin 8 p.valw = true := by
  unfold Platform.wf at h
  cases hv : p.valw with
  | none => rfl
  | some v => simp_all [widthWithin]

theorem bits2bytes_storageLegal {s : State} (h : StorageLegal s) (hc : firstFault (bits2bytesChecks s) = none) :
    StorageLegal { s with vout := bitsToVals s.bin s.w } := by
  obtain ⟨hp, hm, hr⟩ := h
  obtain ⟨⟨-, hw⟩, -, hcap⟩ := (bits2bytes_admitted_iff s).1 hc
  have hv : valuesFit (bitsToVals s.bin s.w) s.platform.capVals s.platform.valw = true := by
    simp only [valuesFit, length_bitsToVals, hcap, Bool.true_and, List.all_eq_true]
    exact fun x hx => fitsWidth_of_lt_two_pow (lt_of_mem_bitsToVals hx) hw
  exact ⟨hp, Memory.wf_set_vout hm hv, hr⟩

theorem bytes2bits_storageLegal {s : State} (h : StorageLegal s) (hc : firstFault (bytes2bitsChecks s) = none) :
    StorageLegal { s with bout := valsToBits s.vin s.w } := by
  obtain ⟨hp, hm, hr⟩ := h
  obtain ⟨-, -, hcap⟩ := (bytes2bits_admitted_iff s).1 hc
  exact ⟨hp, Memory.wf_set_bout hm (by simpa using hcap), hr⟩

/-- The character commands: any function into bytes, element by element. -/
theorem char_storageLegal {s : State} (byteOf : Nat → Byte) (h : StorageLegal s)
    (hc : firstFault (charChecks s) = none) :
    StorageLegal { s with vout := s.vin.map (fun v => (byteOf v).toNat) } := by
  obtain ⟨hp, hm, hr⟩ := h
  obtain ⟨-, hcap⟩ := (char_admitted_iff s).1 hc
  have hv : valuesFit (s.vin.map (fun v => (byteOf v).toNat)) s.platform.capVals s.platform.valw = true := by
    simp only [valuesFit, List.length_map, hcap, Bool.true_and, List.all_eq_true, List.mem_map]
    rintro _ ⟨v, -, rfl⟩
    exact fitsWidth_of_lt_two_pow (byteOf v).isLt (Platform.wf_byteWidth hp)
  exact ⟨hp, Memory.wf_set_vout hm hv, hr⟩

theorem pad_storageLegal {s : State} (h : StorageLegal s) (hc : firstFault (padChecks s) = none) :
    StorageLegal { s with bout := padToMultiple s.bin s.w } := by
  obtain ⟨hp, hm, hr⟩ := h
  obtain ⟨-, hcap⟩ := (pad_admitted_iff s).1 hc
  exact ⟨hp, Memory.wf_set_bout hm hcap, hr⟩

/-- A count that fits the registers may go to NCW. -/
theorem registersFit_set_ncw {s : State} {v : Nat} (h : registersFit s) (hv : fitsWidth v s.platform.idxw = true) :
    registersFit { s with ncw := v } := by
  obtain ⟨hn, hk, hw, -, hcwidx⟩ := h
  exact ⟨hn, hk, hw, hv, hcwidx⟩

theorem registersFit_set_cwidx {s : State} {v : Nat} (h : registersFit s) (hv : fitsWidth v s.platform.idxw = true) :
    registersFit { s with cwidx := v } := by
  obtain ⟨hn, hk, hw, hncw, -⟩ := h
  exact ⟨hn, hk, hw, hncw, hv⟩

theorem frame_storageLegal {s : State} (h : StorageLegal s) (hc : firstFault (frameChecks s) = none) :
    StorageLegal { s with vout := unframed (framed s.vin s.w), ncw := s.vin.length / s.w } := by
  obtain ⟨hp, hm, hr⟩ := h
  obtain ⟨-, hdiv, hcap⟩ := (frame_admitted_iff s).1 hc
  have ⟨_, _, _, hv, _, _⟩ := (Memory.wf_iff s).1 hm
  rw [unframed, flatten_framed _ hdiv]
  have hncw := Platform.wf_fitsWidth hp (.inr (.inl (fits_mono (Nat.div_le_self s.vin.length s.w) hcap)))
  exact ⟨hp, Memory.wf_set_vout hm hv, registersFit_set_ncw hr hncw⟩

theorem mkperm_storageLegal {s : State} (drawn : Bool) (h : StorageLegal s)
    (hc : firstFault (mkpermChecks s) = none) :
    StorageLegal (countDraw drawn { s with perm := makePermutation drawn s.w s }) := by
  obtain ⟨hp, hm, hr⟩ := h
  have hv := valuesFit_of_isPerm hp (isPerm_makePermutation drawn s.w s) ((mkperm_admitted_iff s).1 hc)
  have ht : StorageLegal { s with perm := makePermutation drawn s.w s } := ⟨hp, Memory.wf_set_perm hm hv, hr⟩
  cases drawn <;> exact ht

/-- ILV and DILV: as many bits as PERM has entries, for an admitted PERM. -/
theorem interleave_storageLegal {s : State} {b : List Bit} (hb : b.length = s.perm.length) (h : StorageLegal s)
    (hc : firstFault (interleaveChecks s) = none) : StorageLegal { s with bout := b } := by
  obtain ⟨hp, hm, hr⟩ := h
  obtain ⟨hlen, -, -⟩ := (interleave_admitted_iff s).1 hc
  have ⟨hbin, _⟩ := (Memory.wf_iff s).1 hm
  exact ⟨hp, Memory.wf_set_bout hm (by rwa [hb, hlen]), hr⟩

/-- The number of codewords fits the registers where their bits fit the buffers. -/
theorem fitsWidth_count {p : Platform} {a count : Nat} (hp : p.wf = true) (ha : 1 ≤ a)
    (h : fits (8 * a * count) p.capBits = true) : fitsWidth count p.idxw = true :=
  Platform.wf_fitsWidth hp (.inl (fits_mono (Nat.le_mul_of_pos_left count (by omega)) h))

theorem interleaveOut_storageLegal {s : State} (drawn : Bool) {cb : List Bit} (h : StorageLegal s)
    (hb : fits cb.length s.platform.capBits = true) (hperm : fits cb.length s.platform.capPerm = true) :
    StorageLegal (interleaveOut drawn cb s) := by
  obtain ⟨hp, hm, hr⟩ := h
  exact ⟨by simpa using hp, Memory.wf_interleaveOut drawn hp hm hb hperm, by simpa [registersFit] using hr⟩

theorem enc_storageLegal {drawn : Bool} {s t : State} (h : StorageLegal s) (hc : firstFault (encChecks s) = none)
    (ht : encEffect drawn s = some t) : StorageLegal t := by
  obtain ⟨hp, hm, hr⟩ := h
  obtain ⟨hparams, hb, hperm⟩ := (enc_admitted_iff s).1 hc
  obtain ⟨⟨hn, hk⟩, -, -⟩ := (params_admitted_iff s).1 hparams
  rw [encEffect_eq, Option.map_eq_some_iff] at ht
  obtain ⟨coded, hcoded, rfl⟩ := ht
  have hlen : (codedBits coded).length = 8 * s.n * encCount s := by
    rw [length_codedBits fun _ hc => length_of_mem_encodeAll hcoded hc, length_encodeAll hcoded,
      length_encMessages s hk]
  have hcount := fitsWidth_count hp hn hb
  have hs : StorageLegal { s with ncw := encCount s, cwidx := encCount s } :=
    ⟨hp, hm, registersFit_set_cwidx (registersFit_set_ncw hr hcount) hcount⟩
  exact interleaveOut_storageLegal drawn hs (hlen ▸ hb) (hlen ▸ hperm)

theorem dec_storageLegal {permuted : Bool} {s t : State} (h : StorageLegal s)
    (hc : firstFault (decChecks permuted s) = none) (ht : decEffect permuted s = some t) : StorageLegal t := by
  obtain ⟨hp, hm, hr⟩ := h
  obtain ⟨hparams, hperm, -, -, hb⟩ := (dec_admitted_iff permuted s).1 hc
  obtain ⟨⟨-, hk⟩, hkn, -⟩ := (params_admitted_iff s).1 hparams
  rw [decEffect_eq, Option.map_eq_some_iff] at ht
  obtain ⟨ms, hms, rfl⟩ := ht
  have hlen : ms.length = decCount s := by rw [length_decodeAll hms, length_decReceived hperm.1]
  have hmsg : ∀ m ∈ ms.map Prod.fst, m.length = s.k := by
    intro _ hfst
    obtain ⟨m, hmem, rfl⟩ := List.mem_map.1 hfst
    exact length_of_mem_decodeAll hms (fun _ => length_of_mem_decReceived) hkn hmem
  have hbout : fits (decodedBits (ms.map Prod.fst)).length s.platform.capBits = true := by
    rwa [length_decodedBits hmsg, List.length_map, hlen]
  have hstat : fits (ms.map Prod.snd).length s.platform.capBits = true := by
    rw [List.length_map, hlen]
    exact fits_mono (Nat.le_mul_of_pos_left _ (by omega)) hb
  have hcount := fitsWidth_count hp hk hb
  have hbuf := Memory.wf_set_cwstat (Memory.wf_set_bout hm hbout) hstat
  exact ⟨hp, Memory.wf_congr hbuf rfl rfl rfl rfl rfl rfl rfl,
    registersFit_set_cwidx (registersFit_set_ncw hr hcount) hcount⟩

/-- A command run as one step, whatever STATUS and the working storage are. -/
theorem exec_sound (i : Instr) {s : State} (h : StorageLegal s) : Sound (exec i s) := by
  cases i with
  | bits2bytes => rw [exec_bits2bytes]; exact command_sound _ h (bits2bytes_storageLegal h)
  | bytes2bits => rw [exec_bytes2bits]; exact command_sound _ h (bytes2bits_storageLegal h)
  | bytes2chars => rw [exec_bytes2chars]; exact command_sound _ h (char_storageLegal chr h)
  | chars2bytes => rw [exec_chars2bytes]; exact command_sound _ h (char_storageLegal (BitVec.ofNat 8) h)
  | pad => rw [exec_pad]; exact command_sound _ h (pad_storageLegal h)
  | frame => rw [exec_frame]; exact command_sound _ h (frame_storageLegal h)
  | mkperm drawn => rw [exec_mkperm]; exact command_sound _ h (mkperm_storageLegal drawn h)
  | ilv => rw [exec_ilv]; exact command_sound _ h (interleave_storageLegal (by simp) h)
  | dilv => rw [exec_dilv]; exact command_sound _ h (interleave_storageLegal (by simp) h)
  | enc drawn => rw [exec_enc]; exact pipeline_sound _ h fun _ => enc_storageLegal h
  | dec permuted => rw [exec_dec]; exact pipeline_sound _ h fun _ => dec_storageLegal h

theorem issueCommand_sound (c : Byte) {s : State} (h : StorageLegal s) : Sound (issueCommand c s) := by
  unfold issueCommand
  split
  · exact exec_sound _ (s := storeCommand c s) h
  · exact inv_raise _ (s := storeCommand c s) h

/-! A command accepted and left running. -/

theorem encStart_inv (drawn : Bool) {s : State} (h : StorageLegal s) : Inv (encStart drawn s) := by
  unfold encStart
  split
  next f _ => exact inv_faultEntry f encOutputs h
  next hc =>
    obtain ⟨hp, hm, hr⟩ := h
    obtain ⟨hparams, hb, hperm⟩ := (enc_admitted_iff s).1 hc
    obtain ⟨⟨hn, hk⟩, -, -⟩ := (params_admitted_iff s).1 hparams
    have hregs := registersFit_set_cwidx (registersFit_set_ncw hr (fitsWidth_count hp hn hb))
      (fitsWidth_mono (Nat.zero_le _) (fitsWidth_count hp hn hb))
    refine ⟨hp, hm, statusLegal_statusBusy _, hregs, phaseOf_statusBusy _, ?_⟩
    exact ⟨rfl, by simp [length_encMessages s hk], by simp, hb, hperm, cwStateOf_statusBusy _⟩

theorem decStart_inv (permuted : Bool) {s : State} (h : StorageLegal s) : Inv (decStart permuted s) := by
  unfold decStart
  split
  next f _ => exact inv_faultEntry f decOutputs h
  next hc =>
    obtain ⟨hp, hm, hr⟩ := h
    obtain ⟨hparams, hperm, -, -, hb⟩ := (dec_admitted_iff permuted s).1 hc
    obtain ⟨⟨-, hk⟩, hkn, -⟩ := (params_admitted_iff s).1 hparams
    have hregs := registersFit_set_cwidx (registersFit_set_ncw hr (fitsWidth_count hp hk hb))
      (fitsWidth_mono (Nat.zero_le _) (fitsWidth_count hp hk hb))
    have hstat : fits (List.replicate (decCount s) false).length s.platform.capBits = true := by
      rw [List.length_replicate]
      exact fits_mono (Nat.le_mul_of_pos_left _ (by omega)) hb
    refine ⟨hp, Memory.wf_set_cwstat hm hstat, statusLegal_statusBusy _, hregs, phaseOf_statusBusy _, ?_⟩
    exact ⟨length_decReceived hperm.1, fun _ => length_of_mem_decReceived, List.length_replicate, hkn, by simp, hb,
      by simp [codewordLegal]⟩

theorem primitiveStart_inv (i : Instr) {s : State} (h : StorageLegal s) : Inv (primitiveStart i s) := by
  obtain ⟨hp, hm, hr⟩ := h
  exact ⟨hp, hm, statusLegal_statusBusy _, hr, phaseOf_statusBusy _⟩

theorem startInstr_inv (i : Instr) {s : State} (h : StorageLegal s) : Inv (startInstr i s) := by
  cases i with
  | enc drawn => exact encStart_inv drawn h
  | dec permuted => exact decStart_inv permuted h
  | _ => exact primitiveStart_inv _ h

theorem startCommand_sound (c : Byte) {s : State} (h : StorageLegal s) : Sound (startCommand c s) := by
  unfold startCommand
  split
  · exact startInstr_inv _ (s := storeCommand c s) h
  · exact inv_raise _ (s := storeCommand c s) h

end Sys2Proof.Machine
end

section
/-!
PROOFS. Steps of a running command, the host's accesses and reset under the invariant: one case analysis of the step
settles that it keeps the invariant and that it never ends in a stop.
-/

namespace Sys2Proof.Machine

/-! Working storage (R29), by what it is. -/

theorem workLegal_none_iff {s : State} (h : s.work = none) : workLegal s ↔ phaseOf s.status ≠ .busy := by
  simp only [workLegal, h]

theorem workLegal_primitive_iff {s : State} {i : Instr} (h : s.work = some (.primitive i)) :
    workLegal s ↔ phaseOf s.status = .busy := by
  simp only [workLegal, h]

theorem workLegal_encode_iff {s : State} {drawn : Bool} {todo coded : List (List Nat)}
    (h : s.work = some (.encode drawn todo coded)) :
    workLegal s ↔ phaseOf s.status = .busy ∧ encodingLegal todo coded s := by
  simp only [workLegal, h]

theorem workLegal_decode_iff {s : State} {received out : List (List Nat)} (h : s.work = some (.decode received out)) :
    workLegal s ↔ phaseOf s.status = .busy ∧ decodingLegal received out s := by
  simp only [workLegal, h]

/-- Working storage while BUSY, none otherwise (R29). -/
theorem work_isSome_eq_isBusy {s : State} (h : workLegal s) : s.work.isSome = isBusy s := by
  rcases hw : s.work with _ | ⟨i⟩ | ⟨drawn, todo, coded⟩ | ⟨received, out⟩
  · simpa [isBusy] using (workLegal_none_iff hw).1 h
  · simpa [isBusy] using (workLegal_primitive_iff hw).1 h
  · simpa [isBusy] using ((workLegal_encode_iff hw).1 h).1
  · simpa [isBusy] using ((workLegal_decode_iff hw).1 h).1

/-! One step of ENC (R177). -/

theorem encStep_inv {s : State} {drawn : Bool} {todo coded : List (List Nat)} (h : Inv s)
    (hw : s.work = some (.encode drawn todo coded)) : Inv (encStep drawn todo coded s) := by
  obtain ⟨hp, hm, hst, hr, hwork⟩ := h
  obtain ⟨hbusy, hcwidx, hncw, hlen, hb, hperm, hcw⟩ := (workLegal_encode_iff hw).1 hwork
  cases todo with
  | nil =>
    have hbits : (codedBits coded).length = 8 * s.n * s.ncw := by
      rw [length_codedBits hlen]; simp only [List.length_nil, Nat.add_zero] at hncw; rw [hncw]
    exact inv_complete (interleaveOut_storageLegal drawn ⟨hp, hm, hr⟩ (hbits ▸ hb) (hbits ▸ hperm))
  | cons m rest =>
    simp only [encStep]
    split
    next => exact inv_faultEntry _ _ ⟨hp, hm, hr⟩
    next c hc =>
      rw [List.length_cons] at hncw
      have ⟨_, _, _, hncwFits, _⟩ := hr
      have hnext : fitsWidth (s.cwidx + 1) s.platform.idxw = true := fitsWidth_mono (by omega) hncwFits
      have hlen' : ∀ d ∈ coded ++ [c], d.length = s.n := by
        simpa [or_imp, forall_and] using ⟨hlen, length_encodeOne hc⟩
      exact ⟨hp, hm, hst, registersFit_set_cwidx hr hnext, hbusy, by simp [hcwidx],
        by simp only [List.length_append, List.length_singleton]; omega, hlen', hb, hperm, hcw⟩

/-! One step of DEC, by the state of codeword CWIDX's machine (R194 to R200). -/

/-- Where the machine stands, state by state. -/
theorem codewordLegal_received_iff {s : State} {received : List (List Nat)} {made : Nat}
    (h : cwStateOf s.status = some .received) :
    codewordLegal received made s ↔ made = s.cwidx ∧ s.cwidx ≤ s.ncw := by
  simp only [codewordLegal, h]

theorem codewordLegal_check_iff {s : State} {received : List (List Nat)} {made : Nat}
    (h : cwStateOf s.status = some .check) :
    codewordLegal received made s ↔ made = s.cwidx ∧ s.cwidx < s.ncw := by
  simp only [codewordLegal, h]

theorem codewordLegal_decode_iff {s : State} {received : List (List Nat)} {made : Nat}
    (h : cwStateOf s.status = some .decode) :
    codewordLegal received made s ↔ made = s.cwidx ∧ s.cwidx < s.ncw ∧
      askCheck s.platform.codec s.n s.k (currentCodeword received s) = true := by
  simp only [codewordLegal, h]

theorem codewordLegal_fallback_iff {s : State} {received : List (List Nat)} {made : Nat}
    (h : cwStateOf s.status = some .fallback) :
    codewordLegal received made s ↔ made = s.cwidx ∧ s.cwidx < s.ncw ∧
      askCheck s.platform.codec s.n s.k (currentCodeword received s) = false := by
  simp only [codewordLegal, h]

theorem codewordLegal_done_iff {s : State} {received : List (List Nat)} {made : Nat}
    (h : cwStateOf s.status = some .done) :
    codewordLegal received made s ↔ made = s.cwidx + 1 ∧ s.cwidx < s.ncw := by
  simp only [codewordLegal, h]

section Decoding

variable {s : State} {received out : List (List Nat)}

/-- A state of a running DEC. -/
theorem inv_of_decoding {c : CwState} (h : StorageLegal s) (hst : s.status = statusBusy c)
    (hw : s.work = some (.decode received out)) (hd : decodingLegal received out s) : Inv s := by
  obtain ⟨hp, hm, hr⟩ := h
  have hbusy : phaseOf s.status = .busy := by rw [hst, phaseOf_statusBusy]
  exact ⟨hp, hm, hst ▸ statusLegal_statusBusy c, hr, (workLegal_decode_iff hw).2 ⟨hbusy, hd⟩⟩

theorem decFinish_inv (h : StorageLegal s) (hout : ∀ m ∈ out, m.length = s.k) (hle : out.length ≤ s.ncw)
    (hcap : fits (8 * s.k * s.ncw) s.platform.capBits = true) : Inv (decFinish out s) := by
  obtain ⟨hp, hm, hr⟩ := h
  have hb : fits (decodedBits out).length s.platform.capBits = true := by
    rw [length_decodedBits hout]
    exact fits_mono (Nat.mul_le_mul_left _ hle) hcap
  exact inv_complete ⟨hp, Memory.wf_set_bout hm hb, hr⟩

variable (hd : decodingLegal received out s)
include hd

/-- The codeword whose machine runs is one of the received ones. -/
theorem length_currentCodeword (hlt : s.cwidx < s.ncw) : (currentCodeword received s).length = s.n := by
  obtain ⟨hlen, hrec, -⟩ := hd
  have hidx : s.cwidx < received.length := hlen ▸ hlt
  rw [currentCodeword, List.getD_eq_getElem _ _ hidx]
  exact hrec _ (List.getElem_mem hidx)

variable (h : StorageLegal s)
include h

/-- A message of k bytes delivered for codeword CWIDX (R197, R198). -/
theorem deliver_inv {m : List Nat} (corrected : Bit) (hmade : out.length = s.cwidx) (hlt : s.cwidx < s.ncw)
    (hmsg : m.length = s.k) : Inv (deliver received out m corrected s) := by
  obtain ⟨hp, hm, hr⟩ := h
  obtain ⟨hlen, hrec, hstat, hkn, hout, hcap, -⟩ := hd
  have ⟨_, _, hstatFits, _⟩ := (Memory.wf_iff s).1 hm
  have hset : (s.cwstat.set s.cwidx corrected).length = s.ncw := by rw [List.length_set, hstat]
  have hfit : fits (s.cwstat.set s.cwidx corrected).length s.platform.capBits = true := by
    rw [List.length_set]; exact hstatFits
  have hbuf : Memory.wf (deliver received out m corrected s) = true :=
    Memory.wf_congr (Memory.wf_set_cwstat hm hfit) rfl rfl rfl rfl rfl rfl rfl
  have hout' : ∀ x ∈ out ++ [m], x.length = s.k := by simpa [or_imp, forall_and] using ⟨hout, hmsg⟩
  exact inv_of_decoding ⟨hp, hbuf, hr⟩ rfl (deliver_work ..) ⟨hlen, hrec, hset, hkn, hout', hcap,
    (codewordLegal_done_iff (by simp)).2 ⟨by simp [hmade], hlt⟩⟩

theorem stepReceived_inv (hw : s.work = some (.decode received out)) (hc : cwStateOf s.status = some .received) :
    Inv (stepReceived out s) := by
  obtain ⟨hlen, hrec, hstat, hkn, hout, hcap, hcw⟩ := hd
  obtain ⟨hmade, hle⟩ := (codewordLegal_received_iff hc).1 hcw
  unfold stepReceived
  split
  next hlt =>
    exact inv_of_decoding (s := enterState .check s) h rfl hw ⟨hlen, hrec, hstat, hkn, hout, hcap,
      (codewordLegal_check_iff (by simp)).2 ⟨hmade, hlt⟩⟩
  next => exact decFinish_inv h hout (hmade.trans_le hle) hcap

theorem stepCheck_inv (hw : s.work = some (.decode received out)) (hc : cwStateOf s.status = some .check) :
    Inv (stepCheck received s) := by
  obtain ⟨hlen, hrec, hstat, hkn, hout, hcap, hcw⟩ := hd
  obtain ⟨hmade, hlt⟩ := (codewordLegal_check_iff hc).1 hcw
  unfold stepCheck
  split
  next hok =>
    exact inv_of_decoding (s := enterState .decode s) h rfl hw ⟨hlen, hrec, hstat, hkn, hout, hcap,
      (codewordLegal_decode_iff (by simp)).2 ⟨hmade, hlt, hok⟩⟩
  next hbad =>
    exact inv_of_decoding (s := enterState .fallback s) h rfl hw ⟨hlen, hrec, hstat, hkn, hout, hcap,
      (codewordLegal_fallback_iff (by simp)).2 ⟨hmade, hlt, Bool.eq_false_of_not_eq_true hbad⟩⟩

theorem stepDecode_inv (hc : cwStateOf s.status = some .decode) : Inv (stepDecode received out s) := by
  have ⟨_, _, _, _, _, _, hcw⟩ := hd
  obtain ⟨hmade, hlt, -⟩ := (codewordLegal_decode_iff hc).1 hcw
  unfold stepDecode
  split
  next m hm => exact deliver_inv hd h true hmade hlt (length_correctedMessage hm)
  next => exact inv_faultEntry _ _ h

theorem stepFallback_inv (hc : cwStateOf s.status = some .fallback) : Inv (stepFallback received out s) := by
  have ⟨_, _, _, hkn, _, _, hcw⟩ := hd
  obtain ⟨hmade, hlt, -⟩ := (codewordLegal_fallback_iff hc).1 hcw
  exact deliver_inv hd h false hmade hlt (length_fallbackMessage (length_currentCodeword hd hlt) hkn)

theorem stepDone_inv (hw : s.work = some (.decode received out)) (hc : cwStateOf s.status = some .done) :
    Inv (stepDone out s) := by
  obtain ⟨hlen, hrec, hstat, hkn, hout, hcap, hcw⟩ := hd
  obtain ⟨hmade, hlt⟩ := (codewordLegal_done_iff hc).1 hcw
  obtain ⟨hp, hm, hr⟩ := h
  have ⟨_, _, _, hncwFits, _⟩ := hr
  have hs : StorageLegal { s with cwidx := s.cwidx + 1 } :=
    ⟨hp, hm, registersFit_set_cwidx hr (fitsWidth_mono (show s.cwidx + 1 ≤ s.ncw from hlt) hncwFits)⟩
  unfold stepDone
  split
  next hmore =>
    exact inv_of_decoding (s := enterState .received { s with cwidx := s.cwidx + 1 }) hs rfl hw
      ⟨hlen, hrec, hstat, hkn, hout, hcap, (codewordLegal_received_iff (by simp)).2 ⟨hmade, hlt⟩⟩
  next => exact decFinish_inv hs hout (hmade.trans_le hlt) hcap

theorem decStep_inv {c : CwState} (hw : s.work = some (.decode received out)) (hc : cwStateOf s.status = some c) :
    Inv (decStep received out c s) := by
  cases c with
  | received => exact stepReceived_inv hd h hw hc
  | check => exact stepCheck_inv hd h hw hc
  | decode => exact stepDecode_inv hd h hc
  | fallback => exact stepFallback_inv hd h hc
  | done => exact stepDone_inv hd h hw hc

end Decoding

/-- One step of the framer while BUSY (R28). -/
theorem framerStep_sound {s : State} (h : Inv s) (hb : isBusy s = true) : Sound (framerStep s) := by
  have ⟨_, _, hst, _, hwork⟩ := h
  rcases hw : s.work with _ | ⟨i⟩ | ⟨drawn, todo, coded⟩ | ⟨received, out⟩
  · have := work_isSome_eq_isBusy hwork
    simp [hw, hb] at this
  · rw [framerStep_primitive hw]
    exact exec_sound i h.storageLegal
  · rw [framerStep_encode hw]
    exact encStep_inv h hw
  · obtain ⟨-, hd⟩ := (workLegal_decode_iff hw).1 hwork
    obtain ⟨-, -, -, -, hsome, -⟩ := hst
    obtain ⟨c, hc⟩ := Option.isSome_iff_exists.1 hsome
    rw [framerStep_decode hw hc]
    exact decStep_inv hd h.storageLegal hw hc

/-! The host's accesses while no command runs (R30, R33). -/

/-- No command runs: buffers and registers may change to whatever fits. -/
theorem inv_of_idle {s t : State} (h : Inv s) (hb : isBusy s = false) (ht : StorageLegal t)
    (hst : t.status = s.status) (hw : t.work = s.work) : Inv t := by
  obtain ⟨-, -, hstatus, -, hwork⟩ := h
  obtain ⟨hp, hm, hr⟩ := ht
  have hnone : s.work = none := by simpa [hb] using work_isSome_eq_isBusy hwork
  have hidle := (workLegal_none_iff hnone).1 hwork
  exact ⟨hp, hm, hst ▸ hstatus, hr, (workLegal_none_iff (hw.trans hnone)).2 (hst ▸ hidle)⟩

/-- The invariant does not speak of what the host read. -/
theorem Inv.set_hostData {s : State} (d : HostDatum) (h : Inv s) : Inv { s with hostData := d } := h

/-- The invariant does not speak of what the outside world does next. -/
theorem Inv.set_schedule {s : State} (es : List Event) (h : Inv s) : Inv { s with schedule := es } := h

theorem readRegister_sound (reg : Nat) {s : State} (h : Inv s) : Sound (readRegister reg s) := by
  unfold readRegister
  split
  next v _ => exact h.set_hostData (.number v)
  next => exact sound_refused _

theorem readElement_sound (b : Buffer) (index : Nat) {s : State} (h : Inv s) : Sound (readElement b index s) := by
  unfold readElement
  split
  next v _ => exact h.set_hostData (.number v)
  next => exact sound_refused _

section Idle

variable {s : State} (h : Inv s) (hb : isBusy s = false)
include h hb

theorem loadBin_sound (b : List Bit) : Sound (loadBin b s) := by
  obtain ⟨hp, hm, hr⟩ := h.storageLegal
  exact sound_ite_refused _ fun hfit => inv_of_idle h hb ⟨hp, Memory.wf_set_bin hm hfit, hr⟩ rfl rfl

theorem loadVin_sound (v : List Nat) : Sound (loadVin v s) := by
  obtain ⟨hp, hm, hr⟩ := h.storageLegal
  exact sound_ite_refused _ fun hfit => inv_of_idle h hb ⟨hp, Memory.wf_set_vin hm hfit, hr⟩ rfl rfl

theorem loadPerm_sound (p : List Nat) : Sound (loadPerm p s) := by
  obtain ⟨hp, hm, hr⟩ := h.storageLegal
  exact sound_ite_refused _ fun hfit => inv_of_idle h hb ⟨hp, Memory.wf_set_perm hm hfit, hr⟩ rfl rfl

theorem writeBinLen_sound (v : Nat) : Sound (writeBinLen v s) := by
  obtain ⟨hp, hm, hr⟩ := h.storageLegal
  refine sound_ite_refused _ fun hfit => inv_of_idle h hb ⟨hp, ?_, hr⟩ rfl rfl
  have hlen := (Bool.and_eq_true_iff.1 hfit).1
  exact Memory.wf_congr (Memory.wf_set_bin hm (by rwa [length_resized])) rfl rfl rfl rfl rfl rfl rfl

theorem writeVinLen_sound (v : Nat) : Sound (writeVinLen v s) := by
  obtain ⟨hp, hm, hr⟩ := h.storageLegal
  refine sound_ite_refused _ fun hfit => inv_of_idle h hb ⟨hp, ?_, hr⟩ rfl rfl
  have ⟨_, _, _, hvin, _, _⟩ := (Memory.wf_iff s).1 hm
  have hnew := valuesFit_resized v (Config.freshValue s.draws) hvin (Bool.and_eq_true_iff.1 hfit).1
  exact Memory.wf_congr (Memory.wf_set_vin hm hnew) rfl rfl rfl rfl rfl rfl rfl

theorem writePermLen_sound (v : Nat) : Sound (writePermLen v s) := by
  obtain ⟨hp, hm, hr⟩ := h.storageLegal
  refine sound_ite_refused _ fun hfit => inv_of_idle h hb ⟨hp, ?_, hr⟩ rfl rfl
  have ⟨_, _, _, _, _, hperm⟩ := (Memory.wf_iff s).1 hm
  have hnew := valuesFit_resized v (Config.freshValue s.draws) hperm (Bool.and_eq_true_iff.1 hfit).1
  exact Memory.wf_congr (Memory.wf_set_perm hm hnew) rfl rfl rfl rfl rfl rfl rfl

theorem writeRegister_sound (reg v : Nat) : Sound (writeRegister reg v s) := by
  have ⟨hp, hm, hn, hk, hw, hncw, hcwidx⟩ := h.storageLegal
  match reg with
  | 0 =>
    simp only [writeRegister]
    split
    · exact issueCommand_sound _ h.storageLegal
    · exact sound_refused _
  | 1 | 8 | 9 | 10 | 11 => exact h
  | 2 => exact sound_ite_refused _ fun hv => inv_of_idle h hb ⟨hp, hm, hv, hk, hw, hncw, hcwidx⟩ rfl rfl
  | 3 => exact sound_ite_refused _ fun hv => inv_of_idle h hb ⟨hp, hm, hn, hv, hw, hncw, hcwidx⟩ rfl rfl
  | 4 => exact sound_ite_refused _ fun hv => inv_of_idle h hb ⟨hp, hm, hn, hk, hv, hncw, hcwidx⟩ rfl rfl
  | 5 => exact writeBinLen_sound h hb v
  | 6 => exact writeVinLen_sound h hb v
  | 7 => exact writePermLen_sound h hb v
  | _ + 12 => exact sound_refused _

theorem idleEvent_sound (e : Event) : Sound (idleEvent e s) := by
  cases e with
  | write reg v => exact writeRegister_sound h hb reg v
  | loadBin b => exact loadBin_sound h hb b
  | loadVin v => exact loadVin_sound h hb v
  | loadPerm p => exact loadPerm_sound h hb p
  | moveBits => exact loadBin_sound h hb s.bout
  | moveValues => exact loadVin_sound h hb s.vout
  | issue c => exact issueCommand_sound c h.storageLegal
  | start c => exact startCommand_sound c h.storageLegal
  | framer => exact h
  | wait => exact readRegister_sound 1 h
  | read reg => exact readRegister_sound reg h
  | readBuffer b => exact h.set_hostData (bufferData b s)
  | readElement b index => exact readElement_sound b index h
  | reset => exact inv_resetEntry h.1

end Idle

/-! Events while a command runs (R268), and the step of the whole machine. -/

theorem busyEvent_sound (e : Event) {s : State} (h : Inv s) (hb : isBusy s = true) : Sound (busyEvent e s) := by
  cases e with
  | framer => exact framerStep_sound h hb
  | wait => exact framerStep_sound (h.set_schedule (.wait :: s.schedule)) hb
  | read reg =>
    simp only [busyEvent]
    split
    · exact readRegister_sound reg h
    · exact sound_refused _
  | reset => exact inv_resetEntry h.1
  | _ => exact sound_refused _

/-- The invariant, packaged once: whatever a step answers from a state that meets it is allowed by it. -/
theorem step_sound {s : State} (h : Inv s) : Sound (step s) := by
  obtain ⟨-, hb, hs⟩ | ⟨-, -, hs⟩ | ⟨e, rest, -, hb, hs⟩ | ⟨e, rest, -, hb, hs⟩ := step_cases s <;> rw [hs]
  · exact framerStep_sound h hb
  · exact h
  · exact busyEvent_sound e (h.set_schedule rest) hb
  · exact idleEvent_sound (h.set_schedule rest) hb e

/-- Settles O42: every answer of a step is allowed by the invariant, by the cases of the step. -/
theorem everyStepKeepsTheInvariant : Obligations.EveryStepKeepsTheInvariant := by
  unfold Obligations.EveryStepKeepsTheInvariant
  intro s t h ht
  simpa [ht] using step_sound h

/-- Settles O43: a stop is no answer the invariant allows. -/
theorem noStopUnderTheInvariant : Obligations.NoStopUnderTheInvariant := by
  unfold Obligations.NoStopUnderTheInvariant
  intro s f h hf
  simpa [hf] using step_sound h

/-- Settles O41: the state after reset is what a reset of itself leaves. -/
theorem resetMeetsTheInvariant : Obligations.ResetMeetsTheInvariant := by
  unfold Obligations.ResetMeetsTheInvariant
  exact inv_resetEntry (s := State.reset) (by decide)

end Sys2Proof.Machine
end

section
/-!
PROOFS. What a command may write and what its result depends on (R31, R92): the frame of every command, and two states
that agree on its listed operands.
-/

namespace Sys2Proof.Machine

/-! The frame: inputs and unlisted outputs are kept. -/

/-- `t` differs from `s` in STATUS, the working storage, the counter and the outputs `outs` at most. -/
def Frame (outs : List Output) (s t : State) : Prop := keepsInputs s t ∧ keepsOutputsExcept outs s t

theorem faultEntry_frame (f : FaultCode) (outs : List Output) (s : State) : Frame outs s (faultEntry f outs s) := by
  obtain ⟨-, -, hin, hout⟩ := faultEntry_faultedWith f outs s
  exact ⟨hin, hout⟩

theorem Frame.complete {outs : List Output} {s t : State} (h : Frame outs s t) : Frame outs s (complete t) := h

theorem frame_set_bout (b : List Bit) (s : State) : Frame [.bout] s { s with bout := b } := by
  simp [Frame, keepsInputs, keepsOutputsExcept]

theorem frame_set_vout (v : List Nat) (s : State) : Frame [.vout] s { s with vout := v } := by
  simp [Frame, keepsInputs, keepsOutputsExcept]

theorem frame_set_vout_ncw (v : List Nat) (count : Nat) (s : State) :
    Frame [.vout, .ncw] s { s with vout := v, ncw := count } := by
  simp [Frame, keepsInputs, keepsOutputsExcept]

theorem frame_countDraw_set_perm (drawn : Bool) (p : List Nat) (s : State) :
    Frame [.perm] s (countDraw drawn { s with perm := p }) := by
  simp [Frame, keepsInputs, keepsOutputsExcept]

theorem command_frame {checks : Checks} {outs : List Output} {effect : State → State} {s t : State}
    (ht : command checks outs effect s = .next t) (h : Frame outs s (effect s)) : Frame outs s t := by
  obtain ⟨f, -, ho⟩ | ⟨-, ho⟩ := command_cases ht <;> cases ho
  · exact faultEntry_frame f outs s
  · exact h.complete

theorem pipeline_frame {checks : Checks} {outs : List Output} {effect : State → Option State} {s t : State}
    (ht : pipeline checks outs effect s = .next t) (h : ∀ u, effect s = some u → Frame outs s u) : Frame outs s t := by
  obtain ⟨f, -, ho⟩ | ⟨-, -, ho⟩ | ⟨u, -, hu, ho⟩ := pipeline_cases ht <;> cases ho
  · exact faultEntry_frame f outs s
  · exact faultEntry_frame _ outs s
  · exact (h u hu).complete

theorem encEffect_frame {drawn : Bool} {s t : State} (h : encEffect drawn s = some t) : Frame encOutputs s t := by
  rw [encEffect_eq, Option.map_eq_some_iff] at h
  obtain ⟨_, -, rfl⟩ := h
  simp [Frame, keepsInputs, keepsOutputsExcept]

theorem decEffect_frame {permuted : Bool} {s t : State} (h : decEffect permuted s = some t) :
    Frame decOutputs s t := by
  rw [decEffect_eq, Option.map_eq_some_iff] at h
  obtain ⟨_, -, rfl⟩ := h
  simp [Frame, keepsInputs, keepsOutputsExcept]

/-- Every command keeps what R92 does not list as written, fault or no fault. -/
theorem exec_keepsUnlisted {i : Instr} {s t : State} (h : exec i s = .next t) : Frame (listedOutputs i) s t := by
  cases i with
  | bits2bytes => rw [exec_bits2bytes] at h; exact command_frame h (frame_set_vout _ s)
  | bytes2bits => rw [exec_bytes2bits] at h; exact command_frame h (frame_set_bout _ s)
  | bytes2chars => rw [exec_bytes2chars] at h; exact command_frame h (frame_set_vout _ s)
  | chars2bytes => rw [exec_chars2bytes] at h; exact command_frame h (frame_set_vout _ s)
  | pad => rw [exec_pad] at h; exact command_frame h (frame_set_bout _ s)
  | frame => rw [exec_frame] at h; exact command_frame h (frame_set_vout_ncw _ _ s)
  | mkperm drawn => rw [exec_mkperm] at h; exact command_frame h (frame_countDraw_set_perm drawn _ s)
  | ilv => rw [exec_ilv] at h; exact command_frame h (frame_set_bout _ s)
  | dilv => rw [exec_dilv] at h; exact command_frame h (frame_set_bout _ s)
  | enc drawn => rw [exec_enc] at h; exact pipeline_frame h (fun _ => encEffect_frame)
  | dec permuted => rw [exec_dec] at h; exact pipeline_frame h (fun _ => decEffect_frame)

/-- Settles O29: a buffer that is kept reads as before at every index. -/
theorem unlistedStateIsUnchanged : Obligations.UnlistedStateIsUnchanged := by
  unfold Obligations.UnlistedStateIsUnchanged
  intro i s t h
  obtain ⟨⟨hcmd, hn, hk, hw, hbin, hvin, hplatform, hschedule, hdata⟩, hbout, hvout, hperm, hcwstat, hncw, hcwidx⟩ :=
    exec_keepsUnlisted h
  exact ⟨hcmd, hn, hk, hw, hplatform, hschedule, hdata, by simp [bufferElement, hbin], by simp [bufferElement, hvin],
    fun ho => by simp [bufferElement, hbout ho], fun ho => by simp [bufferElement, hvout ho],
    fun ho => by simp [bufferElement, hperm ho], fun ho => by simp [bufferElement, hcwstat ho], hncw, hcwidx⟩

/-! Noninterference: the same listed operands, the same result. -/

/-- Two answers are next states with one STATUS that agree on the outputs `outs`. -/
def SameResult (outs : List Output) (a b : Host.Outcome State Fault Refusal) : Prop :=
  ∃ t t', a = .next t ∧ b = .next t' ∧ t.status = t'.status ∧ ∀ o ∈ outs, sameOutput o t t'

/-- What a fault leaves in the listed outputs depends on the parameters and the counter alone (log 4). -/
theorem faultEntry_sameOutput {f : FaultCode} {outs : List Output} {s s' : State} (hp : s.platform = s'.platform)
    (hd : s.draws = s'.draws) : ∀ o ∈ outs, sameOutput o (faultEntry f outs s) (faultEntry f outs s') := by
  intro o ho
  cases o <;> simp [sameOutput, faultEntry, unspecify, ho, hp, hd]

theorem faultEntry_sameResult (f : FaultCode) (outs : List Output) {s s' : State} (hp : s.platform = s'.platform)
    (hd : s.draws = s'.draws) : SameResult outs (.next (faultEntry f outs s)) (.next (faultEntry f outs s')) :=
  ⟨_, _, rfl, rfl, rfl, faultEntry_sameOutput hp hd⟩

theorem complete_sameOutput {o : Output} {t t' : State} (h : sameOutput o t t') :
    sameOutput o (complete t) (complete t') := by
  cases o <;> exact h

theorem complete_sameResult {outs : List Output} {t t' : State} (h : ∀ o ∈ outs, sameOutput o t t') :
    SameResult outs (.next (complete t)) (.next (complete t')) :=
  ⟨_, _, rfl, rfl, rfl, fun o ho => complete_sameOutput (h o ho)⟩

/-! The codec is asked with the parameters and the operand alone (R226). -/

theorem encodeAll_congr {s s' : State} (hp : s.platform = s'.platform) (hn : s.n = s'.n) (hk : s.k = s'.k)
    (ms : List (List Nat)) : encodeAll s ms = encodeAll s' ms := by
  have hone : encodeOne s = encodeOne s' := by funext m; simp [encodeOne, hp, hn, hk]
  induction ms with
  | nil => rfl
  | cons m ms ih => simp only [encodeAll, hone, ih]

theorem decodeAll_congr {s s' : State} (hp : s.platform = s'.platform) (hn : s.n = s'.n) (hk : s.k = s'.k)
    (rs : List (List Nat)) : decodeAll s rs = decodeAll s' rs := by
  have hone : decodeOne s = decodeOne s' := by
    funext r; simp only [decodeOne, correctedMessage, fallbackMessage, hp, hn, hk]
  induction rs with
  | nil => rfl
  | cons r rs ih => simp only [decodeAll, hone, ih]

section SameOperands

variable {s s' : State} (hp : s.platform = s'.platform) (hd : s.draws = s'.draws)
include hp hd

theorem command_sameResult {checks checks' : Checks} {outs : List Output} {effect : State → State}
    (hc : checks = checks') (he : ∀ o ∈ outs, sameOutput o (effect s) (effect s')) :
    SameResult outs (command checks outs effect s) (command checks' outs effect s') := by
  subst hc
  cases h : firstFault checks with
  | some f => rw [command_fault _ _ _ h, command_fault _ _ _ h]; exact faultEntry_sameResult f outs hp hd
  | none => rw [command_ok _ _ _ h, command_ok _ _ _ h]; exact complete_sameResult he

/-- As for a command; the codec breaks its contract in both states or in neither. -/
theorem pipeline_sameResult {checks checks' : Checks} {outs : List Output} {effect : State → Option State}
    (hc : checks = checks')
    (he : (effect s = none ∧ effect s' = none) ∨
      ∃ t t', effect s = some t ∧ effect s' = some t' ∧ ∀ o ∈ outs, sameOutput o t t') :
    SameResult outs (pipeline checks outs effect s) (pipeline checks' outs effect s') := by
  subst hc
  cases h : firstFault checks with
  | some f => rw [pipeline_fault _ _ _ h, pipeline_fault _ _ _ h]; exact faultEntry_sameResult f outs hp hd
  | none =>
    obtain ⟨h1, h2⟩ | ⟨t, t', h1, h2, ht⟩ := he
    · rw [pipeline_protocol _ h h1, pipeline_protocol _ h h2]; exact faultEntry_sameResult _ outs hp hd
    · rw [pipeline_ok _ h h1, pipeline_ok _ h h2]; exact complete_sameResult ht

theorem mkperm_sameResult (drawn : Bool) (hw : s.w = s'.w) :
    SameResult [.perm] (exec (.mkperm drawn) s) (exec (.mkperm drawn) s') := by
  rw [exec_mkperm, exec_mkperm]
  exact command_sameResult hp hd (by simp [mkpermChecks, hp, hw]) (by simp [sameOutput, makePermutation, hd, hw])

variable (hbin : s.bin = s'.bin)
include hbin

/-- ILV and DILV, whose results are functions of BIN and PERM. -/
theorem interleave_sameResult (move : List Bit → List Nat → List Bit) (hperm : s.perm = s'.perm) :
    SameResult [.bout] (command (interleaveChecks s) [.bout] (fun s => { s with bout := move s.bin s.perm }) s)
      (command (interleaveChecks s') [.bout] (fun s => { s with bout := move s.bin s.perm }) s') :=
  command_sameResult hp hd (by simp [interleaveChecks, hperm, hbin]) (by simp [sameOutput, hperm, hbin])

variable (hn : s.n = s'.n) (hk : s.k = s'.k)
include hn hk

theorem enc_sameResult (drawn : Bool) :
    SameResult encOutputs (exec (.enc drawn) s) (exec (.enc drawn) s') := by
  have hcount : encCount s = encCount s' := by simp [encCount, hbin, hk]
  have hcoded : encodeAll s (encMessages s) = encodeAll s' (encMessages s') := by
    rw [encodeAll_congr hp hn hk]; simp [encMessages, hbin, hk]
  rw [exec_enc, exec_enc]
  refine pipeline_sameResult hp hd (by simp [encChecks, paramChecks, codedChecks, hp, hn, hk, hcount]) ?_
  rw [encEffect_eq, encEffect_eq, ← hcoded]
  cases encodeAll s (encMessages s) with
  | none => exact .inl ⟨rfl, rfl⟩
  | some coded =>
    refine .inr ⟨_, _, rfl, rfl, ?_⟩
    simp [sameOutput, makePermutation, hd, hcount]

theorem dec_sameResult (permuted : Bool) (hperm : permuted = true → s.perm = s'.perm) :
    SameResult decOutputs (exec (.dec permuted) s) (exec (.dec permuted) s') := by
  have hcount : decCount s = decCount s' := by simp [decCount, hbin, hn]
  have hoperand : permOperand permuted s = permOperand permuted s' := by
    cases permuted
    · simp [permOperand, hbin]
    · simp [permOperand, hperm]
  have hdecoded : decodeAll s (decReceived permuted s) = decodeAll s' (decReceived permuted s') := by
    rw [decodeAll_congr hp hn hk]; simp [decReceived, hoperand, hbin, hn]
  rw [exec_dec, exec_dec]
  refine pipeline_sameResult hp hd
    (by simp [decChecks, paramChecks, receivedChecks, hp, hn, hk, hbin, hoperand, hcount]) ?_
  rw [decEffect_eq, decEffect_eq, ← hdecoded]
  cases decodeAll s (decReceived permuted s) with
  | none => exact .inl ⟨rfl, rfl⟩
  | some ms =>
    refine .inr ⟨_, _, rfl, rfl, ?_⟩
    simp [sameOutput, hcount]

end SameOperands

/-- States that agree on what a command reads end with the same listed results. -/
theorem exec_sameResult {i : Instr} {s s' : State} (h : sameOperands i s s') :
    SameResult (listedOutputs i) (exec i s) (exec i s') := by
  obtain ⟨hp, hd, h⟩ := h
  cases i with
  | bits2bytes =>
    obtain ⟨hbin, hw⟩ := h
    rw [exec_bits2bytes, exec_bits2bytes]
    exact command_sameResult hp hd (by simp [bits2bytesChecks, hp, hbin, hw])
      (by simp [listedOutputs, sameOutput, hbin, hw])
  | bytes2bits =>
    obtain ⟨hvin, hw⟩ := h
    rw [exec_bytes2bits, exec_bytes2bits]
    exact command_sameResult hp hd (by simp [bytes2bitsChecks, hp, hvin, hw])
      (by simp [listedOutputs, sameOutput, hvin, hw])
  | bytes2chars =>
    have hvin : s.vin = s'.vin := h
    rw [exec_bytes2chars, exec_bytes2chars]
    exact command_sameResult hp hd (by simp [charChecks, hp, hvin]) (by simp [listedOutputs, sameOutput, hvin])
  | chars2bytes =>
    have hvin : s.vin = s'.vin := h
    rw [exec_chars2bytes, exec_chars2bytes]
    exact command_sameResult hp hd (by simp [charChecks, hp, hvin]) (by simp [listedOutputs, sameOutput, hvin])
  | pad =>
    obtain ⟨hbin, hw⟩ := h
    rw [exec_pad, exec_pad]
    exact command_sameResult hp hd (by simp [padChecks, hp, hbin, hw]) (by simp [listedOutputs, sameOutput, hbin, hw])
  | frame =>
    obtain ⟨hvin, hw⟩ := h
    rw [exec_frame, exec_frame]
    exact command_sameResult hp hd (by simp [frameChecks, hp, hvin, hw]) (by simp [listedOutputs, sameOutput, hvin, hw])
  | mkperm drawn => exact mkperm_sameResult hp hd drawn h
  | ilv =>
    obtain ⟨hbin, hperm⟩ := h
    exact interleave_sameResult hp hd hbin interleave hperm
  | dilv =>
    obtain ⟨hbin, hperm⟩ := h
    exact interleave_sameResult hp hd hbin deinterleave hperm
  | enc drawn =>
    obtain ⟨hbin, hn, hk⟩ := h
    exact enc_sameResult hp hd hbin hn hk drawn
  | dec permuted =>
    obtain ⟨hbin, hn, hk, hperm⟩ := h
    exact dec_sameResult hp hd hbin hn hk permuted hperm

/-- Settles O27: the same operands give the same listed results, and the frame keeps the rest. -/
theorem resultDependsOnListedOperandsOnly : Obligations.ResultDependsOnListedOperandsOnly := by
  unfold Obligations.ResultDependsOnListedOperandsOnly
  intro i s s' h
  obtain ⟨t, t', ht, ht', hstatus, hout⟩ := exec_sameResult h
  obtain ⟨hin, hkept⟩ := exec_keepsUnlisted ht
  exact ⟨t, t', ht, ht', hstatus, hout, hin, hkept⟩

end Sys2Proof.Machine
end

section
/-!
PROOFS. CWIDX while a command runs (R28), reset's values (R32), the step that runs an issued command (R23), and the
host's accesses while none runs (R24, R25, R30, R33).
-/

namespace Sys2Proof.Machine

/-! CWIDX while BUSY: a step that ends the command leaves it not BUSY, every other one leaves CWIDX or counts it. -/

@[simp] theorem isBusy_complete (s : State) : isBusy (complete s) = false := by simp [isBusy]

@[simp] theorem isBusy_faultEntry (f : FaultCode) (outs : List Output) (s : State) :
    isBusy (faultEntry f outs s) = false := by simp [isBusy]

@[simp] theorem isBusy_decFinish (out : List (List Nat)) (s : State) : isBusy (decFinish out s) = false :=
  isBusy_complete _

theorem isBusy_of_exec {i : Instr} {s t : State} (h : exec i s = .next t) : isBusy t = false := by
  obtain ⟨f, he⟩ | ⟨u, he⟩ := exec_cases i s <;> rw [he] at h <;> cases h
  · exact isBusy_faultEntry ..
  · exact isBusy_complete u

theorem encStep_cwidx {drawn : Bool} {todo coded : List (List Nat)} {s : State}
    (h : isBusy (encStep drawn todo coded s) = true) : (encStep drawn todo coded s).cwidx = s.cwidx + 1 := by
  cases todo with
  | nil => simp [encStep] at h
  | cons m rest =>
    cases hc : encodeOne s m with
    | none => simp [encStep, hc] at h
    | some c => simp [encStep, hc]

theorem decStep_cwidx {received out : List (List Nat)} {c : CwState} {s : State}
    (h : isBusy (decStep received out c s) = true) :
    (decStep received out c s).cwidx = s.cwidx ∨ (decStep received out c s).cwidx = s.cwidx + 1 := by
  cases c with
  | received =>
    by_cases hlt : s.cwidx < s.ncw
    · simp [decStep, stepReceived, hlt]
    · simp [decStep, stepReceived, hlt] at h
  | check => left; simp only [decStep, stepCheck]; split <;> rfl
  | decode =>
    cases hm : correctedMessage s (currentCodeword received s) with
    | some m => simp [decStep, stepDecode, hm]
    | none => simp [decStep, stepDecode, hm] at h
  | fallback => exact .inl rfl
  | done =>
    by_cases hlt : s.cwidx + 1 < s.ncw
    · simp [decStep, stepDone, hlt]
    · simp [decStep, stepDone, hlt] at h

/-- Settles O40: by the working storage of the running command. -/
theorem cwidxAdvancesByOne : Obligations.CwidxAdvancesByOne := by
  unfold Obligations.CwidxAdvancesByOne
  intro s t hs hb ht htb
  rw [step_framer hs hb] at ht
  rcases hw : s.work with _ | ⟨i⟩ | ⟨drawn, todo, coded⟩ | ⟨received, out⟩
  · simp [framerStep, hw] at ht
  · rw [framerStep_primitive hw] at ht
    simp [isBusy_of_exec ht] at htb
  · rw [framerStep_encode hw] at ht
    cases ht
    exact .inr (encStep_cwidx htb)
  · cases hc : cwStateOf s.status with
    | none => simp [framerStep, hw, hc] at ht
    | some c =>
      rw [framerStep_decode hw hc] at ht
      cases ht
      exact decStep_cwidx htb

/-! Reset (R32). -/

/-- The twelve registers of R33, length registers included, hold 0. -/
theorem registerValue_reset {reg : Nat} (h : reg < 12) : registerValue reg State.reset = some 0 := by
  interval_cases reg <;> rfl

theorem bufferElement_reset (b : Buffer) (index : Nat) : bufferElement b index State.reset = none := by
  cases b <;> rfl

/-- With N and K still 0, the pipelines fault 2. -/
theorem paramChecks_reset : firstFault (paramChecks State.reset) = some .paramZero := rfl

theorem exec_enc_reset (flag : Bool) :
    exec (.enc flag) State.reset = .next (faultEntry .paramZero encOutputs State.reset) := by
  rw [exec_enc, pipeline_fault]
  simp [encChecks, paramChecks_reset]

theorem exec_dec_reset (flag : Bool) :
    exec (.dec flag) State.reset = .next (faultEntry .paramZero decOutputs State.reset) := by
  rw [exec_dec, pipeline_fault]
  simp [decChecks, paramChecks_reset]

/-- With W still 0, the commands that read it as a width or a group size fault 3. -/
theorem exec_width_reset {i : Instr} (h : i ∈ [Instr.bits2bytes, .bytes2bits, .pad, .frame]) :
    exec i State.reset = .next (faultEntry .badWidth (listedOutputs i) State.reset) := by
  simp only [List.mem_cons, List.not_mem_nil, or_false] at h
  obtain rfl | rfl | rfl | rfl := h
  · rw [exec_bits2bytes]; exact command_fault _ _ _ rfl
  · rw [exec_bytes2bits]; exact command_fault _ _ _ rfl
  · rw [exec_pad]; exact command_fault _ _ _ rfl
  · rw [exec_frame]; exact command_fault _ _ _ rfl

/-- With W still 0, MKPERM makes the permutation of nothing. -/
theorem exec_mkperm_reset (flag : Bool) :
    ∃ t, exec (.mkperm flag) State.reset = .next t ∧ t.status = statusDone ∧ t.perm = [] := by
  have hadmit : firstFault (mkpermChecks State.reset) = none := rfl
  have hlen := (isPerm_makePermutation flag State.reset.w State.reset).1
  rw [exec_mkperm, command_ok _ _ _ hadmit]
  exact ⟨_, rfl, complete_status _, by simpa using List.length_eq_zero_iff.1 hlen⟩

/-- Settles O1: each register and buffer in turn, then the first failing check of each command. -/
theorem resetLeavesZerosAndEmptyBuffers : Obligations.ResetLeavesZerosAndEmptyBuffers := by
  unfold Obligations.ResetLeavesZerosAndEmptyBuffers
  refine ⟨fun _ => registerValue_reset, bufferElement_reset, rfl, by simp [status_reset],
    by simp [status_reset, fcodeNumber], by simp [status_reset], fun flag => ⟨_, exec_enc_reset flag, ?_⟩,
    fun flag => ⟨_, exec_dec_reset flag, ?_⟩, fun i hi => ⟨_, exec_width_reset hi, ?_⟩, exec_mkperm_reset⟩
  all_goals rw [faultEntry_status, statusFault_eq]; rfl

/-! The step that runs an issued command (R23, R90). -/

theorem issueCommand_of_decode {c : Byte} {i : Instr} (h : decode c = .command i) (s : State) :
    issueCommand c s = exec i (storeCommand c s) := by
  simp only [issueCommand, h]

theorem isBusy_readyForCommand (s : State) : isBusy (readyForCommand s) = false := by
  unfold readyForCommand
  split
  · simp [isBusy]
  · next h => exact Bool.eq_false_of_not_eq_true h

theorem readyForCommand_schedule (s : State) : (readyForCommand s).schedule = s.schedule := by
  unfold readyForCommand; split <;> rfl

/-- The table's numbering of a word is that of the byte. -/
theorem tableByte_eight (w : Nat) : tableByte 8 w = BitVec.ofNat 8 w := by
  apply BitVec.eq_of_toNat_eq
  simp [tableByte]

theorem decode_of_decodeTableWord {w : Nat} {i : Instr} (h : decodeTableWord 8 w = some i) :
    decode (tableByte 8 w) = .command i := by
  unfold decodeTableWord at h
  split at h
  · next hc => rw [hc, Option.some.inj h]
  · cases h

/-- While not BUSY, issuing a byte that decodes runs its command. -/
theorem step_issue {s : State} {c : Byte} {i : Instr} (rest : List Event) (hb : isBusy s = false)
    (h : decode c = .command i) :
    step { s with schedule := .issue c :: rest } = exec i { s with schedule := rest, cmd := c } := by
  rw [step_scheduled_idle s _ rest hb]
  exact issueCommand_of_decode h _

/-- Settles O3: issuing is storing the byte and running what it decodes to, here and in a state made ready. -/
theorem stepRunsTheIssuedCommand : Obligations.StepRunsTheIssuedCommand := by
  unfold Obligations.StepRunsTheIssuedCommand
  refine ⟨fun s c rest i hb h => step_issue rest hb h, fun s w i h => ?_⟩
  have hstep := step_issue s.schedule (isBusy_readyForCommand s) (decode_of_decodeTableWord h)
  rw [State.withFetchWord, hstep, tableByte_eight, ← readyForCommand_schedule s]

/-! The host's accesses while no command runs (R24, R25, R30, R33). -/

theorem writeRegister_n {v : Nat} {s : State} (h : fitsWidth v s.platform.idxw = true) :
    writeRegister 2 v s = .next { s with n := v } := if_pos h

theorem writeRegister_k {v : Nat} {s : State} (h : fitsWidth v s.platform.idxw = true) :
    writeRegister 3 v s = .next { s with k := v } := if_pos h

theorem writeRegister_w {v : Nat} {s : State} (h : fitsWidth v s.platform.idxw = true) :
    writeRegister 4 v s = .next { s with w := v } := if_pos h

theorem readRegister_of_some {reg v : Nat} {s : State} (h : registerValue reg s = some v) :
    readRegister reg s = .next { s with hostData := .number v } := by
  simp only [readRegister, h]

theorem registerValue_of_le {reg : Nat} (h : 12 ≤ reg) (s : State) : registerValue reg s = none := by
  obtain ⟨r, rfl⟩ := Nat.exists_eq_add_of_le' h
  rfl

theorem readRegister_of_le {reg : Nat} (h : 12 ≤ reg) (s : State) :
    readRegister reg s = .refused .noSuchRegister := by
  simp only [readRegister, registerValue_of_le h]

theorem writeRegister_of_le {reg : Nat} (h : 12 ≤ reg) (v : Nat) (s : State) :
    writeRegister reg v s = .refused .noSuchRegister := by
  obtain ⟨r, rfl⟩ := Nat.exists_eq_add_of_le' h
  rfl

/-- A write of CMD issues the byte (R23). -/
theorem writeRegister_cmd (c : Byte) (s : State) : writeRegister 0 c.toNat s = issueCommand c s := by
  rw [writeRegister, if_pos c.isLt, BitVec.ofNat_toNat, BitVec.setWidth_eq]

/-- What R24 and R25 make read-only ignores a write. -/
theorem writeRegister_readOnly {reg : Nat} (h : reg ∈ [1, 8, 9, 10, 11]) (v : Nat) (s : State) :
    writeRegister reg v s = .next s := by
  simp only [List.mem_cons, List.not_mem_nil, or_false] at h
  obtain rfl | rfl | rfl | rfl | rfl := h <;> rfl

/-- Settles O45: the event is taken off the schedule, and each access is what its own lemma says. -/
theorem hostAccessWhileNotBusy : Obligations.HostAccessWhileNotBusy := by
  unfold Obligations.HostAccessWhileNotBusy
  intro s rest hb
  have hstep (e : Event) := step_scheduled_idle s e rest hb
  refine ⟨fun v hv => ⟨?_, ?_, ?_⟩, fun b => ?_, fun v => ?_, fun p => ?_, fun reg v h => ?_, fun b => ?_, fun c => ?_,
    fun reg v h => ⟨?_, ?_⟩⟩
  · rw [hstep]; exact writeRegister_n (s := { s with schedule := rest }) hv
  · rw [hstep]; exact writeRegister_k (s := { s with schedule := rest }) hv
  · rw [hstep]; exact writeRegister_w (s := { s with schedule := rest }) hv
  · rw [hstep]; rfl
  · rw [hstep]; simp [idleEvent, loadVin]
  · rw [hstep]; simp [idleEvent, loadPerm]
  · rw [hstep]; exact readRegister_of_some (s := { s with schedule := rest }) h
  · rw [hstep]; rfl
  · rw [hstep, hstep]; exact writeRegister_cmd c _
  · rw [hstep]; exact readRegister_of_le h _
  · rw [hstep]; exact writeRegister_of_le h v _

/-- Settles O46: a write of a read-only register leaves only the schedule one entry shorter. -/
theorem writesOfReadOnlyRegistersAreIgnored : Obligations.WritesOfReadOnlyRegistersAreIgnored := by
  unfold Obligations.WritesOfReadOnlyRegistersAreIgnored
  intro s rest v hb reg hreg
  rw [step_scheduled_idle s _ rest hb]
  exact writeRegister_readOnly hreg v _

end Sys2Proof.Machine
end

section
/-!
PROOFS. Inputs are preserved (R72): the host's view of them after any command, and which commands write PERM.
-/

namespace Sys2Proof.Machine

/-- CMD, N, K, W, BIN_LEN and VIN_LEN read as before where the inputs are kept. -/
theorem registerValue_of_keepsInputs {s t : State} (h : keepsInputs s t) {reg : Nat} (hreg : reg ∈ [0, 2, 3, 4, 5, 6]) :
    registerValue reg t = registerValue reg s := by
  obtain ⟨hcmd, hn, hk, hw, hbin, hvin, -⟩ := h
  simp only [List.mem_cons, List.not_mem_nil, or_false] at hreg
  obtain rfl | rfl | rfl | rfl | rfl | rfl := hreg <;> simp [registerValue, hcmd, hn, hk, hw, hbin, hvin]

theorem bufferElement_of_keepsInputs {s t : State} (h : keepsInputs s t) {b : Buffer} (hb : b ∈ [Buffer.bin, .vin])
    (index : Nat) : bufferElement b index t = bufferElement b index s := by
  obtain ⟨-, -, -, -, hbin, hvin, -⟩ := h
  simp only [List.mem_cons, List.not_mem_nil, or_false] at hb
  obtain rfl | rfl := hb
  · simp [bufferElement, hbin]
  · simp [bufferElement, hvin]

theorem perm_mem_listedOutputs_iff (i : Instr) :
    .perm ∈ listedOutputs i ↔ ∃ drawn, i = .mkperm drawn ∨ i = .enc drawn := by
  cases i <;> simp [listedOutputs]

/-- Settles O28: every command has the frame of its listed outputs, which holds no input, and PERM only for MKPERM and
ENC. -/
theorem inputsArePreserved : Obligations.InputsArePreserved := by
  unfold Obligations.InputsArePreserved
  intro i s t h
  obtain ⟨hin, -, -, hkeptPerm, -⟩ := exec_keepsUnlisted h
  have ⟨_, hn, hk, hw, hbin, hvin, _⟩ := hin
  refine ⟨hbin, hvin, hn, hk, hw, fun _ => registerValue_of_keepsInputs hin,
    fun _ => bufferElement_of_keepsInputs hin, fun hi => ?_⟩
  have hunlisted : .perm ∉ listedOutputs i := by
    rw [perm_mem_listedOutputs_iff]
    rintro ⟨drawn, hmkperm | henc⟩
    · exact (hi drawn).1 hmkperm
    · exact (hi drawn).2 henc
  have hperm := hkeptPerm hunlisted
  exact ⟨hperm, fun _ => by simp [bufferElement, hperm]⟩

end Sys2Proof.Machine
end

section
/-!
PROOFS. The encoding (R90 to R95): which bytes a row of R93 selects, the round trip of decoder and encoder, and the step
that an illegal byte makes (R94).
-/

namespace Sys2Proof.Machine

/-! The rows of R93. A row's mask leaves out at most one bit, the flag of its format (R91). -/

/-- The two words that agree with `p` outside a flag. -/
theorem eq_or_eq_or_of_and_not {c p flag : Byte} (hflag : c &&& flag = 0 ∨ c &&& flag = flag)
    (h : c &&& ~~~flag = p) : c = p ∨ c = p ||| flag := by
  have hsplit : c = (c &&& ~~~flag) ||| (c &&& flag) := by
    rw [← BitVec.and_or_distrib_left, BitVec.not_or_self, BitVec.and_allOnes]
  rw [h] at hsplit
  obtain hclear | hset := hflag
  · left; rw [hsplit, hclear]; exact BitVec.or_zero
  · right; rw [← hset]; exact hsplit

/-- The flag a format can have, by its mask: none, I in bit 4 or P in bit 5 (R91). -/
def flagMasks : List Byte := [0, BitVec.twoPow 8 4, BitVec.twoPow 8 5]

theorem and_flagMask {flag : Byte} (h : flag ∈ flagMasks) (c : Byte) : c &&& flag = 0 ∨ c &&& flag = flag := by
  have htwoPow (k : Nat) : c &&& BitVec.twoPow 8 k = 0 ∨ c &&& BitVec.twoPow 8 k = BitVec.twoPow 8 k := by
    rw [BitVec.and_twoPow]
    cases c.getLsbD k <;> simp
  simp only [flagMasks, List.mem_cons, List.not_mem_nil, or_false] at h
  obtain rfl | rfl | rfl := h
  · exact .inl BitVec.and_zero
  · exact htwoPow 4
  · exact htwoPow 5

/-- Each row's mask leaves out its format's flag, and its words with and without the flag are legal bytes. -/
theorem opcodeTable_words : ∀ r ∈ opcodeTable, ∃ flag ∈ flagMasks,
    r.mask = ~~~flag ∧ r.pattern ∈ legalCommandBytes ∧ r.pattern ||| flag ∈ legalCommandBytes := by decide

theorem mem_legalCommandBytes_of_selects {r : OpRow} {c : Byte} (hr : r ∈ opcodeTable) (h : r.selects c = true) :
    c ∈ legalCommandBytes := by
  obtain ⟨flag, hflag, hmask, hclear, hset⟩ := opcodeTable_words r hr
  have hand : c &&& ~~~flag = r.pattern := by simpa [OpRow.selects, hmask] using h
  obtain rfl | rfl := eq_or_eq_or_of_and_not (and_flagMask hflag c) hand
  · exact hclear
  · exact hset

/-- Every mask covers the opcode field, so a row selects words of its own opcode only. -/
theorem opcode_of_selects {r : OpRow} {c : Byte} (hr : r ∈ opcodeTable) (h : r.selects c = true) :
    c &&& 0x0F = r.pattern := by
  have hrow : ∀ r ∈ opcodeTable, r.mask &&& 0x0F = 0x0F ∧ r.pattern &&& 0x0F = r.pattern := by decide
  obtain ⟨hmask, hpattern⟩ := hrow r hr
  have hand : c &&& r.mask = r.pattern := by simpa [OpRow.selects] using h
  calc c &&& 0x0F = c &&& r.mask &&& 0x0F := by rw [BitVec.and_assoc, hmask]
    _ = r.pattern := by rw [hand, hpattern]

theorem opcodeTable_disjoint :
    opcodeTable.Pairwise (fun r q => ∀ c : Byte, ¬ (r.selects c = true ∧ q.selects c = true)) := by
  have hne : opcodeTable.Pairwise (fun r q => r.pattern ≠ q.pattern) := by decide
  refine hne.imp_of_mem fun hr hq hrq c hboth => hrq ?_
  rw [← opcode_of_selects hr hboth.1, ← opcode_of_selects hq hboth.2]

/-! The fourteen commands and their bytes. -/

/-- Every command term, in the order of `legalCommandBytes`. -/
def commands : List Instr :=
  [.bits2bytes, .bytes2bits, .bytes2chars, .chars2bytes, .pad, .frame, .mkperm false, .mkperm true, .ilv, .dilv,
   .enc false, .enc true, .dec false, .dec true]

theorem map_encode_commands : commands.map encode = legalCommandBytes := by decide

theorem exists_encode_of_mem {c : Byte} (h : c ∈ legalCommandBytes) : ∃ i, encode i = c := by
  rw [← map_encode_commands] at h
  obtain ⟨i, -, hi⟩ := List.mem_map.1 h
  exact ⟨i, hi⟩

theorem decode_encode (i : Instr) : decode (encode i) = .command i := by
  cases i with
  | bits2bytes | bytes2bits | bytes2chars | chars2bytes | pad | frame | ilv | dilv => decide
  | mkperm flag | enc flag | dec flag => cases flag <;> decide

/-- A byte that decodes is selected by a row. -/
theorem mem_legalCommandBytes_of_decode {c : Byte} {i : Instr} (h : decode c = .command i) :
    c ∈ legalCommandBytes := by
  unfold decode at h
  split at h
  · next hany =>
    obtain ⟨r, hr, hsel⟩ := List.any_eq_true.1 hany
    exact mem_legalCommandBytes_of_selects hr hsel
  · cases h

theorem decode_eq_command_iff {c : Byte} {i : Instr} : decode c = .command i ↔ encode i = c := by
  constructor
  · intro h
    obtain ⟨j, rfl⟩ := exists_encode_of_mem (mem_legalCommandBytes_of_decode h)
    rw [decode_encode] at h
    cases h
    rfl
  · rintro rfl
    exact decode_encode i

/-- Settles O5: each legal byte encodes its command, a byte that decodes is legal, and a row selects one opcode. -/
theorem legalBytesSelectTheirCommands : Obligations.LegalBytesSelectTheirCommands := by
  unfold Obligations.LegalBytesSelectTheirCommands
  exact ⟨decode_encode .bits2bytes, decode_encode .bytes2bits, decode_encode .bytes2chars, decode_encode .chars2bytes,
    decode_encode .pad, decode_encode .frame, decode_encode (.mkperm false), decode_encode (.mkperm true),
    decode_encode .ilv, decode_encode .dilv, decode_encode (.enc false), decode_encode (.enc true),
    decode_encode (.dec false), decode_encode (.dec true),
    fun _ hillegal _ hdecode => hillegal (mem_legalCommandBytes_of_decode hdecode), opcodeTable_disjoint⟩

/-- Settles O6: a byte decodes to a command exactly where it is the command's encoding. -/
theorem decodeAndEncodeAgree : Obligations.DecodeAndEncodeAgree := by
  unfold Obligations.DecodeAndEncodeAgree
  exact ⟨fun i _ => decode_encode i, fun _ _ => decode_eq_command_iff.1⟩

/-! Illegal bytes (R94). -/

theorem decode_of_not_mem {c : Byte} (h : c ∉ legalCommandBytes) : ∃ why, decode c = .illegal why := by
  cases hdecode : decode c with
  | command i => exact absurd (mem_legalCommandBytes_of_decode hdecode) h
  | illegal why => exact ⟨why, rfl⟩

/-- An illegal byte is stored and faults, with no effect of its own. -/
theorem illegalCommand_storeCommand (c : Byte) (s : State) :
    illegalCommand (storeCommand c s) = { s with cmd := c, status := 0x0013#16, work := none } := by
  have hstatus : statusFault .illegalCmd = 0x0013#16 := statusFault_eq _
  rw [← hstatus]
  rfl

theorem issueCommand_of_not_mem {c : Byte} (h : c ∉ legalCommandBytes) (s : State) :
    issueCommand c s = .next { s with cmd := c, status := 0x0013#16, work := none } := by
  obtain ⟨why, hwhy⟩ := decode_of_not_mem h
  simp only [issueCommand, hwhy, illegalCommand_storeCommand]

theorem startCommand_of_not_mem {c : Byte} (h : c ∉ legalCommandBytes) (s : State) :
    startCommand c s = .next { s with cmd := c, status := 0x0013#16, work := none } := by
  obtain ⟨why, hwhy⟩ := decode_of_not_mem h
  simp only [startCommand, hwhy, illegalCommand_storeCommand]

theorem ofNat_mem_legalCommandBytes_iff {v : Nat} (hv : v < 256) :
    BitVec.ofNat 8 v ∈ legalCommandBytes ↔ v ∈ legalCommandBytes.map BitVec.toNat := by
  rw [List.mem_map]
  constructor
  · exact fun h => ⟨_, h, Nat.mod_eq_of_lt hv⟩
  · rintro ⟨c, hc, rfl⟩
    simpa using hc

/-- The illegal bytes are the 256 without the fourteen. -/
theorem countP_not_mem_legalCommandBytes :
    (List.range 256).countP (fun v => decide (BitVec.ofNat 8 v ∉ legalCommandBytes)) = 242 := by
  have hfilter : (Finset.range 256).filter (fun v => BitVec.ofNat 8 v ∉ legalCommandBytes) =
      Finset.range 256 \ (legalCommandBytes.map BitVec.toNat).toFinset := by
    ext v
    simp only [Finset.mem_filter, Finset.mem_sdiff, List.mem_toFinset, Finset.mem_range]
    exact and_congr_right fun hv => not_congr (ofNat_mem_legalCommandBytes_iff hv)
  have hsub : (legalCommandBytes.map BitVec.toNat).toFinset ⊆ Finset.range 256 := by decide
  calc (List.range 256).countP (fun v => decide (BitVec.ofNat 8 v ∉ legalCommandBytes))
      = ((Finset.range 256).filter (fun v => BitVec.ofNat 8 v ∉ legalCommandBytes)).card :=
        Nat.count_eq_card_filter_range _ 256
    _ = (Finset.range 256).card - (legalCommandBytes.map BitVec.toNat).toFinset.card := by
        rw [hfilter, Finset.card_sdiff_of_subset hsub]
    _ = 242 := by rw [Finset.card_range]; decide

/-- Settles O4: such a byte decodes to no command, so issuing it and starting it raise fault 1 at once. -/
theorem illegalBytesFaultAndTouchNothing : Obligations.IllegalBytesFaultAndTouchNothing := by
  unfold Obligations.IllegalBytesFaultAndTouchNothing
  refine ⟨countP_not_mem_legalCommandBytes, fun s c rest hb hillegal => ⟨?_, ?_⟩⟩
  · rw [step_scheduled_idle s _ rest hb]
    exact issueCommand_of_not_mem hillegal _
  · rw [step_scheduled_idle s _ rest hb]
    exact startCommand_of_not_mem hillegal _

end Sys2Proof.Machine
end

section
/-!
PROOFS. The conversions (R120 to R127): their round trips (R122), and for each conversion command its faults in order
and its result.
-/

namespace Sys2Proof.Machine

/-! The admission tests as the bounds of R7, and the outcomes of a command as the rules state them. -/

theorem fits_eq_true_iff {len : Nat} {cap : Option Nat} : fits len cap = true ↔ within len cap := by
  cases cap <;> simp [fits, within]

theorem widthWithin_eq_true_iff {w : Nat} {width : Option Nat} : widthWithin w width = true ↔ within w width := by
  cases width <;> simp [widthWithin, within]

theorem complete_eq (s : State) : complete s = { s with status := 0x0002#16, work := none } := by
  rw [complete, statusDone_eq]

/-- The first failing check's fault is what R238 says of its code. -/
theorem command_faultedWith {checks : Checks} {f : FaultCode} (outs : List Output) (effect : State → State)
    (s : State) (h : firstFault checks = some f) :
    ∃ t, command checks outs effect s = .next t ∧ faultedWith (faultNumber f) outs s t :=
  ⟨_, command_fault outs effect s h, faultEntry_faultedWith f outs s⟩

/-! The round trips (R122). -/

/-- Settles O19: each conversion undoes the other, row by row. -/
theorem conversionsRoundTrip : Obligations.ConversionsRoundTrip := by
  unfold Obligations.ConversionsRoundTrip
  refine ⟨fun v w hw hv => ⟨?_, length_valsToBits v w⟩,
    fun b w _ hb => ⟨valsToBits_bitsToVals hb, length_bitsToVals b w⟩⟩
  exact bitsToVals_valsToBits hw fun x hx => (Nat.le_sub_one_iff_lt (Nat.two_pow_pos w)).1 (hv x hx)

/-! BITS2BYTES (R123). -/

/-- Value j as the sum of R9 over row j of the bits. -/
theorem getD_bitsToVals_eq_sum (b : List Bit) {w j : Nat} (h : j < b.length / w) :
    (bitsToVals b w).getD j 0 = ∑ t ∈ Finset.range w, (b.getD (w * j + t) false).toNat * 2 ^ (w - 1 - t) := by
  have hlen : (slice b (w * j) (w * j + w)).length = w := by
    have hrow := mul_add_le_of_lt_div h
    rw [length_slice]
    omega
  rw [getD_bitsToVals b h, rowValue_eq_sum, hlen]
  refine Finset.sum_congr rfl fun t ht => ?_
  rw [getD_slice _ _ _ _ _ (by simpa using ht)]

/-- Settles O7: by the first check that fails, or the value of each row where none does. -/
theorem bits2bytesReadsRowsOrFaults : Obligations.Bits2bytesReadsRowsOrFaults := by
  unfold Obligations.Bits2bytesReadsRowsOrFaults
  refine ⟨decode_encode .bits2bytes, fun s => ?_⟩
  rw [exec_bits2bytes]
  refine ⟨fun hbad => ?_, fun hw hvalw hdiv => ?_, fun hw hvalw hdiv hcap => ?_, fun hw hvalw hdiv hcap => ?_⟩
  · have hfault : firstFault (bits2bytesChecks s) = some .badWidth := by
      have hwidth : ¬ (1 ≤ s.w ∧ within s.w s.platform.valw) := by
        rintro ⟨hw, hvalw⟩
        exact hbad.elim (by omega) (absurd hvalw)
      simp [bits2bytesChecks, widthWithin_eq_true_iff, hwidth]
    exact command_faultedWith _ _ _ hfault
  · have hfault : firstFault (bits2bytesChecks s) = some .lenNotDivisible := by
      simp [bits2bytesChecks, widthWithin_eq_true_iff, hw, hvalw, hdiv]
    exact command_faultedWith _ _ _ hfault
  · have hfault : firstFault (bits2bytesChecks s) = some .capacity := by
      simp [bits2bytesChecks, widthWithin_eq_true_iff, fits_eq_true_iff, hw, hvalw, hdiv, hcap]
    exact command_faultedWith _ _ _ hfault
  · have hadmit := (bits2bytes_admitted_iff s).2
      ⟨⟨hw, widthWithin_eq_true_iff.2 hvalw⟩, hdiv, fits_eq_true_iff.2 hcap⟩
    rw [command_ok _ _ _ hadmit, complete_eq]
    exact ⟨_, rfl, length_bitsToVals _ _, fun j => getD_bitsToVals_eq_sum s.bin⟩

/-! BYTES2BITS (R124). -/

theorem decide_binaryDigit_eq_one (t x : Nat) : decide (binaryDigit t x = 1) = x.testBit t := by
  rw [binaryDigit, Nat.testBit_eq_decide_div_mod_eq]

/-- Settles O8: by the first check that fails, or the digits of each value where none does. -/
theorem bytes2bitsWritesDigitsOrFaults : Obligations.Bytes2bitsWritesDigitsOrFaults := by
  unfold Obligations.Bytes2bitsWritesDigitsOrFaults
  refine ⟨decode_encode .bytes2bits, fun s => ?_⟩
  rw [exec_bytes2bits]
  refine ⟨fun hw => ?_, fun hw hbig => ?_, fun hw hsmall hcap => ?_, fun hw hsmall hcap => ?_⟩
  · have hfault : firstFault (bytes2bitsChecks s) = some .badWidth := by simp [bytes2bitsChecks, hw]
    exact command_faultedWith _ _ _ hfault
  · have hfault : firstFault (bytes2bitsChecks s) = some .valueRange := by
      simpa [bytes2bitsChecks, hw] using hbig
    exact command_faultedWith _ _ _ hfault
  · have hfault : firstFault (bytes2bitsChecks s) = some .capacity := by
      simpa [bytes2bitsChecks, fits_eq_true_iff, hw, hcap] using hsmall
    exact command_faultedWith _ _ _ hfault
  · have hadmit := (bytes2bits_admitted_iff s).2 ⟨hw, hsmall, fits_eq_true_iff.2 hcap⟩
    rw [command_ok _ _ _ hadmit, complete_eq]
    refine ⟨_, rfl, length_valsToBits _ _, fun j t hj ht => ?_⟩
    rw [getD_valsToBits s.vin hj ht, decide_binaryDigit_eq_one]

/-! BYTES2CHARS and CHARS2BYTES (R126, R127). -/

/-- Both carry a character as its codepoint (R125), so both are one command. -/
theorem exec_char {i : Instr} (h : i = .bytes2chars ∨ i = .chars2bytes) (s : State) : exec i s =
    command (charChecks s) [.vout] (fun s => { s with vout := s.vin.map (fun v => (chr v).toNat) }) s := by
  obtain rfl | rfl := h
  · exact exec_bytes2chars s
  · exact exec_chars2bytes s

theorem map_chr_toNat {v : List Nat} (h : ∀ x ∈ v, x ≤ 255) : v.map (fun x => (chr x).toNat) = v := by
  rw [List.map_congr_left fun x hx => chr_toNat_of_le (h x hx), List.map_id']

/-- Settles O9: by the first check that fails, or the copy where none does. -/
theorem characterCommandsCopyBytesOrFault : Obligations.CharacterCommandsCopyBytesOrFault := by
  unfold Obligations.CharacterCommandsCopyBytesOrFault
  refine ⟨decode_encode .bytes2chars, decode_encode .chars2bytes, fun s i hi => ?_⟩
  rw [exec_char hi s]
  refine ⟨fun hbig => ?_, fun hsmall hcap => ?_, fun hsmall hcap => ?_⟩
  · have hfault : firstFault (charChecks s) = some .valueRange := by
      simpa [charChecks] using hbig
    exact command_faultedWith _ _ _ hfault
  · have hfault : firstFault (charChecks s) = some .capacity := by
      simpa [charChecks, fits_eq_true_iff, hcap] using hsmall
    exact command_faultedWith _ _ _ hfault
  · have hadmit := (char_admitted_iff s).2 ⟨hsmall, fits_eq_true_iff.2 hcap⟩
    rw [command_ok _ _ _ hadmit, complete_eq, map_chr_toNat hsmall]

end Sys2Proof.Machine
end

section
/-!
PROOFS. The codeword padder and the codeword framer (R140 to R145): their laws, and for PAD and FRAME the faults in
order and the result.
-/

namespace Sys2Proof.Machine

/-! The framer's laws (R144). -/

/-- Settles O21: framing and concatenation undo each other, and lengths add. -/
theorem framingLaws : Obligations.FramingLaws := by
  unfold Obligations.FramingLaws
  exact ⟨fun v _ _ hdiv => flatten_framed v hdiv, fun _ _ hg hsize => framed_flatten hg hsize,
    fun _ => List.length_flatten⟩

/-! The padder (R140) and its laws (R141). -/

/-- The pad count of R141: none at a multiple of m, and what completes the last block otherwise. -/
theorem sub_mod_mod_eq_ite {m : Nat} (hm : 1 ≤ m) (len : Nat) :
    (m - len % m) % m = if len % m = 0 then 0 else m - len % m := by
  split
  · next hzero => rw [hzero, Nat.sub_zero, Nat.mod_self]
  · next hpos => exact Nat.mod_eq_of_lt (by omega)

/-- The result is the pad, zero bits on the left, and the original bits after it. -/
theorem padToMultiple_eq_pad_append (b : List Bit) {m : Nat} (hm : 1 ≤ m) :
    padToMultiple b m = List.replicate ((m - b.length % m) % m) false ++ b := by
  rw [sub_mod_mod_eq_ite hm, padToMultiple_eq]

/-- The padded length is the blocks begun, each whole. -/
theorem length_padToMultiple_eq_mul_ceil (b : List Bit) {m : Nat} (hm : 1 ≤ m) :
    (padToMultiple b m).length = m * ((b.length + m - 1) / m) := by
  rw [← length_padToMultiple_div b hm]
  exact (Nat.mul_div_cancel' (Nat.dvd_of_mod_eq_zero (length_padToMultiple_mod b hm))).symm

theorem padToMultiple_of_mod_eq_zero {b : List Bit} {m : Nat} (h : b.length % m = 0) : padToMultiple b m = b := by
  simp [padToMultiple, h]

theorem drop_padToMultiple (b : List Bit) {m : Nat} (hm : 1 ≤ m) :
    (padToMultiple b m).drop ((m - b.length % m) % m) = b := by
  rw [padToMultiple_eq_pad_append b hm]
  exact List.drop_left' List.length_replicate

/-- Zeros on the left add nothing to the number. -/
theorem rowValue_padToMultiple (b : List Bit) (m : Nat) : rowValue (padToMultiple b m) = rowValue b := by
  rw [padToMultiple_eq, rowValue_append, rowValue_replicate_false, Nat.zero_mul, Nat.zero_add]

/-- Settles O20: a padded sequence is a whole number of blocks, so a second padding adds nothing; the other laws are of
zeros put before the original. -/
theorem paddingLaws : Obligations.PaddingLaws := by
  unfold Obligations.PaddingLaws
  intro b m hm
  have hwhole := length_padToMultiple_mod b hm
  exact ⟨hwhole, length_padToMultiple_eq_mul_ceil b hm, padToMultiple_of_mod_eq_zero hwhole, drop_padToMultiple b hm,
    padToMultiple_of_mod_eq_zero (Nat.zero_mod m), rowValue_padToMultiple b m⟩

/-! PAD (R142). -/

/-- The pad is shorter than a block, so the result is the least multiple not below the length. -/
theorem length_padToMultiple_bounds (b : List Bit) {m : Nat} (hm : 1 ≤ m) :
    b.length ≤ (padToMultiple b m).length ∧ (padToMultiple b m).length < b.length + m := by
  have hpad := Nat.mod_lt (m - b.length % m) hm
  rw [padToMultiple_eq_pad_append b hm, List.length_append, List.length_replicate]
  omega

/-- Before the original bits stand zeros. -/
theorem getD_padToMultiple_of_lt {b : List Bit} {m i : Nat} (h : i < (padToMultiple b m).length - b.length)
    (d : Bit) : (padToMultiple b m).getD i d = false := by
  rw [padToMultiple_eq, List.length_append, Nat.add_sub_cancel] at h
  rw [padToMultiple_eq, List.getD_append _ _ _ _ h, List.getD_replicate _ (by simpa using h)]

/-- The original bits stand after the pad, in order. -/
theorem getD_padToMultiple_add (b : List Bit) (m i : Nat) (d : Bit) :
    (padToMultiple b m).getD ((padToMultiple b m).length - b.length + i) d = b.getD i d := by
  rw [padToMultiple_eq, List.length_append, Nat.add_sub_cancel, List.getD_append_right _ _ _ _ (Nat.le_add_right _ _),
    Nat.add_sub_cancel_left]

/-- Settles O10: by the first check that fails, or the padded bits where none does. -/
theorem padPrependsZerosOrFaults : Obligations.PadPrependsZerosOrFaults := by
  unfold Obligations.PadPrependsZerosOrFaults
  refine ⟨decode_encode .pad, fun s => ?_⟩
  rw [exec_pad]
  refine ⟨fun hw => ?_, fun hw hcap => ?_, fun hw hcap => ?_⟩
  · have hfault : firstFault (padChecks s) = some .badWidth := by simp [padChecks, hw]
    exact command_faultedWith _ _ _ hfault
  · rw [← length_padToMultiple_eq_mul_ceil s.bin hw] at hcap
    have hfault : firstFault (padChecks s) = some .capacity := by simp [padChecks, fits_eq_true_iff, hw, hcap]
    exact command_faultedWith _ _ _ hfault
  · rw [← length_padToMultiple_eq_mul_ceil s.bin hw] at hcap ⊢
    obtain ⟨hge, hlt⟩ := length_padToMultiple_bounds s.bin hw
    rw [command_ok _ _ _ ((pad_admitted_iff s).2 ⟨hw, fits_eq_true_iff.2 hcap⟩), complete_eq]
    exact ⟨_, rfl, rfl, hge, hlt, fun i hi => getD_padToMultiple_of_lt hi true,
      fun i _ => getD_padToMultiple_add s.bin s.w i false⟩

/-! FRAME (R145). -/

/-- Settles O11: by the first check that fails, or the copy and the count of its groups where none does. -/
theorem frameCountsGroupsOrFaults : Obligations.FrameCountsGroupsOrFaults := by
  unfold Obligations.FrameCountsGroupsOrFaults
  refine ⟨decode_encode .frame, fun s => ?_⟩
  rw [exec_frame]
  refine ⟨fun hw => ?_, fun hw hdiv => ?_, fun hw hdiv hcap => ?_, fun hw hdiv hcap => ?_⟩
  · have hfault : firstFault (frameChecks s) = some .badWidth := by simp [frameChecks, hw]
    exact command_faultedWith _ _ _ hfault
  · have hfault : firstFault (frameChecks s) = some .lenNotDivisible := by simp [frameChecks, hw, hdiv]
    exact command_faultedWith _ _ _ hfault
  · have hfault : firstFault (frameChecks s) = some .capacity := by
      simp [frameChecks, fits_eq_true_iff, hw, hdiv, hcap]
    exact command_faultedWith _ _ _ hfault
  · have hcopy : unframed (framed s.vin s.w) = s.vin := flatten_framed s.vin hdiv
    rw [command_ok _ _ _ ((frame_admitted_iff s).2 ⟨hw, hdiv, fits_eq_true_iff.2 hcap⟩), complete_eq, hcopy]

end Sys2Proof.Machine
end

section
/-!
PROOFS. The bit-position interleaver (R155 to R163): the inverse of a permutation, the laws of interleaving, and for
MKPERM, ILV and DILV the faults in order and the result.
-/

namespace Sys2Proof.Machine

/-! Permutations (R155) and the laws of interleaving (R160). -/

/-- The inverse holds `i` at position p[i]. -/
theorem getD_invPerm_getD {p : List Nat} {len i : Nat} (h : IsPerm p len) (hi : i < len) :
    (invPerm p).getD (p.getD i 0) 0 = i := by
  rw [getD_invPerm (h.1.symm ▸ getD_lt_of_isPerm h hi), idxOf_getD_of_isPerm h hi]

/-- Settles O22: on the other side, position `i` of the inverse is where `p` holds `i`. -/
theorem inverseOfAPermutation : Obligations.InverseOfAPermutation := by
  unfold Obligations.InverseOfAPermutation
  refine ⟨fun p len h => ⟨isPerm_invPerm h, fun i hi => ⟨getD_invPerm_getD h hi, ?_⟩⟩, isPerm_idPerm 0⟩
  rw [getD_invPerm (h.1.symm ▸ hi), getD_idxOf_of_isPerm h hi]

/-- The inverse's own inverse finds `i` at p[i], so it is `p`. -/
theorem invPerm_invPerm {p : List Nat} {len : Nat} (h : IsPerm p len) : invPerm (invPerm p) = p := by
  refine List.ext_getElem (by simp) fun i h1 h2 => ?_
  have hi : i < len := h.1 ▸ h2
  have hfind := idxOf_getD_of_isPerm (isPerm_invPerm h) (getD_lt_of_isPerm h hi)
  rw [getD_invPerm_getD h hi, List.getD_eq_getElem _ _ h2] at hfind
  simpa [invPerm] using hfind

/-- De-interleaving is interleaving by the inverse (R160). -/
theorem deinterleave_eq_interleave_invPerm {p : List Nat} {len : Nat} (h : IsPerm p len) (b : List Bit) :
    deinterleave b p = interleave b (invPerm p) := by
  rw [interleave, invPerm_invPerm h, deinterleave]

/-- Settles O23: the laws of the two gathers, and DILV's admission, which asks for a bijection and nothing more. -/
theorem interleavingLaws : Obligations.InterleavingLaws := by
  unfold Obligations.InterleavingLaws
  intro b p h
  refine ⟨deinterleave_interleave h, interleave_deinterleave h, interleave_idPerm b, deinterleave_idPerm b,
    deinterleave_eq_interleave_invPerm h b, fun s => ?_⟩
  rw [exec_dilv, command_ok _ _ _ ((interleave_admitted_iff _).2 h)]
  exact ⟨_, rfl, statusDone_eq⟩

/-! MKPERM (R161). -/

theorem countDraw_eq (drawn : Bool) (s : State) :
    countDraw drawn s = { s with draws := if drawn then s.draws + 1 else s.draws } := by
  cases drawn <;> rfl

/-- Settles O12: by the one check, or the permutation made, which is a bijection drawn or not. -/
theorem mkpermMakesABijectionOrFaults : Obligations.MkpermMakesABijectionOrFaults := by
  unfold Obligations.MkpermMakesABijectionOrFaults
  refine ⟨decode_encode (.mkperm false), decode_encode (.mkperm true), fun s drawn => ?_⟩
  rw [exec_mkperm]
  refine ⟨fun hcap => ?_, fun hcap => ?_⟩
  · have hfault : firstFault (mkpermChecks s) = some .capacity := by simp [mkpermChecks, fits_eq_true_iff, hcap]
    exact command_faultedWith _ _ _ hfault
  · rw [command_ok _ _ _ ((mkperm_admitted_iff s).2 (fits_eq_true_iff.2 hcap)), complete_eq, countDraw_eq]
    exact ⟨_, _, rfl, isPerm_makePermutation drawn s.w s, by rintro rfl; rfl⟩

/-! ILV and DILV (R162, R163): the same two checks, in the same order. -/

theorem firstFault_interleaveChecks_of_length_ne {s : State} (hlen : s.perm.length ≠ s.bin.length) :
    firstFault (interleaveChecks s) = some .permLen := by
  simp [interleaveChecks, hlen]

theorem firstFault_interleaveChecks_of_not_isPerm {s : State} (hlen : s.perm.length = s.bin.length)
    (hperm : ¬ IsPerm s.perm s.bin.length) : firstFault (interleaveChecks s) = some .permInvalid := by
  simp only [interleaveChecks, firstFault_cons, hlen, hperm, decide_true, decide_false, if_true, Bool.false_eq_true,
    if_false]

/-- Settles O13: by the first check that fails, or the scatter of R158 where none does. -/
theorem ilvScattersOrFaults : Obligations.IlvScattersOrFaults := by
  unfold Obligations.IlvScattersOrFaults
  refine ⟨decode_encode .ilv, fun s => ?_⟩
  rw [exec_ilv]
  refine ⟨fun hlen => command_faultedWith _ _ _ (firstFault_interleaveChecks_of_length_ne hlen),
    fun hlen hperm => command_faultedWith _ _ _ (firstFault_interleaveChecks_of_not_isPerm hlen hperm),
    fun hperm => ?_⟩
  rw [command_ok _ _ _ ((interleave_admitted_iff s).2 hperm), complete_eq]
  exact ⟨_, rfl, (length_interleave _ _).trans hperm.1, fun _ => getD_interleave hperm⟩

/-- Settles O14: by the first check that fails, or the gather of R159 where none does. -/
theorem dilvGathersOrFaults : Obligations.DilvGathersOrFaults := by
  unfold Obligations.DilvGathersOrFaults
  refine ⟨decode_encode .dilv, fun s => ?_⟩
  rw [exec_dilv]
  refine ⟨fun hlen => command_faultedWith _ _ _ (firstFault_interleaveChecks_of_length_ne hlen),
    fun hlen hperm => command_faultedWith _ _ _ (firstFault_interleaveChecks_of_not_isPerm hlen hperm),
    fun hperm => ?_⟩
  rw [command_ok _ _ _ ((interleave_admitted_iff s).2 hperm), complete_eq]
  exact ⟨_, rfl, (length_deinterleave _ _).trans hperm.1, fun _ hi => getD_gather _ _ (hperm.1.symm ▸ hi)⟩

end Sys2Proof.Machine
end

section
/-!
PROOFS. The two pipelines one after the other (95_test_vectors.md P1, P2): with a codec that decodes what it encodes,
DEC receives the codewords ENC made, and every message comes back.
-/

namespace Sys2Proof.Machine

/-- The codec decodes what it encodes (93 U18): for every message of k bytes an answer of n bytes, which passes Check
and decodes to the message. -/
def DecodesWhatItEncodes (s : State) : Prop :=
  ∀ m : List Byte, m.length = s.k →
    (codecEncode s.platform.codec s.n s.k m).length = s.n ∧
    codecCheck s.platform.codec s.n s.k (codecEncode s.platform.codec s.n s.k m) = true ∧
    codecDecode s.platform.codec s.n s.k (codecEncode s.platform.codec s.n s.k m) = m

/-! Through the codec port and back (R225). -/

theorem map_chr_map_ord (c : List Byte) : (c.map ord).map chr = c := by
  rw [List.map_map]
  exact (List.map_congr_left fun x _ => chr_ord x).trans (List.map_id c)

theorem map_ord_map_chr {m : List Nat} (h : ∀ x ∈ m, x ≤ 255) : (m.map chr).map ord = m := by
  rw [List.map_map]
  exact map_chr_toNat h

theorem askCheck_askEncode (codec : CodecRef) (n k : Nat) (m : List Nat) : askCheck codec n k (askEncode codec n k m) =
    codecCheck codec n k (codecEncode codec n k (m.map chr)) := by
  rw [askCheck, askEncode, map_chr_map_ord]

theorem askDecode_askEncode (codec : CodecRef) (n k : Nat) (m : List Nat) :
    askDecode codec n k (askEncode codec n k m) =
      (codecDecode codec n k (codecEncode codec n k (m.map chr))).map ord := by
  rw [askDecode, askEncode, map_chr_map_ord]

/-! The messages ENC makes are bytes, and their bits the padded input (R177). -/

theorem mem_of_mem_framed {α : Type} {v r : List α} {g : Nat} {x : α} (hr : r ∈ framed v g) (hx : x ∈ r) :
    x ∈ v := by
  obtain ⟨c, -, rfl⟩ := List.mem_map.1 hr
  exact List.mem_of_mem_drop (List.mem_of_mem_take hx)

theorem le_of_mem_encMessages {s : State} {m : List Nat} (h : m ∈ encMessages s) : ∀ x ∈ m, x ≤ 255 :=
  fun _ hx => Nat.le_of_lt_succ (lt_of_mem_bitsToVals (mem_of_mem_framed h hx))

theorem decodedBits_encMessages (s : State) (hk : 1 ≤ s.k) :
    decodedBits (encMessages s) = padToMultiple s.bin (8 * s.k) := by
  have hpad : (padToMultiple s.bin (8 * s.k)).length % (8 * s.k) = 0 := length_padToMultiple_mod s.bin (by omega)
  have hbytes : (padToMultiple s.bin (8 * s.k)).length % 8 = 0 :=
    Nat.mod_eq_zero_of_dvd ((Nat.dvd_mul_right 8 s.k).trans (Nat.dvd_of_mod_eq_zero hpad))
  have hgroups : (bitsToVals (padToMultiple s.bin (8 * s.k)) 8).length % s.k = 0 := by
    rw [length_bitsToVals, ← Nat.mod_mul_right_div_self, hpad, Nat.zero_div]
  rw [decodedBits, unframed, encMessages, flatten_framed _ hgroups, valsToBits_bitsToVals hbytes]

/-- The codewords of ENC: the codec's answers for its messages, in order (R177). -/
def encCodewords (s : State) : List (List Nat) := (encMessages s).map (askEncode s.platform.codec s.n s.k)

/-- Every symbol of a codeword is a byte (R222). -/
theorem lt_of_mem_unframed_encCodewords {s : State} : ∀ x ∈ unframed (encCodewords s), x < 2 ^ 8 := by
  intro x hx
  obtain ⟨c, hc, hxc⟩ := List.mem_flatten.1 hx
  obtain ⟨m, -, rfl⟩ := List.mem_map.1 hc
  obtain ⟨byte, -, rfl⟩ := List.mem_map.1 hxc
  exact ord_lt byte

/-- What ENC leaves where the codec keeps to its lengths (R177). -/
def encoded (drawn : Bool) (s : State) : State :=
  complete (interleaveOut drawn (codedBits (encCodewords s)) { s with ncw := encCount s, cwidx := encCount s })

/-- The permutation ENC leaves (R157). -/
def encPermutation (drawn : Bool) (s : State) : List Nat :=
  makePermutation drawn (codedBits (encCodewords s)).length s

theorem isPerm_encPermutation (drawn : Bool) (s : State) :
    IsPerm (encPermutation drawn s) (codedBits (encCodewords s)).length := isPerm_makePermutation _ _ _

theorem encoded_perm (drawn : Bool) (s : State) : (encoded drawn s).perm = encPermutation drawn s :=
  interleaveOut_perm _ _ _

theorem encoded_bout (drawn : Bool) (s : State) :
    (encoded drawn s).bout = interleave (codedBits (encCodewords s)) (encPermutation drawn s) :=
  interleaveOut_bout _ _ _

section Lossless

variable {s : State} (hcodec : DecodesWhatItEncodes s)
include hcodec

theorem length_askEncode {m : List Nat} (hm : m.length = s.k) :
    (askEncode s.platform.codec s.n s.k m).length = s.n := by
  rw [askEncode, List.length_map]
  exact (hcodec (m.map chr) (by simpa using hm)).1

theorem encodeAll_encMessages : encodeAll s (encMessages s) = some (encCodewords s) := by
  rw [encodeAll_eq_some_iff, encCodewords, List.map_map]
  exact List.map_congr_left fun m hm => if_pos (length_askEncode hcodec (length_of_mem_encMessages hm))

/-- A codeword of ENC is believed, and its message is k bytes long already, so nothing is put before it. -/
theorem decodeOne_askEncode {m : List Nat} (hm : m ∈ encMessages s) :
    decodeOne s (askEncode s.platform.codec s.n s.k m) = some (m, true) := by
  have hlen := length_of_mem_encMessages hm
  obtain ⟨-, hcheck, hdecode⟩ := hcodec (m.map chr) (by simpa using hlen)
  have hback : askDecode s.platform.codec s.n s.k (askEncode s.platform.codec s.n s.k m) = m := by
    rw [askDecode_askEncode, hdecode, map_ord_map_chr (le_of_mem_encMessages hm)]
  simp [decodeOne, correctedMessage, askCheck_askEncode, hcheck, hback, hlen]

theorem decodeAll_encCodewords :
    decodeAll s (encCodewords s) = some ((encMessages s).map fun m => (m, true)) := by
  rw [decodeAll_eq_some_iff, encCodewords, List.map_map, List.map_map]
  exact List.map_congr_left fun m hm => decodeOne_askEncode hcodec hm

theorem length_of_mem_encCodewords {c : List Nat} (hc : c ∈ encCodewords s) : c.length = s.n :=
  length_of_mem_encodeAll (encodeAll_encMessages hcodec) hc

theorem length_codedBits_encCodewords (hk : 1 ≤ s.k) :
    (codedBits (encCodewords s)).length = 8 * s.n * encCount s := by
  rw [length_codedBits fun _ => length_of_mem_encCodewords hcodec, encCodewords, List.length_map,
    length_encMessages s hk]

/-- Framing the coded bits again finds the codewords (R122, R144). -/
theorem framed_codedBits_encCodewords (hn : 1 ≤ s.n) :
    framed (bitsToVals (codedBits (encCodewords s)) 8) s.n = encCodewords s := by
  rw [codedBits, bitsToVals_valsToBits (by omega) lt_of_mem_unframed_encCodewords, unframed]
  exact framed_flatten hn fun _ => length_of_mem_encCodewords hcodec

/-! The two commands. -/

variable (hadmit : encAdmitted s)
include hadmit

theorem exec_enc_eq_encoded (drawn : Bool) : exec (.enc drawn) s = .next (encoded drawn s) := by
  obtain ⟨hn, hk, hkn, haccepts, hbits, hperm⟩ := hadmit
  have hchecks : firstFault (encChecks s) = none := (enc_admitted_iff s).2
    ⟨(params_admitted_iff s).2 ⟨⟨hn, hk⟩, hkn, haccepts⟩, fits_eq_true_iff.2 hbits, fits_eq_true_iff.2 hperm⟩
  have heffect := encEffect_eq drawn s
  rw [encodeAll_encMessages hcodec] at heffect
  rw [exec_enc, pipeline_ok _ hchecks heffect, encoded]

/-- DEC, on any bits and permutation that give the coded bits back. -/
theorem exec_dec_encCodewords {permuted : Bool} {u : State} (hplatform : u.platform = s.platform) (hn : u.n = s.n)
    (hk : u.k = s.k) (hperm : IsPerm (permOperand permuted u) u.bin.length)
    (hbits : deinterleave u.bin (permOperand permuted u) = codedBits (encCodewords s)) :
    exec (.dec permuted) u = .next (complete { u with
      bout := padToMultiple s.bin (8 * s.k)
      cwstat := List.replicate (encCount s) true
      ncw := encCount s
      cwidx := encCount s }) := by
  obtain ⟨hn1, hk1, hkn, haccepts, hcap, -⟩ := hadmit
  have hlen : u.bin.length = 8 * (s.n * encCount s) := by
    rw [← Nat.mul_assoc, ← length_codedBits_encCodewords hcodec hk1, ← hbits, length_deinterleave, hperm.1]
  have hcount : decCount u = encCount s := by
    rw [decCount, hlen, hn, ← Nat.mul_assoc, Nat.mul_div_cancel_left _ (by omega)]
  have hchecks : firstFault (decChecks permuted u) = none := by
    rw [dec_admitted_iff, params_admitted_iff, hplatform, hn, hk, hcount]
    refine ⟨⟨⟨hn1, hk1⟩, hkn, haccepts⟩, hperm, ?_, ?_, ?_⟩
    · rw [hlen, Nat.mul_mod_right]
    · rw [hlen, Nat.mul_div_cancel_left _ (by omega), Nat.mul_mod_right]
    · exact fits_mono (Nat.mul_le_mul_right _ (Nat.mul_le_mul_left 8 hkn)) (fits_eq_true_iff.2 hcap)
  have hdecoded : decodeAll u (decReceived permuted u) = some ((encMessages s).map fun m => (m, true)) := by
    rw [decReceived, hbits, hn, framed_codedBits_encCodewords hcodec hn1, decodeAll_congr hplatform hn hk,
      decodeAll_encCodewords hcodec]
  have hmessages : ((encMessages s).map fun m => (m, true)).map Prod.fst = encMessages s := by
    simp [Function.comp_def]
  have hcorrected : ((encMessages s).map fun m => (m, true)).map Prod.snd = List.replicate (encCount s) true := by
    simp [Function.comp_def, length_encMessages s hk1]
  have heffect := decEffect_eq permuted u
  rw [hdecoded, Option.map_some, hmessages, decodedBits_encMessages s hk1, hcorrected, hcount] at heffect
  rw [exec_dec, pipeline_ok _ hchecks heffect]

/-- DEC on what ENC left, with the permutation ENC left or, where that moves nothing, with none. -/
theorem exec_dec_encoded {drawn permuted : Bool} (h : permuted = true ∨ drawn = false) :
    ∃ u, exec (.dec permuted) { encoded drawn s with bin := (encoded drawn s).bout } = .next u ∧
      u.status = 0x0002#16 ∧ u.bout = padToMultiple s.bin (8 * s.k) ∧ u.cwstat = List.replicate u.ncw true ∧
      u.ncw = messageCount s := by
  have hperm := isPerm_encPermutation drawn s
  have hlen : (encoded drawn s).bout.length = (codedBits (encCodewords s)).length := by
    rw [encoded_bout, length_interleave, hperm.1]
  have hoperand : permOperand permuted { encoded drawn s with bin := (encoded drawn s).bout } =
      encPermutation drawn s := by
    obtain rfl | rfl := h
    · exact encoded_perm drawn s
    · cases permuted with
      | true => exact encoded_perm false s
      | false => exact congrArg idPerm hlen
  refine ⟨_, exec_dec_encCodewords hcodec hadmit (by simp [encoded]) (by simp [encoded]) (by simp [encoded]) ?_ ?_,
    statusDone_eq, rfl, rfl, rfl⟩
  · rw [hoperand, hlen]
    exact hperm
  · rw [hoperand, encoded_bout, deinterleave_interleave hperm]

end Lossless

/-- Settles O24: DEC.P undoes the permutation of ENC, and DEC one that moves nothing; both then receive the codewords
ENC made. -/
theorem encodeThenDecodeIsLossless : Obligations.EncodeThenDecodeIsLossless := by
  unfold Obligations.EncodeThenDecodeIsLossless
  intro s drawn hadmit hcodec
  obtain ⟨u, hexec, hdone, hbout, hstat, hncw⟩ :=
    exec_dec_encoded hcodec hadmit (drawn := drawn) (permuted := true) (.inl rfl)
  refine ⟨encoded drawn s, u, exec_enc_eq_encoded hcodec hadmit drawn, statusDone_eq, hexec, hdone, hbout, hstat, hncw,
    fun hdrawn => ?_⟩
  obtain ⟨v, hexec, hdone, hbout, hstat, -⟩ := exec_dec_encoded hcodec hadmit (permuted := false) (.inr hdrawn)
  exact ⟨v, hexec, hdone, hbout, hstat⟩

end Sys2Proof.Machine
end

section
/-!
PROOFS. The encode pipeline (R176 to R179): the admission of ENC, the codewords it makes as what the codec answers for
the messages of R177, where their bits go, and one step of a running ENC.
-/

namespace Sys2Proof.Machine

/-! Admission (R176). -/

/-- The first failing check's fault is what R238 says of its code. -/
theorem pipeline_faultedWith {checks : Checks} {f : FaultCode} (outs : List Output) (effect : State → Option State)
    (s : State) (h : firstFault checks = some f) :
    ∃ t, pipeline checks outs effect s = .next t ∧ faultedWith (faultNumber f) outs s t :=
  ⟨_, pipeline_fault outs effect s h, faultEntry_faultedWith f outs s⟩

theorem firstFault_paramChecks_of_zero {s : State} (h : s.n = 0 ∨ s.k = 0) :
    firstFault (paramChecks s) = some .paramZero := by
  obtain hn | hk := h
  · simp [paramChecks, hn]
  · simp [paramChecks, hk]

theorem firstFault_paramChecks_of_lt {s : State} (hn : 1 ≤ s.n) (hlt : s.n < s.k) :
    firstFault (paramChecks s) = some .kGtN := by
  have hk : 1 ≤ s.k := by omega
  simp [paramChecks, hn, hk, hlt]

theorem firstFault_paramChecks_of_not_accepted {s : State} (hk : 1 ≤ s.k) (hkn : s.k ≤ s.n)
    (hcodec : codecAccepts s.platform.codec s.n s.k = false) :
    firstFault (paramChecks s) = some .codecParams := by
  have hn : 1 ≤ s.n := hk.trans hkn
  simp [paramChecks, hn, hk, hkn, hcodec]

/-- The checks of (n, k) come first. -/
theorem firstFault_encChecks_of_params {s : State} {f : FaultCode} (h : firstFault (paramChecks s) = some f) :
    firstFault (encChecks s) = some f := by
  rw [encChecks, firstFault_append, h, Option.some_or]

theorem firstFault_encChecks_of_not_within {s : State} (hparams : firstFault (paramChecks s) = none)
    (hcap : ¬ (within (8 * s.n * messageCount s) s.platform.capBits ∧
      within (8 * s.n * messageCount s) s.platform.capPerm)) :
    firstFault (encChecks s) = some .capacity := by
  have hfits : ¬ (fits (8 * s.n * encCount s) s.platform.capBits = true ∧
      fits (8 * s.n * encCount s) s.platform.capPerm = true) := by
    rw [fits_eq_true_iff, fits_eq_true_iff]
    exact hcap
  rw [encChecks, firstFault_append, hparams, Option.none_or]
  simp only [codedChecks, firstFault_cons, Bool.and_eq_true, hfits, if_false]

theorem encChecks_admit {s : State} (h : encAdmitted s) : firstFault (encChecks s) = none := by
  obtain ⟨hn, hk, hkn, haccepts, hbits, hperm⟩ := h
  exact (enc_admitted_iff s).2
    ⟨(params_admitted_iff s).2 ⟨⟨hn, hk⟩, hkn, haccepts⟩, fits_eq_true_iff.2 hbits,
      fits_eq_true_iff.2 hperm⟩

/-- The faults ENC's admission tests for (R236). -/
theorem mem_of_firstFault_encChecks {s : State} {f : FaultCode} (h : firstFault (encChecks s) = some f) :
    f ∈ [FaultCode.paramZero, .kGtN, .codecParams, .capacity] :=
  List.mem_map_of_mem (f := Prod.snd) (firstFault_mem h)

/-- The codes a finished ENC can report (R236). -/
theorem fcodeOf_mem_of_exec_enc {drawn : Bool} {s t : State} (h : exec (.enc drawn) s = .next t) :
    fcodeOf t.status ∈ [0, 2, 4, 5, 10, 11] := by
  rw [exec_enc] at h
  obtain ⟨f, hfault, ht⟩ | ⟨-, -, ht⟩ | ⟨u, -, -, ht⟩ := pipeline_cases h
  · cases ht
    rw [faultEntry_status, fcodeOf_statusFault]
    have hmem := mem_of_firstFault_encChecks hfault
    simp only [List.mem_cons, List.not_mem_nil, or_false] at hmem
    obtain rfl | rfl | rfl | rfl := hmem <;> decide
  · cases ht
    rw [faultEntry_status, fcodeOf_statusFault]
    decide
  · cases ht
    rw [complete_status, fcodeOf_statusDone]
    decide

/-- Settles O15: by the first check that fails; neither 8 nor 9 is the code of a check or of the codec's breach. -/
theorem encAdmissionFaultsInOrder : Obligations.EncAdmissionFaultsInOrder := by
  unfold Obligations.EncAdmissionFaultsInOrder
  intro s drawn
  refine ⟨fun hzero => ?_, fun hn hlt => ?_, fun hk hkn hcodec => ?_, fun hk hkn hcodec hcap => ?_, fun t ht => ?_⟩
  · exact pipeline_faultedWith _ _ s (firstFault_encChecks_of_params (firstFault_paramChecks_of_zero hzero))
  · exact pipeline_faultedWith _ _ s (firstFault_encChecks_of_params (firstFault_paramChecks_of_lt hn hlt))
  · exact pipeline_faultedWith _ _ s
      (firstFault_encChecks_of_params (firstFault_paramChecks_of_not_accepted hk hkn hcodec))
  · have hparams := (params_admitted_iff s).2 ⟨⟨hk.trans hkn, hk⟩, hkn, hcodec⟩
    exact pipeline_faultedWith _ _ s (firstFault_encChecks_of_not_within hparams hcap)
  · have hcode := fcodeOf_mem_of_exec_enc ht
    exact ⟨ne_of_mem_of_not_mem hcode (by decide), ne_of_mem_of_not_mem hcode (by decide)⟩

/-! The bytes of a group of bits, as the codec port carries them (R61, R225). -/

/-- Position `i` of group `j` comes before the end of `count` groups. -/
theorem mul_add_lt_mul {g i j count : Nat} (hi : i < g) (hj : j < count) : g * j + i < g * count :=
  calc g * j + i < g * j + g := Nat.add_lt_add_left hi _
    _ = g * (j + 1) := (Nat.mul_succ g j).symm
    _ ≤ g * count := Nat.mul_le_mul_left g hj

/-- A slice within the sequence, element by element. -/
theorem slice_eq_map_range {α : Type} {l : List α} {i g : Nat} (h : i + g ≤ l.length) (d : α) :
    slice l i (i + g) = (List.range g).map fun t => l.getD (i + t) d := by
  refine List.ext_getElem (by simp; omega) fun t h1 h2 => ?_
  have ht : t < g := by simpa using h2
  have hget := getD_slice l i (i + g) t d (by omega)
  rw [List.getD_eq_getElem _ _ h1] at hget
  simpa using hget

theorem chr_getD_bitsToVals {b : List Bit} {j : Nat} (h : j < b.length / 8) :
    chr ((bitsToVals b 8).getD j 0) = byteOfBits fun t => b.getD (8 * j + t) false :=
  congrArg chr (getD_bitsToVals_eq_sum b h)

/-- Bytes cut into groups of `g`: byte `i` of group `j` is made of the bits from 8·(g·j+i) on. -/
theorem map_chr_framed_bitsToVals (b : List Bit) (g : Nat) :
    (framed (bitsToVals b 8) g).map (List.map chr) = (List.range (b.length / 8 / g)).map fun j =>
      (List.range g).map fun i => byteOfBits fun t => b.getD (8 * (g * j + i) + t) false := by
  rw [framed, length_bitsToVals, List.map_map]
  refine List.map_congr_left fun j hj => ?_
  have hgroup : g * j + g ≤ b.length / 8 := mul_add_le_of_lt_div (List.mem_range.1 hj)
  rw [Function.comp_apply, slice_eq_map_range (by rwa [length_bitsToVals]) 0, List.map_map]
  refine List.map_congr_left fun i hi => ?_
  have hi : i < g := List.mem_range.1 hi
  exact chr_getD_bitsToVals (by omega)

/-! The messages and the codewords (R177). -/

/-- The padded input by index is the padder's result (R140). -/
theorem getD_padToMultiple_eq_paddedBit {s : State} (hk : 1 ≤ s.k) (i : Nat) :
    (padToMultiple s.bin (8 * s.k)).getD i false = paddedBit s i := by
  have hlen : (padToMultiple s.bin (8 * s.k)).length = 8 * s.k * messageCount s :=
    length_padToMultiple_eq_mul_ceil s.bin (by omega)
  rw [paddedBit, ← hlen]
  split
  · next hpad => exact getD_padToMultiple_of_lt hpad false
  · next hpad =>
    rw [← getD_padToMultiple_add s.bin (8 * s.k), Nat.add_sub_cancel' (by omega)]

theorem map_chr_encMessages {s : State} (hk : 1 ≤ s.k) :
    (encMessages s).map (List.map chr) = (List.range (messageCount s)).map (messageBytes s) := by
  have hcount : (padToMultiple s.bin (8 * s.k)).length / 8 / s.k = messageCount s := by
    rw [Nat.div_div_eq_div_mul]
    exact length_padToMultiple_div s.bin (by omega)
  rw [encMessages, map_chr_framed_bitsToVals, hcount]
  simp only [getD_padToMultiple_eq_paddedBit hk]
  rfl

/-- What the framer collects is what the codec answers for the messages. -/
theorem encCodewords_eq {s : State} (hk : 1 ≤ s.k) :
    encCodewords s = (List.range (messageCount s)).map fun j => (codewordBytes s j).map ord := by
  have hmessages :=
    congrArg (List.map fun m => (codecEncode s.platform.codec s.n s.k m).map ord) (map_chr_encMessages hk)
  rwa [List.map_map, List.map_map] at hmessages

theorem length_encCodewords {s : State} (hk : 1 ≤ s.k) : (encCodewords s).length = messageCount s := by
  rw [encCodewords_eq hk, List.length_map, List.length_range]

theorem encodeAll_encMessages_eq_none {s : State} {j : Nat} (hk : 1 ≤ s.k) (hj : j < messageCount s)
    (hlen : (codewordBytes s j).length ≠ s.n) : encodeAll s (encMessages s) = none := by
  have hmem : (codewordBytes s j).map ord ∈ encCodewords s := by
    rw [encCodewords_eq hk]
    exact List.mem_map_of_mem (List.mem_range.2 hj)
  obtain ⟨m, hm, hask⟩ := List.mem_map.1 hmem
  refine encodeAll_eq_none_iff.2 ⟨m, hm, if_neg ?_⟩
  rw [hask, List.length_map]
  exact hlen

section KeepsLengths

variable {s : State} (hk : 1 ≤ s.k) (hlen : ∀ j, j < messageCount s → (codewordBytes s j).length = s.n)
include hk hlen

theorem length_of_mem_encCodewords_of_forall : ∀ c ∈ encCodewords s, c.length = s.n := by
  rw [encCodewords_eq hk]
  intro c hc
  obtain ⟨j, hj, rfl⟩ := List.mem_map.1 hc
  rw [List.length_map]
  exact hlen j (List.mem_range.1 hj)

theorem encodeAll_encMessages_eq_some : encodeAll s (encMessages s) = some (encCodewords s) := by
  rw [encodeAll_eq_some_iff, encCodewords, List.map_map]
  exact List.map_congr_left fun m hm =>
    if_pos (length_of_mem_encCodewords_of_forall hk hlen _ (List.mem_map_of_mem hm))

theorem length_codedBits_encCodewords_of_forall :
    (codedBits (encCodewords s)).length = 8 * s.n * messageCount s := by
  rw [length_codedBits (length_of_mem_encCodewords_of_forall hk hlen), length_encCodewords hk]

/-- Byte `i` of codeword `j` among the coded bytes. -/
theorem getD_unframed_encCodewords {i j : Nat} (hj : j < messageCount s) (hi : i < s.n) :
    (unframed (encCodewords s)).getD (s.n * j + i) 0 = ((codewordBytes s j).getD i 0).toNat := by
  have hi' : i < (codewordBytes s j).length := by rwa [hlen j hj]
  rw [unframed, getD_flatten_of_forall (length_of_mem_encCodewords_of_forall hk hlen) hi, encCodewords_eq hk]
  simp [List.getD_eq_getElem?_getD, hj, hi', ord]

/-- Bit `t` of byte `i` of codeword `j` among the coded bits, most significant first. -/
theorem getD_codedBits_encCodewords {i j t : Nat} (hj : j < messageCount s) (hi : i < s.n) (ht : t < 8) :
    (codedBits (encCodewords s)).getD (8 * (s.n * j + i) + t) false =
      ((codewordBytes s j).getD i 0).getLsbD (7 - t) := by
  have hpos : s.n * j + i < (unframed (encCodewords s)).length := by
    rw [unframed, length_flatten_of_forall (length_of_mem_encCodewords_of_forall hk hlen), length_encCodewords hk]
    exact mul_add_lt_mul hi hj
  rw [codedBits, getD_valsToBits _ hpos ht, decide_binaryDigit_eq_one, getD_unframed_encCodewords hk hlen hj hi,
    BitVec.testBit_toNat]

end KeepsLengths

/-! ENC as one function. -/

theorem interleaveOut_eq (drawn : Bool) (cb : List Bit) (s : State) : interleaveOut drawn cb s =
    { s with
      bout := interleave cb (makePermutation drawn cb.length s)
      perm := makePermutation drawn cb.length s
      draws := if drawn then s.draws + 1 else s.draws } := by
  rw [interleaveOut, countDraw_eq]

theorem encoded_eq (drawn : Bool) (s : State) : encoded drawn s =
    { s with
      bout := interleave (codedBits (encCodewords s)) (encPermutation drawn s)
      perm := encPermutation drawn s
      ncw := messageCount s
      cwidx := messageCount s
      draws := if drawn then s.draws + 1 else s.draws
      status := 0x0002#16
      work := none } := by
  rw [encoded, interleaveOut_eq, complete_eq]
  rfl

theorem exec_enc_protocol {s : State} (drawn : Bool) (hadmit : encAdmitted s)
    (h : encodeAll s (encMessages s) = none) :
    exec (.enc drawn) s = .next (faultEntry .codecProtocol encOutputs s) := by
  have heffect := encEffect_eq drawn s
  rw [h] at heffect
  rw [exec_enc, pipeline_protocol _ (encChecks_admit hadmit) heffect]

theorem exec_enc_of_encodeAll {s : State} (drawn : Bool) (hadmit : encAdmitted s)
    (h : encodeAll s (encMessages s) = some (encCodewords s)) : exec (.enc drawn) s = .next (encoded drawn s) := by
  have heffect := encEffect_eq drawn s
  rw [h] at heffect
  rw [exec_enc, pipeline_ok _ (encChecks_admit hadmit) heffect, encoded]

/-- Settles O16: a codeword of another length leaves no codewords at all; else the coded bits are the codewords' own,
and interleaving by a bijection moves each to its place. -/
theorem encScattersTheCodecsCodewords : Obligations.EncScattersTheCodecsCodewords := by
  unfold Obligations.EncScattersTheCodecsCodewords
  refine ⟨decode_encode (.enc false), decode_encode (.enc true), fun s drawn hadmit => ?_⟩
  have ⟨_, hk, _⟩ := hadmit
  refine ⟨?_, fun hlen => ?_⟩
  · rintro ⟨j, hj, hbad⟩
    exact ⟨_, exec_enc_protocol drawn hadmit (encodeAll_encMessages_eq_none hk hj hbad),
      faultEntry_faultedWith .codecProtocol _ s⟩
  · have hbits := length_codedBits_encCodewords_of_forall hk hlen
    have hperm := isPerm_encPermutation drawn s
    rw [exec_enc_of_encodeAll drawn hadmit (encodeAll_encMessages_eq_some hk hlen), encoded_eq, ← hbits]
    refine ⟨_, _, _, rfl, hperm, by rintro rfl; rfl, (length_interleave _ _).trans hperm.1, ?_⟩
    intro j i t hj hi ht
    have hpos : 8 * (s.n * j + i) + t < (codedBits (encCodewords s)).length := by
      rw [hbits, Nat.mul_assoc]
      exact mul_add_lt_mul ht (mul_add_lt_mul hi hj)
    rw [getD_interleave hperm hpos, getD_codedBits_encCodewords hk hlen hj hi ht]

/-! One step of a running ENC (R177, R28). -/

theorem encStep_cons_of_some {s : State} {m c : List Nat} (drawn : Bool) (rest coded : List (List Nat))
    (h : encodeOne s m = some c) : encStep drawn (m :: rest) coded s =
      { s with cwidx := s.cwidx + 1, work := some (.encode drawn rest (coded ++ [c])) } := by
  simp only [encStep, h]

theorem encStep_cons_of_none {s : State} {m : List Nat} (drawn : Bool) (rest coded : List (List Nat))
    (h : encodeOne s m = none) : encStep drawn (m :: rest) coded s = faultEntry .codecProtocol encOutputs s := by
  simp only [encStep, h]

/-- Settles O38: the framer's step asks the codec for the next message, and the length of the answer decides. -/
theorem encStepEncodesOneMessage : Obligations.EncStepEncodesOneMessage := by
  unfold Obligations.EncStepEncodesOneMessage
  rintro s drawn m rest coded _ hschedule hbusy hwork rfl
  have hask : askEncode s.platform.codec s.n s.k m =
      (codecEncode s.platform.codec s.n s.k (m.map (BitVec.ofNat 8))).map BitVec.toNat := rfl
  rw [step_framer hschedule hbusy, framerStep_encode hwork]
  refine ⟨fun hlen => ?_, fun hlen => ?_⟩
  · have hsome : encodeOne s m = some (askEncode s.platform.codec s.n s.k m) :=
      if_pos (by rwa [hask, List.length_map])
    rw [encStep_cons_of_some drawn rest coded hsome, hask]
  · have hnone : encodeOne s m = none := if_neg (by rwa [hask, List.length_map])
    rw [encStep_cons_of_none drawn rest coded hnone]
    exact ⟨_, rfl, faultEntry_faultedWith .codecProtocol _ s⟩

end Sys2Proof.Machine
end

section
/-!
PROOFS. The decode pipeline as one function (R190 to R207): the admission of DEC, the codewords it receives, what it
delivers for each of them and where those bits stand.
-/

namespace Sys2Proof.Machine

/-! Admission (R191). -/

/-- Without the flag P the permutation is the identity, a bijection always (R156). -/
theorem isPerm_permOperand_iff (permuted : Bool) (s : State) :
    IsPerm (permOperand permuted s) s.bin.length ↔ (permuted = true → IsPerm s.perm s.bin.length) := by
  cases permuted with
  | true => exact ⟨fun h _ => h, fun h => h rfl⟩
  | false => exact iff_of_true (isPerm_idPerm s.bin.length) nofun

theorem decChecks_admit_iff (permuted : Bool) (s : State) :
    firstFault (decChecks permuted s) = none ↔ decAdmitted permuted s := by
  rw [dec_admitted_iff, params_admitted_iff, isPerm_permOperand_iff, fits_eq_true_iff, and_assoc, and_assoc, and_assoc]
  rfl

/-- The checks of (n, k) come first. -/
theorem firstFault_decChecks_of_params {s : State} {f : FaultCode} (permuted : Bool)
    (h : firstFault (paramChecks s) = some f) : firstFault (decChecks permuted s) = some f := by
  rw [decChecks, firstFault_append, h, Option.some_or]

theorem firstFault_decChecks_eq {s : State} (permuted : Bool) (hparams : firstFault (paramChecks s) = none) :
    firstFault (decChecks permuted s) = firstFault (receivedChecks permuted s) := by
  rw [decChecks, firstFault_append, hparams, Option.none_or]

theorem firstFault_receivedChecks_of_length_ne {s : State} (hlen : s.perm.length ≠ s.bin.length) :
    firstFault (receivedChecks true s) = some .permLen := by
  simp [receivedChecks, permOperand, hlen]

theorem firstFault_receivedChecks_of_not_isPerm {s : State} (hlen : s.perm.length = s.bin.length)
    (hperm : ¬ IsPerm s.perm s.bin.length) : firstFault (receivedChecks true s) = some .permInvalid := by
  simp only [receivedChecks, permOperand, firstFault_cons, if_true, hlen, hperm, decide_true, decide_false,
    Bool.false_eq_true, if_false]

/-- A permutation of BIN's length leaves the checks of the length and the capacity. -/
theorem firstFault_receivedChecks_of_isPerm {permuted : Bool} {s : State}
    (hperm : IsPerm (permOperand permuted s) s.bin.length) : firstFault (receivedChecks permuted s) =
      firstFault [(s.bin.length % 8 = 0, .lenNotDivisible), (s.bin.length / 8 % s.n = 0, .lenNotDivisible),
        (fits (8 * s.k * decCount s) s.platform.capBits, .capacity)] := by
  rw [receivedChecks, firstFault_cons, firstFault_cons, decide_eq_true hperm.1, decide_eq_true hperm, if_pos rfl,
    if_pos rfl]

theorem firstFault_receivedChecks_of_not_divisible {permuted : Bool} {s : State}
    (hperm : IsPerm (permOperand permuted s) s.bin.length)
    (hdiv : s.bin.length % 8 ≠ 0 ∨ s.bin.length / 8 % s.n ≠ 0) :
    firstFault (receivedChecks permuted s) = some .lenNotDivisible := by
  rw [firstFault_receivedChecks_of_isPerm hperm]
  by_cases hbytes : s.bin.length % 8 = 0
  · have hgroups := hdiv.resolve_left (not_not_intro hbytes)
    simp [hbytes, hgroups]
  · simp [hbytes]

theorem firstFault_receivedChecks_of_not_within {permuted : Bool} {s : State}
    (hperm : IsPerm (permOperand permuted s) s.bin.length) (hbytes : s.bin.length % 8 = 0)
    (hgroups : s.bin.length / 8 % s.n = 0) (hcap : ¬ within (8 * s.k * codewordCount s) s.platform.capBits) :
    firstFault (receivedChecks permuted s) = some .capacity := by
  have hfits : ¬ fits (8 * s.k * decCount s) s.platform.capBits = true := by
    rw [fits_eq_true_iff]
    exact hcap
  rw [firstFault_receivedChecks_of_isPerm hperm]
  simp [hbytes, hgroups, hfits]

/-- The received codewords are whole, so their bits are at most those of BIN. -/
theorem mul_codewordCount_le (s : State) : 8 * s.n * codewordCount s ≤ s.bin.length :=
  Nat.mul_div_le s.bin.length (8 * s.n)

/-- Settles O17: by the first check that fails; the messages' bits are at most the codewords', and those are BIN's. -/
theorem decAdmissionFaultsInOrder : Obligations.DecAdmissionFaultsInOrder := by
  unfold Obligations.DecAdmissionFaultsInOrder
  intro s permuted
  refine ⟨fun hzero => ?_, fun hn hlt => ?_, fun hk hkn hcodec => ?_, fun hk hkn hcodec => ?_⟩
  · exact pipeline_faultedWith _ _ s (firstFault_decChecks_of_params permuted (firstFault_paramChecks_of_zero hzero))
  · exact pipeline_faultedWith _ _ s (firstFault_decChecks_of_params permuted (firstFault_paramChecks_of_lt hn hlt))
  · exact pipeline_faultedWith _ _ s
      (firstFault_decChecks_of_params permuted (firstFault_paramChecks_of_not_accepted hk hkn hcodec))
  · have hfirst := firstFault_decChecks_eq permuted
      ((params_admitted_iff s).2 ⟨⟨hk.trans hkn, hk⟩, hkn, hcodec⟩)
    refine ⟨?_, ?_, fun hperm hdiv => ?_, fun hperm hbytes hgroups hcap => ?_, fun hbin c hc => ?_⟩
    · rintro rfl hlen
      exact pipeline_faultedWith _ _ s (hfirst.trans (firstFault_receivedChecks_of_length_ne hlen))
    · rintro rfl hlen hperm
      exact pipeline_faultedWith _ _ s (hfirst.trans (firstFault_receivedChecks_of_not_isPerm hlen hperm))
    · have hperm := (isPerm_permOperand_iff permuted s).2 hperm
      exact pipeline_faultedWith _ _ s (hfirst.trans (firstFault_receivedChecks_of_not_divisible hperm hdiv))
    · have hperm := (isPerm_permOperand_iff permuted s).2 hperm
      exact pipeline_faultedWith _ _ s
        (hfirst.trans (firstFault_receivedChecks_of_not_within hperm hbytes hgroups hcap))
    · calc 8 * s.k * codewordCount s
          ≤ 8 * s.n * codewordCount s := Nat.mul_le_mul_right _ (Nat.mul_le_mul_left 8 hkn)
        _ ≤ s.bin.length := mul_codewordCount_le s
        _ ≤ c := hbin c hc

/-! The received codewords as the codec port carries them (R192, R193, R225). -/

theorem byteOfBits_congr {f g : Nat → Bit} (h : ∀ t, t < 8 → f t = g t) : byteOfBits f = byteOfBits g :=
  congrArg (BitVec.ofNat 8) (Finset.sum_congr rfl fun t ht => by rw [h t (Finset.mem_range.1 ht)])

theorem getD_idPerm {i len : Nat} (h : i < len) : (idPerm len).getD i 0 = i := by
  simp [idPerm, List.getD_eq_getElem?_getD, h]

theorem getD_deinterleave_permOperand {permuted : Bool} {s : State} {i : Nat}
    (hperm : IsPerm (permOperand permuted s) s.bin.length) (hi : i < s.bin.length) :
    (deinterleave s.bin (permOperand permuted s)).getD i false = deinterleavedBit permuted s i := by
  rw [deinterleave, getD_gather _ _ (hperm.1.symm ▸ hi)]
  cases permuted with
  | true => rfl
  | false => exact congrArg (s.bin.getD · false) (getD_idPerm hi)

theorem map_chr_decReceived {permuted : Bool} {s : State} (hperm : IsPerm (permOperand permuted s) s.bin.length) :
    (decReceived permuted s).map (List.map chr) =
      (List.range (codewordCount s)).map (receivedBytes permuted s) := by
  rw [decReceived, map_chr_framed_bitsToVals, length_deinterleave, hperm.1, Nat.div_div_eq_div_mul]
  refine List.map_congr_left fun j hj => List.map_congr_left fun i hi => byteOfBits_congr fun t ht => ?_
  have hpos : 8 * (s.n * j + i) + t < 8 * s.n * codewordCount s := by
    rw [Nat.mul_assoc]
    exact mul_add_lt_mul ht (mul_add_lt_mul (List.mem_range.1 hi) (List.mem_range.1 hj))
  exact getD_deinterleave_permOperand hperm (hpos.trans_le (mul_codewordCount_le s))

theorem le_of_mem_decReceived {permuted : Bool} {s : State} {r : List Nat} (h : r ∈ decReceived permuted s) :
    ∀ x ∈ r, x ≤ 255 :=
  fun _ hx => Nat.le_of_lt_succ (lt_of_mem_bitsToVals (mem_of_mem_framed h hx))

theorem decReceived_eq {permuted : Bool} {s : State} (hperm : IsPerm (permOperand permuted s) s.bin.length) :
    decReceived permuted s = (List.range (codewordCount s)).map fun j => (receivedBytes permuted s j).map ord := by
  have hback : (decReceived permuted s).map (List.map ord ∘ List.map chr) = decReceived permuted s :=
    (List.map_congr_left fun r hr => map_ord_map_chr (le_of_mem_decReceived hr)).trans (List.map_id _)
  have hbytes := congrArg (List.map (List.map ord)) (map_chr_decReceived hperm)
  rwa [List.map_map, List.map_map, hback] at hbytes

/-! One codeword: what is delivered for it (R194 to R198). -/

theorem askCheck_map_ord (codec : CodecRef) (n k : Nat) (c : List Byte) :
    askCheck codec n k (c.map ord) = codecCheck codec n k c := by
  rw [askCheck, map_chr_map_ord]

theorem askDecode_map_ord (codec : CodecRef) (n k : Nat) (c : List Byte) :
    askDecode codec n k (c.map ord) = (codecDecode codec n k c).map ord := by
  rw [askDecode, map_chr_map_ord]

theorem correctedMessage_of_le {s : State} {r : List Nat}
    (h : (askDecode s.platform.codec s.n s.k r).length ≤ s.k) : correctedMessage s r =
      some (List.replicate (s.k - (askDecode s.platform.codec s.n s.k r).length) 0 ++
        askDecode s.platform.codec s.n s.k r) := if_pos h

theorem correctedMessage_of_lt {s : State} {r : List Nat}
    (h : s.k < (askDecode s.platform.codec s.n s.k r).length) : correctedMessage s r = none :=
  if_neg (Nat.not_le.2 h)

/-- The rightmost k bytes are what stands after the first n−k (R198). -/
theorem fallbackMessage_eq_drop {s : State} {r : List Nat} (h : r.length = s.n) :
    fallbackMessage s r = r.drop (s.n - s.k) := by
  rw [fallbackMessage, slice, List.take_of_length_le (by rw [List.length_drop, h])]

theorem decodeOne_believed {s : State} {r : List Nat} (h : askCheck s.platform.codec s.n s.k r = true) :
    decodeOne s r = (correctedMessage s r).map fun m => (m, true) := by
  rw [decodeOne, if_pos h]
  cases correctedMessage s r <;> rfl

theorem decodeOne_not_believed {s : State} {r : List Nat} (h : askCheck s.platform.codec s.n s.k r = false) :
    decodeOne s r = some (fallbackMessage s r, false) := by
  rw [decodeOne, if_neg (by rw [h]; exact Bool.false_ne_true)]

/-- The codec keeps to k bytes for every received codeword it believes (R197, F_CODEC_PROTOCOL). -/
def AnswersFit (permuted : Bool) (s : State) : Prop :=
  ∀ j, j < codewordCount s → believedCorrectable permuted s j = true → (correctedBytes permuted s j).length ≤ s.k

section OneCodeword

variable {permuted : Bool} {s : State} {j : Nat}

theorem length_receivedBytes : (receivedBytes permuted s j).length = s.n := by simp [receivedBytes]

theorem askCheck_receivedBytes : askCheck s.platform.codec s.n s.k ((receivedBytes permuted s j).map ord) =
    believedCorrectable permuted s j := askCheck_map_ord ..

theorem askDecode_receivedBytes : askDecode s.platform.codec s.n s.k ((receivedBytes permuted s j).map ord) =
    (correctedBytes permuted s j).map ord := askDecode_map_ord ..

theorem deliveredBytes_believed (h : believedCorrectable permuted s j = true) : deliveredBytes permuted s j =
    List.replicate (s.k - (correctedBytes permuted s j).length) 0 ++ correctedBytes permuted s j := if_pos h

theorem deliveredBytes_not_believed (h : believedCorrectable permuted s j = false) :
    deliveredBytes permuted s j = (receivedBytes permuted s j).drop (s.n - s.k) := by
  rw [deliveredBytes, if_neg (by rw [h]; exact Bool.false_ne_true)]

theorem decodeOne_receivedBytes
    (hfit : believedCorrectable permuted s j = true → (correctedBytes permuted s j).length ≤ s.k) :
    decodeOne s ((receivedBytes permuted s j).map ord) =
      some ((deliveredBytes permuted s j).map ord, believedCorrectable permuted s j) := by
  have hask := askDecode_receivedBytes (permuted := permuted) (s := s) (j := j)
  cases hb : believedCorrectable permuted s j with
  | true =>
    have hlen : (askDecode s.platform.codec s.n s.k ((receivedBytes permuted s j).map ord)).length ≤ s.k := by
      rw [hask, List.length_map]
      exact hfit hb
    rw [decodeOne_believed (askCheck_receivedBytes.trans hb), correctedMessage_of_le hlen, hask,
      deliveredBytes_believed hb, List.map_append, List.map_replicate, List.length_map]
    rfl
  | false =>
    have hlen : ((receivedBytes permuted s j).map ord).length = s.n := by
      rw [List.length_map, length_receivedBytes]
    rw [decodeOne_not_believed (askCheck_receivedBytes.trans hb), fallbackMessage_eq_drop hlen,
      deliveredBytes_not_believed hb, List.map_drop]

theorem decodeOne_receivedBytes_eq_none (hb : believedCorrectable permuted s j = true)
    (hlong : s.k < (correctedBytes permuted s j).length) :
    decodeOne s ((receivedBytes permuted s j).map ord) = none := by
  have hlen : s.k < (askDecode s.platform.codec s.n s.k ((receivedBytes permuted s j).map ord)).length := by
    rwa [askDecode_receivedBytes, List.length_map]
  rw [decodeOne_believed (askCheck_receivedBytes.trans hb), correctedMessage_of_lt hlen, Option.map_none]

theorem length_deliveredBytes (hkn : s.k ≤ s.n)
    (hfit : believedCorrectable permuted s j = true → (correctedBytes permuted s j).length ≤ s.k) :
    (deliveredBytes permuted s j).length = s.k := by
  cases hb : believedCorrectable permuted s j with
  | true =>
    rw [deliveredBytes_believed hb, List.length_append, List.length_replicate, Nat.sub_add_cancel (hfit hb)]
  | false =>
    rw [deliveredBytes_not_believed hb, List.length_drop, length_receivedBytes, Nat.sub_sub_self hkn]

end OneCodeword

/-! DEC as one function (R204). -/

/-- The messages DEC delivers, in order. -/
def deliveredMessages (permuted : Bool) (s : State) : List (List Byte) :=
  (List.range (codewordCount s)).map (deliveredBytes permuted s)

/-- What DEC leaves where the codec keeps to its lengths (R204). -/
def decoded (permuted : Bool) (s : State) : State :=
  complete { s with
    bout := decodedBits ((deliveredMessages permuted s).map (List.map ord))
    cwstat := (List.range (codewordCount s)).map (believedCorrectable permuted s)
    ncw := codewordCount s
    cwidx := codewordCount s }

theorem decodeAll_decReceived {permuted : Bool} {s : State} (hperm : IsPerm (permOperand permuted s) s.bin.length)
    (hfit : AnswersFit permuted s) : decodeAll s (decReceived permuted s) =
      some ((List.range (codewordCount s)).map fun j =>
        ((deliveredBytes permuted s j).map ord, believedCorrectable permuted s j)) := by
  rw [decodeAll_eq_some_iff, decReceived_eq hperm, List.map_map, List.map_map]
  exact List.map_congr_left fun j hj => decodeOne_receivedBytes (hfit j (List.mem_range.1 hj))

theorem decodeAll_decReceived_eq_none {permuted : Bool} {s : State} {j : Nat}
    (hperm : IsPerm (permOperand permuted s) s.bin.length) (hj : j < codewordCount s)
    (hb : believedCorrectable permuted s j = true) (hlong : s.k < (correctedBytes permuted s j).length) :
    decodeAll s (decReceived permuted s) = none := by
  rw [decodeAll_eq_none_iff, decReceived_eq hperm]
  exact ⟨_, List.mem_map_of_mem (List.mem_range.2 hj), decodeOne_receivedBytes_eq_none hb hlong⟩

theorem decAdmitted.isPerm_permOperand {permuted : Bool} {s : State} (h : decAdmitted permuted s) :
    IsPerm (permOperand permuted s) s.bin.length := by
  obtain ⟨-, -, -, -, hperm, -⟩ := h
  exact (isPerm_permOperand_iff permuted s).2 hperm

theorem exec_dec_eq_decoded {permuted : Bool} {s : State} (hadmit : decAdmitted permuted s)
    (hfit : AnswersFit permuted s) : exec (.dec permuted) s = .next (decoded permuted s) := by
  have heffect := decEffect_eq permuted s
  rw [decodeAll_decReceived hadmit.isPerm_permOperand hfit, Option.map_some, List.map_map, List.map_map] at heffect
  rw [exec_dec, pipeline_ok _ ((decChecks_admit_iff permuted s).2 hadmit) heffect, decoded, deliveredMessages,
    List.map_map]
  rfl

theorem exec_dec_protocol {permuted : Bool} {s : State} {j : Nat} (hadmit : decAdmitted permuted s)
    (hj : j < codewordCount s) (hb : believedCorrectable permuted s j = true)
    (hlong : s.k < (correctedBytes permuted s j).length) :
    exec (.dec permuted) s = .next (faultEntry .codecProtocol decOutputs s) := by
  have heffect := decEffect_eq permuted s
  rw [decodeAll_decReceived_eq_none hadmit.isPerm_permOperand hj hb hlong, Option.map_none] at heffect
  rw [exec_dec, pipeline_protocol _ ((decChecks_admit_iff permuted s).2 hadmit) heffect]

/-- Bit `t` of byte `i` of message `j`, most significant first, among the bits of messages of one size (R200). -/
theorem getD_decodedBits_map_ord {l : List (List Byte)} {g i j t : Nat} (hlen : ∀ c ∈ l, c.length = g)
    (hj : j < l.length) (hi : i < g) (ht : t < 8) :
    (decodedBits (l.map (List.map ord))).getD (8 * (g * j + i) + t) false =
      ((l.getD j []).getD i 0).getLsbD (7 - t) := by
  have hlen' : ∀ c ∈ l.map (List.map ord), c.length = g := by simpa using hlen
  have hpos : g * j + i < (l.map (List.map ord)).flatten.length := by
    rw [length_flatten_of_forall hlen', List.length_map]
    exact mul_add_lt_mul hi hj
  have hi' : i < (l[j]).length := by rwa [hlen _ (List.getElem_mem hj)]
  have hbyte : (l.map (List.map ord)).flatten.getD (g * j + i) 0 = ((l.getD j []).getD i 0).toNat := by
    rw [getD_flatten_of_forall hlen' hi]
    simp [List.getD_eq_getElem?_getD, hj, hi', ord]
  rw [decodedBits, unframed, getD_valsToBits _ hpos ht, decide_binaryDigit_eq_one, hbyte, BitVec.testBit_toNat]

section Delivered

variable {permuted : Bool} {s : State} (hkn : s.k ≤ s.n) (hfit : AnswersFit permuted s)
include hkn hfit

theorem length_of_mem_deliveredMessages : ∀ c ∈ deliveredMessages permuted s, c.length = s.k := by
  intro c hc
  obtain ⟨j, hj, rfl⟩ := List.mem_map.1 hc
  exact length_deliveredBytes hkn (hfit j (List.mem_range.1 hj))

theorem length_decoded_bout : (decoded permuted s).bout.length = 8 * s.k * codewordCount s := by
  have hlen : ∀ c ∈ (deliveredMessages permuted s).map (List.map ord), c.length = s.k := by
    simpa using length_of_mem_deliveredMessages hkn hfit
  rw [decoded, complete_bout, length_decodedBits hlen, List.length_map, deliveredMessages, List.length_map,
    List.length_range]

theorem getD_decoded_bout {i j t : Nat} (hj : j < codewordCount s) (hi : i < s.k) (ht : t < 8) :
    (decoded permuted s).bout.getD (8 * (s.k * j + i) + t) false =
      ((deliveredBytes permuted s j).getD i 0).getLsbD (7 - t) := by
  have hj' : j < (deliveredMessages permuted s).length := by
    rwa [deliveredMessages, List.length_map, List.length_range]
  have hget : (deliveredMessages permuted s).getD j [] = deliveredBytes permuted s j := by
    simp [deliveredMessages, List.getD_eq_getElem?_getD, hj]
  rw [decoded, complete_bout,
    getD_decodedBits_map_ord (length_of_mem_deliveredMessages hkn hfit) hj' hi ht, hget]

end Delivered

theorem getD_decoded_cwstat {permuted : Bool} {s : State} {j : Nat} (hj : j < codewordCount s) :
    (decoded permuted s).cwstat.getD j false = believedCorrectable permuted s j := by
  simp [decoded, List.getD_eq_getElem?_getD, hj]

theorem length_decoded_cwstat (permuted : Bool) (s : State) :
    (decoded permuted s).cwstat.length = codewordCount s := by
  simp [decoded]

theorem decoded_eq (permuted : Bool) (s : State) : decoded permuted s =
    { s with
      bout := (decoded permuted s).bout
      cwstat := (decoded permuted s).cwstat
      ncw := codewordCount s
      cwidx := codewordCount s
      status := 0x0002#16
      work := none } := complete_eq _

/-- Settles O18: a message that is too long leaves nothing decoded at all; else each codeword's message is what the
rules deliver for it. -/
theorem decDeliversOrFallsBackPerCodeword : Obligations.DecDeliversOrFallsBackPerCodeword := by
  unfold Obligations.DecDeliversOrFallsBackPerCodeword
  refine ⟨decode_encode (.dec false), decode_encode (.dec true), fun s permuted hadmit => ⟨?_, fun hfit => ?_⟩⟩
  · rintro ⟨j, hj, hb, hlong⟩
    exact ⟨_, exec_dec_protocol hadmit hj hb hlong, faultEntry_faultedWith .codecProtocol _ s⟩
  · have ⟨_, _, hkn, _⟩ := hadmit
    exact ⟨_, _, (exec_dec_eq_decoded hadmit hfit).trans (congrArg _ (decoded_eq permuted s)),
      length_decoded_bout hkn hfit, length_decoded_cwstat permuted s,
      fun j hj => ⟨getD_decoded_cwstat hj, fun i t => getD_decoded_bout hkn hfit hj⟩⟩

/-! Codewords are independent (R202). -/

theorem faultEntry_status_ne_done (f : FaultCode) (outs : List Output) (s : State) :
    (faultEntry f outs s).status ≠ 0x0002#16 := by
  rw [faultEntry_status]
  cases f <;> decide

/-- DEC ends DONE only where it was admitted and the codec kept to its lengths. -/
theorem exec_dec_done {permuted : Bool} {s t : State} (h : exec (.dec permuted) s = .next t)
    (hdone : t.status = 0x0002#16) :
    decAdmitted permuted s ∧ AnswersFit permuted s ∧ t = decoded permuted s := by
  have hnofault {f : FaultCode} (hf : exec (.dec permuted) s = .next (faultEntry f decOutputs s)) : False := by
    rw [h] at hf
    cases hf
    exact faultEntry_status_ne_done f decOutputs s hdone
  have hadmit : decAdmitted permuted s := by
    rw [← decChecks_admit_iff]
    cases hfault : firstFault (decChecks permuted s) with
    | none => rfl
    | some f => exact (hnofault (pipeline_fault decOutputs (decEffect permuted) s hfault)).elim
  have hfit : AnswersFit permuted s := fun j hj hb =>
    Nat.not_lt.1 fun hlong => hnofault (exec_dec_protocol hadmit hj hb hlong)
  rw [exec_dec_eq_decoded hadmit hfit] at h
  cases h
  exact ⟨hadmit, hfit, rfl⟩

section SameCodeword

variable {permuted permuted' : Bool} {s s' : State} {j j' : Nat} (hn : s.n = s'.n) (hk : s.k = s'.k)
  (hcodec : s.platform.codec = s'.platform.codec)
  (hreceived : receivedBytes permuted s j = receivedBytes permuted' s' j')
include hn hk hcodec hreceived

theorem believedCorrectable_congr : believedCorrectable permuted s j = believedCorrectable permuted' s' j' := by
  rw [believedCorrectable, believedCorrectable, hn, hk, hcodec, hreceived]

theorem deliveredBytes_congr : deliveredBytes permuted s j = deliveredBytes permuted' s' j' := by
  have hcorrected : correctedBytes permuted s j = correctedBytes permuted' s' j' := by
    rw [correctedBytes, correctedBytes, hn, hk, hcodec, hreceived]
  rw [deliveredBytes, deliveredBytes, believedCorrectable_congr hn hk hcodec hreceived, hcorrected, hreceived, hn, hk]

end SameCodeword

/-- Settles O25: both runs delivered, and what is delivered for a codeword is a function of it. -/
theorem codewordsAreIndependent : Obligations.CodewordsAreIndependent := by
  unfold Obligations.CodewordsAreIndependent
  intro s s' t t' permuted permuted' j j' hn hk hcodec hj hj' hreceived hexec hdone hexec' hdone'
  obtain ⟨⟨-, -, hkn, -⟩, hfit, rfl⟩ := exec_dec_done hexec hdone
  obtain ⟨⟨-, -, hkn', -⟩, hfit', rfl⟩ := exec_dec_done hexec' hdone'
  refine ⟨?_, fun i hi => ?_⟩
  · rw [getD_decoded_cwstat hj, getD_decoded_cwstat hj', believedCorrectable_congr hn hk hcodec hreceived]
  · have hbyte : i / 8 < s.k := by omega
    have hbit : i % 8 < 8 := Nat.mod_lt i (by omega)
    have hpos (c : Nat) : 8 * s.k * c + i = 8 * (s.k * c + i / 8) + i % 8 := by
      rw [Nat.mul_assoc]
      omega
    have hdelivered := deliveredBytes_congr hn hk hcodec hreceived
    rw [hpos, hpos, getD_decoded_bout hkn hfit hj hbyte hbit, hk,
      getD_decoded_bout hkn' hfit' hj' (hk ▸ hbyte) hbit, hdelivered]

/-! Corner cases (R207). -/

theorem decAdmitted_of_bin_nil {permuted : Bool} {s : State} (hk : 1 ≤ s.k) (hkn : s.k ≤ s.n)
    (hcodec : codecAccepts s.platform.codec s.n s.k = true) (hbin : s.bin = [])
    (hperm : permuted = true → s.perm = []) : decAdmitted permuted s := by
  refine ⟨hk.trans hkn, hk, hkn, hcodec, fun hp => ?_, by simp [hbin], by simp [hbin], fun c _ => ?_⟩
  · rw [hperm hp, hbin]
    exact isPerm_idPerm 0
  · simp [codewordCount, hbin]

/-- DEC reads its permutation through the operand alone (R191). -/
theorem exec_dec_congr_operand {p q : Bool} {s : State} (h : permOperand p s = permOperand q s) :
    exec (.dec p) s = exec (.dec q) s := by
  have hchecks : decChecks p s = decChecks q s := by
    rw [decChecks, decChecks, receivedChecks, receivedChecks, h]
  have heffect : decEffect p s = decEffect q s := by
    rw [decEffect_eq, decEffect_eq, decReceived, decReceived, h]
  rw [exec_dec, exec_dec, pipeline, pipeline, hchecks, heffect]

/-- Settles O26: with no received bits there are no codewords; the identity in PERM is the operand of DEC itself. -/
theorem decCornerCases : Obligations.DecCornerCases := by
  unfold Obligations.DecCornerCases
  refine ⟨fun s permuted hk hkn hcodec hbin hperm => ?_, fun s hperm => exec_dec_congr_operand hperm⟩
  have hcount : codewordCount s = 0 := by simp [codewordCount, hbin]
  have hfit : AnswersFit permuted s := fun j hj => by omega
  rw [exec_dec_eq_decoded (decAdmitted_of_bin_nil hk hkn hcodec hbin hperm) hfit, decoded, complete_eq,
    deliveredMessages, hcount]
  rfl

end Sys2Proof.Machine
end

section
/-!
PROOFS. The per-codeword machine (R194 to R200): one step of a running DEC from each of its states, and commands that
are started and left to run (R205).
-/

namespace Sys2Proof.Machine

/-! One step of a running DEC. -/

/-- `s` is a running DEC that nothing interrupts, the machine of codeword CWIDX in state `c`. -/
structure Decoding (received out : List (List Nat)) (c : CwState) (s : State) : Prop where
  schedule : s.schedule = []
  status : s.status = statusBusy c
  work : s.work = some (.decode received out)

/-- STATUS by its number: BUSY, with CWSTATE the state's (R24). -/
theorem decoding_of_number {received out : List (List Nat)} {c : CwState} {s : State} (hschedule : s.schedule = [])
    (hwork : s.work = some (.decode received out)) (hstatus : s.status = BitVec.ofNat 16 (1 + 256 * cwStateNumber c)) :
    Decoding received out c s := ⟨hschedule, hstatus.trans (statusBusy_eq c).symm, hwork⟩

theorem isBusy_of_status {s : State} {c : CwState} (h : s.status = statusBusy c) : isBusy s = true := by
  simp [isBusy, h]

theorem Decoding.step_eq {received out : List (List Nat)} {c : CwState} {s : State} (h : Decoding received out c s) :
    step s = .next (decStep received out c s) := by
  have hstate : cwStateOf s.status = some c := by rw [h.status, cwStateOf_statusBusy]
  rw [step_framer h.schedule (isBusy_of_status h.status), framerStep_decode h.work hstate]

theorem stepReceived_of_lt {s : State} (out : List (List Nat)) (h : s.cwidx < s.ncw) :
    stepReceived out s = enterState .check s := if_pos h

theorem stepReceived_of_le {s : State} (out : List (List Nat)) (h : s.ncw ≤ s.cwidx) :
    stepReceived out s = decFinish out s := if_neg (Nat.not_lt.2 h)

theorem stepCheck_eq (received : List (List Nat)) (s : State) : stepCheck received s =
    enterState (if askCheck s.platform.codec s.n s.k (currentCodeword received s) then .decode else .fallback) s := by
  rw [stepCheck]
  split <;> rfl

theorem stepDecode_of_some {received : List (List Nat)} {s : State} {m : List Nat} (out : List (List Nat))
    (h : correctedMessage s (currentCodeword received s) = some m) :
    stepDecode received out s = deliver received out m true s := by
  simp only [stepDecode, h]

theorem stepDecode_of_none {received : List (List Nat)} {s : State} (out : List (List Nat))
    (h : correctedMessage s (currentCodeword received s) = none) :
    stepDecode received out s = faultEntry .codecProtocol decOutputs s := by
  simp only [stepDecode, h]

theorem stepDone_of_lt {s : State} (out : List (List Nat)) (h : s.cwidx + 1 < s.ncw) :
    stepDone out s = enterState .received { s with cwidx := s.cwidx + 1 } := if_pos h

theorem stepDone_of_le {s : State} (out : List (List Nat)) (h : s.ncw ≤ s.cwidx + 1) :
    stepDone out s = decFinish out { s with cwidx := s.cwidx + 1 } := if_neg (Nat.not_lt.2 h)

/-- Settles O34: the step of RECEIVED, and the step of CHECK by the codec's answer. -/
theorem checkChoosesDecodeOrFallback : Obligations.CheckChoosesDecodeOrFallback := by
  unfold Obligations.CheckChoosesDecodeOrFallback
  refine fun s received out hschedule hwork => ⟨fun hstatus hlt => ?_, fun hstatus => ?_⟩
  · have hdecoding := decoding_of_number (c := .received) hschedule hwork hstatus
    rw [hdecoding.step_eq, decStep, stepReceived_of_lt out hlt, enterState, statusBusy_eq]
    rfl
  · have hdecoding := decoding_of_number (c := .check) hschedule hwork hstatus
    rw [hdecoding.step_eq, decStep, stepCheck_eq, enterState, apply_ite statusBusy, statusBusy_eq, statusBusy_eq]
    rfl

/-- Settles O35: the length of the codec's answer decides whether there is a message to deliver. -/
theorem decodeStatePadsTheCodecsMessage : Obligations.DecodeStatePadsTheCodecsMessage := by
  unfold Obligations.DecodeStatePadsTheCodecsMessage
  rintro s received out _ hschedule hwork hstatus rfl
  have hask : askDecode s.platform.codec s.n s.k (currentCodeword received s) =
      (codecDecode s.platform.codec s.n s.k ((received.getD s.cwidx []).map (BitVec.ofNat 8))).map BitVec.toNat := rfl
  have hdecoding := decoding_of_number (c := .decode) hschedule hwork hstatus
  rw [hdecoding.step_eq, decStep]
  refine ⟨fun hlen => ?_, fun hlen => ?_⟩
  · have hmessage := correctedMessage_of_le (s := s) (r := currentCodeword received s)
      (by rwa [hask, List.length_map])
    rw [stepDecode_of_some out hmessage, hask, List.length_map, deliver, statusBusy_eq]
    rfl
  · have hmessage := correctedMessage_of_lt (s := s) (r := currentCodeword received s)
      (by rwa [hask, List.length_map])
    rw [stepDecode_of_none out hmessage]
    exact ⟨_, rfl, faultEntry_faultedWith .codecProtocol _ s⟩

/-- Settles O36: of a codeword of n bytes the rightmost k are those after the first n−k. -/
theorem fallbackStateKeepsTheRightmostBytes : Obligations.FallbackStateKeepsTheRightmostBytes := by
  unfold Obligations.FallbackStateKeepsTheRightmostBytes
  intro s received out hschedule hwork hstatus hlen _
  have hdecoding := decoding_of_number (c := .fallback) hschedule hwork hstatus
  have hmessage : fallbackMessage s (currentCodeword received s) = (received.getD s.cwidx []).drop (s.n - s.k) :=
    fallbackMessage_eq_drop hlen
  rw [hdecoding.step_eq, decStep, stepFallback, hmessage, deliver, statusBusy_eq]
  rfl

/-- Settles O37: another codeword, or the bits of all messages where there is none. -/
theorem doneStateAdvancesOrFinishes : Obligations.DoneStateAdvancesOrFinishes := by
  unfold Obligations.DoneStateAdvancesOrFinishes
  intro s received out hschedule hwork hstatus
  have hdecoding := decoding_of_number (c := .done) hschedule hwork hstatus
  rw [hdecoding.step_eq, decStep]
  refine ⟨fun hmore => ?_, fun hlast => ?_⟩
  · rw [stepDone_of_lt out hmore, enterState, statusBusy_eq]
    rfl
  · rw [stepDone_of_le out hlast, decFinish, complete_eq]
    refine ⟨_, rfl, length_valsToBits _ 8, fun j t hj ht => ?_⟩
    rw [decodedBits, unframed, getD_valsToBits _ hj ht, decide_binaryDigit_eq_one]

/-! Runs of steps. -/

theorem runSteps_succ {s t : State} (count : Nat) (h : step s = .next t) :
    runSteps (count + 1) s = runSteps count t := by
  simp only [runSteps, h]

/-- A framer with nothing to do stays where it is (R244). -/
theorem runSteps_of_waiting {s : State} (count : Nat) (hschedule : s.schedule = []) (hb : isBusy s = false) :
    runSteps count s = .next s := by
  induction count with
  | zero => rfl
  | succ count ih => rw [runSteps_succ count (step_waiting hschedule hb), ih]

/-- After the step that ends a command the framer waits, however many steps follow. -/
theorem runSteps_of_ending_step {s t : State} {count : Nat} (hcount : 1 ≤ count) (h : step s = .next t)
    (hschedule : t.schedule = []) (hb : isBusy t = false) : runSteps count s = .next t := by
  obtain ⟨rest, rfl⟩ := Nat.exists_eq_add_of_le' hcount
  rw [runSteps_succ rest h, runSteps_of_waiting rest hschedule hb]

/-! A primitive command: BUSY once, and carried out by the next step. -/

theorem runSteps_primitiveStart {i : Instr} {s : State} {count : Nat} (hschedule : s.schedule = [])
    (hcount : 1 ≤ count) (hexec : exec i (primitiveStart i s) = exec i s) :
    runSteps count (primitiveStart i s) = exec i s := by
  have hstep : step (primitiveStart i s) = exec i s := by
    rw [step_framer (s := primitiveStart i s) hschedule (isBusy_of_status (c := .received) rfl),
      framerStep_primitive rfl, hexec]
  obtain ⟨t, ht⟩ : ∃ t, exec i s = .next t := by
    obtain ⟨f, h⟩ | ⟨t, h⟩ := exec_cases i s
    exacts [⟨_, h⟩, ⟨_, h⟩]
  obtain ⟨⟨-, -, -, -, -, -, -, hkept, -⟩, -⟩ := exec_keepsUnlisted ht
  rw [ht] at hstep ⊢
  exact runSteps_of_ending_step hcount hstep (hkept.trans hschedule) (isBusy_of_exec ht)

/-! ENC: a step for each message, and one for steps 4 and 5 (R177). -/

/-- What the messages `todo` still to encode make of a running ENC. -/
def encEnd (drawn : Bool) (todo coded : List (List Nat)) (s : State) : State :=
  match encodeAll s todo with
  | some cs => complete (interleaveOut drawn (codedBits (coded ++ cs)) { s with cwidx := s.cwidx + todo.length })
  | none => faultEntry .codecProtocol encOutputs s

theorem encEnd_of_some {todo cs : List (List Nat)} {s : State} (drawn : Bool) (coded : List (List Nat))
    (h : encodeAll s todo = some cs) : encEnd drawn todo coded s =
      complete (interleaveOut drawn (codedBits (coded ++ cs)) { s with cwidx := s.cwidx + todo.length }) := by
  simp only [encEnd, h]

theorem encEnd_of_none {todo : List (List Nat)} {s : State} (drawn : Bool) (coded : List (List Nat))
    (h : encodeAll s todo = none) : encEnd drawn todo coded s = faultEntry .codecProtocol encOutputs s := by
  simp only [encEnd, h]

/-- One message encoded leaves the others to do. -/
theorem encEnd_cons_of_some {s : State} {m c : List Nat} (drawn : Bool) (rest coded : List (List Nat))
    (h : encodeOne s m = some c) : encEnd drawn (m :: rest) coded s =
      encEnd drawn rest (coded ++ [c])
        { s with cwidx := s.cwidx + 1, work := some (.encode drawn rest (coded ++ [c])) } := by
  have hrest := encodeAll_congr (s := { s with cwidx := s.cwidx + 1, work := some (.encode drawn rest (coded ++ [c])) })
    (s' := s) rfl rfl rfl rest
  cases hcs : encodeAll s rest with
  | none =>
    rw [encEnd_of_none _ _ (hrest.trans hcs), encEnd_of_none _ _ (encodeAll_cons_none (.inr hcs))]
    rfl
  | some cs =>
    rw [encEnd_of_some _ _ (hrest.trans hcs), encEnd_of_some _ _ (encodeAll_cons_some h hcs), List.append_assoc,
      List.length_cons, Nat.add_comm rest.length 1, ← Nat.add_assoc]
    cases drawn <;> rfl

theorem runSteps_encode {todo coded : List (List Nat)} {drawn : Bool} {s : State} {count : Nat}
    (hschedule : s.schedule = []) (hb : isBusy s = true) (hwork : s.work = some (.encode drawn todo coded))
    (hcount : todo.length + 1 ≤ count) : runSteps count s = .next (encEnd drawn todo coded s) := by
  induction todo generalizing s coded count with
  | nil =>
    have hend : encStep drawn [] coded s = encEnd drawn [] coded s := by
      rw [encEnd_of_some _ _ (encodeAll_nil s), List.append_nil]
      rfl
    have hstep := step_framer hschedule hb
    rw [framerStep_encode hwork, hend, encEnd_of_some _ _ (encodeAll_nil s)] at hstep
    rw [encEnd_of_some _ _ (encodeAll_nil s)]
    exact runSteps_of_ending_step hcount hstep (by simpa using hschedule) (isBusy_complete _)
  | cons m rest ih =>
    have hstep := step_framer hschedule hb
    rw [framerStep_encode hwork] at hstep
    cases hone : encodeOne s m with
    | none =>
      rw [encStep_cons_of_none drawn rest coded hone] at hstep
      rw [encEnd_of_none _ _ (encodeAll_cons_none (.inl hone))]
      exact runSteps_of_ending_step (by omega) hstep hschedule (isBusy_faultEntry ..)
    | some c =>
      rw [List.length_cons] at hcount
      obtain ⟨count, rfl⟩ := Nat.exists_eq_add_of_le' (show 1 ≤ count by omega)
      rw [encStep_cons_of_some drawn rest coded hone] at hstep
      rw [runSteps_succ count hstep, encEnd_cons_of_some drawn rest coded hone]
      exact ih hschedule hb rfl (by omega)

/-- ENC makes at most one message more than BIN has bits (R179). -/
theorem encCount_le {s : State} (hk : 1 ≤ s.k) : encCount s ≤ s.bin.length + 1 := by
  refine Nat.div_le_of_le_mul ?_
  have hle : s.bin.length ≤ 8 * s.k * s.bin.length := Nat.le_mul_of_pos_left _ (by omega)
  rw [Nat.mul_succ]
  omega

theorem encStart_of_fault {s : State} {f : FaultCode} (drawn : Bool) (h : firstFault (encChecks s) = some f) :
    encStart drawn s = faultEntry f encOutputs s := by
  simp only [encStart, h]

theorem encStart_of_admitted {s : State} (drawn : Bool) (h : firstFault (encChecks s) = none) : encStart drawn s =
    { s with
      status := statusBusy .received
      ncw := encCount s
      cwidx := 0
      work := some (.encode drawn (encMessages s) []) } := by
  simp only [encStart, h]

/-- What a started ENC comes to is the one function of R177. -/
theorem exec_enc_eq_encEnd {s : State} (drawn : Bool) (hadmit : firstFault (encChecks s) = none) (hk : 1 ≤ s.k) :
    exec (.enc drawn) s = .next (encEnd drawn (encMessages s) [] (encStart drawn s)) := by
  have hstart := encStart_of_admitted drawn hadmit
  have hcwidx : (encStart drawn s).cwidx = 0 := by rw [hstart]
  have hall := encodeAll_congr (s := encStart drawn s) (s' := s) (encStart_platform drawn s) (by rw [hstart])
    (by rw [hstart]) (encMessages s)
  have heffect := encEffect_eq drawn s
  rw [exec_enc]
  cases hcs : encodeAll s (encMessages s) with
  | none =>
    rw [hcs] at heffect
    rw [pipeline_protocol _ hadmit heffect, encEnd_of_none _ _ (hall.trans hcs), hstart]
    rfl
  | some cs =>
    rw [hcs] at heffect
    rw [pipeline_ok _ hadmit heffect, encEnd_of_some _ _ (hall.trans hcs), hcwidx, length_encMessages s hk,
      Nat.zero_add, hstart]
    cases drawn <;> rfl

theorem runSteps_encStart {drawn : Bool} {s : State} {count : Nat} (hschedule : s.schedule = [])
    (hcount : s.bin.length + 2 ≤ count) : runSteps count (encStart drawn s) = exec (.enc drawn) s := by
  cases hfault : firstFault (encChecks s) with
  | some f =>
    rw [encStart_of_fault drawn hfault, exec_enc, pipeline_fault _ _ s hfault]
    exact runSteps_of_waiting count hschedule (isBusy_faultEntry ..)
  | none =>
    have ⟨hparams, _⟩ := (enc_admitted_iff s).1 hfault
    obtain ⟨⟨-, hk⟩, -⟩ := (params_admitted_iff s).1 hparams
    have hsteps : (encMessages s).length + 1 ≤ count := by
      have := encCount_le hk
      rw [length_encMessages s hk]
      omega
    rw [exec_enc_eq_encEnd drawn hfault hk, encStart_of_admitted drawn hfault]
    exact runSteps_encode hschedule (isBusy_of_status (c := .received) rfl) rfl hsteps

/-! DEC: four steps for each codeword, and one where there is none (R194 to R200). -/

/-- The codeword that stands first among those left is the current one. -/
theorem currentCodeword_of_drop {received rest : List (List Nat)} {r : List Nat} {s : State}
    (h : received.drop s.cwidx = r :: rest) : currentCodeword received s = r := by
  have hget : received[s.cwidx]? = some r := by
    rw [← List.head?_drop, h, List.head?_cons]
  rw [currentCodeword, List.getD_eq_getElem?_getD, hget, Option.getD_some]

section OneMachine

variable {received out : List (List Nat)} {s : State} (h : Decoding received out .received s) (hlt : s.cwidx < s.ncw)
include h

theorem Decoding.enter (c : CwState) : Decoding received out c (enterState c s) := ⟨h.schedule, rfl, h.work⟩

include hlt

/-- RECEIVED and CHECK write nothing but the choice (R195, R196). -/
theorem runSteps_choice (count : Nat) : runSteps (count + 2) s = runSteps count (enterState
    (if askCheck s.platform.codec s.n s.k (currentCodeword received s) then .decode else .fallback) s) := by
  have hreceived := h.step_eq
  rw [decStep, stepReceived_of_lt out hlt] at hreceived
  have hcheck := (h.enter .check).step_eq
  rw [decStep, stepCheck_eq] at hcheck
  rw [runSteps_succ (count + 1) hreceived, runSteps_succ count hcheck]
  rfl

/-- Three steps deliver the current codeword's message. -/
theorem runSteps_deliver (count : Nat) {m : List Nat} {b : Bit}
    (hone : decodeOne s (currentCodeword received s) = some (m, b)) :
    runSteps (count + 3) s = runSteps count (deliver received out m b s) := by
  rw [runSteps_choice h hlt]
  cases hask : askCheck s.platform.codec s.n s.k (currentCodeword received s) with
  | true =>
    rw [decodeOne_believed hask, Option.map_eq_some_iff] at hone
    obtain ⟨m', hmessage, hpair⟩ := hone
    cases hpair
    have hdecode := (h.enter .decode).step_eq
    rw [decStep, stepDecode_of_some (s := enterState .decode s) out hmessage] at hdecode
    exact runSteps_succ count hdecode
  | false =>
    rw [decodeOne_not_believed hask] at hone
    cases hone
    exact runSteps_succ count (h.enter .fallback).step_eq

/-- An answer of the codec that is too long ends the command (R197). -/
theorem runSteps_protocol (count : Nat) (hone : decodeOne s (currentCodeword received s) = none) :
    runSteps (count + 3) s = .next (faultEntry .codecProtocol decOutputs s) := by
  rw [runSteps_choice h hlt]
  cases hask : askCheck s.platform.codec s.n s.k (currentCodeword received s) with
  | true =>
    rw [decodeOne_believed hask, Option.map_eq_none_iff] at hone
    have hdecode := (h.enter .decode).step_eq
    rw [decStep, stepDecode_of_none (s := enterState .decode s) out hone] at hdecode
    exact runSteps_of_ending_step (Nat.le_add_left 1 count) hdecode h.schedule (isBusy_faultEntry ..)
  | false =>
    rw [decodeOne_not_believed hask] at hone
    cases hone

end OneMachine

/-- What the codewords `todo` still to decode make of a running DEC, `stat` being the CWSTAT bits written. -/
def decEnd (todo out : List (List Nat)) (stat : List Bit) (s : State) : State :=
  match decodeAll s todo with
  | some ms =>
    complete { s with
      bout := decodedBits (out ++ ms.map Prod.fst)
      cwstat := stat ++ ms.map Prod.snd
      cwidx := s.cwidx + todo.length }
  | none => faultEntry .codecProtocol decOutputs s

theorem decEnd_of_some {todo : List (List Nat)} {ms : List (List Nat × Bit)} {s : State} (out : List (List Nat))
    (stat : List Bit) (h : decodeAll s todo = some ms) : decEnd todo out stat s =
      complete { s with
        bout := decodedBits (out ++ ms.map Prod.fst)
        cwstat := stat ++ ms.map Prod.snd
        cwidx := s.cwidx + todo.length } := by
  simp only [decEnd, h]

theorem decEnd_of_none {todo : List (List Nat)} {s : State} (out : List (List Nat)) (stat : List Bit)
    (h : decodeAll s todo = none) : decEnd todo out stat s = faultEntry .codecProtocol decOutputs s := by
  simp only [decEnd, h]

theorem decEnd_nil {s : State} (out : List (List Nat)) : decEnd [] out s.cwstat s = decFinish out s := by
  rw [decEnd_of_some _ _ (decodeAll_nil s), List.map_nil, List.map_nil, List.append_nil, List.append_nil]
  rfl

/-- The state in which the next codeword's machine starts, `m` and `b` delivered for this one. -/
def nextCodeword (received out : List (List Nat)) (m : List Nat) (b : Bit) (s : State) : State :=
  enterState .received { deliver received out m b s with cwidx := s.cwidx + 1 }

/-- One codeword decoded leaves the others to do. -/
theorem decEnd_cons_of_some {s : State} {r m : List Nat} {b : Bit} (received rest out : List (List Nat))
    (stat : List Bit) (h : decodeOne s r = some (m, b)) : decEnd (r :: rest) out stat s =
      decEnd rest (out ++ [m]) (stat ++ [b]) (nextCodeword received out m b s) := by
  have hrest := decodeAll_congr (s := nextCodeword received out m b s) (s' := s) rfl rfl rfl rest
  cases hms : decodeAll s rest with
  | none =>
    rw [decEnd_of_none _ _ (hrest.trans hms), decEnd_of_none _ _ (decodeAll_cons_none (.inr hms))]
    rfl
  | some ms =>
    rw [decEnd_of_some _ _ (hrest.trans hms), decEnd_of_some _ _ (decodeAll_cons_some h hms), List.append_assoc,
      List.append_assoc, List.length_cons, Nat.add_comm rest.length 1, ← Nat.add_assoc]
    rfl

theorem Decoding.next {received out : List (List Nat)} {s : State} (h : Decoding received out .received s)
    (m : List Nat) (b : Bit) : Decoding received (out ++ [m]) .received (nextCodeword received out m b s) :=
  ⟨h.schedule, rfl, rfl⟩

/-- DONE goes on to the next codeword; where there is none, RECEIVED would end the command just as DONE does. -/
theorem runSteps_done {received out : List (List Nat)} {s : State} (h : Decoding received out .received s)
    (m : List Nat) (b : Bit) (count : Nat) :
    runSteps (count + 2) (deliver received out m b s) = runSteps (count + 1) (nextCodeword received out m b s) := by
  have hdone : Decoding received (out ++ [m]) .done (deliver received out m b s) := ⟨h.schedule, rfl, rfl⟩
  have hstep := hdone.step_eq
  rw [decStep] at hstep
  by_cases hmore : s.cwidx + 1 < s.ncw
  · rw [stepDone_of_lt (s := deliver received out m b s) _ hmore] at hstep
    exact runSteps_succ (count + 1) hstep
  · have hlast : s.ncw ≤ s.cwidx + 1 := Nat.not_lt.1 hmore
    have hnext := (h.next m b).step_eq
    rw [decStep, stepReceived_of_le (s := nextCodeword received out m b s) _ hlast] at hnext
    rw [stepDone_of_le (s := deliver received out m b s) _ hlast] at hstep
    rw [runSteps_of_ending_step (by omega) hstep h.schedule (isBusy_decFinish ..),
      runSteps_of_ending_step (by omega) hnext h.schedule (isBusy_decFinish ..)]
    rfl

/-- `s` is a running DEC about to decode the codewords `todo`: those before them are decoded, `stat` their CWSTAT bits,
and the other bits of CWSTAT are still clear. -/
structure AtCodeword (received todo out : List (List Nat)) (stat : List Bit) (s : State) : Prop where
  decoding : Decoding received out .received s
  left : received.drop s.cwidx = todo
  count : s.cwidx + todo.length = s.ncw
  cwstat : s.cwstat = stat ++ List.replicate todo.length false
  written : stat.length = s.cwidx

theorem AtCodeword.next {received rest out : List (List Nat)} {r : List Nat} {stat : List Bit} {s : State}
    (h : AtCodeword received (r :: rest) out stat s) (m : List Nat) (b : Bit) :
    AtCodeword received rest (out ++ [m]) (stat ++ [b]) (nextCodeword received out m b s) where
  decoding := h.decoding.next m b
  left := by
    show received.drop (s.cwidx + 1) = rest
    rw [← List.tail_drop, h.left, List.tail_cons]
  count := by
    show s.cwidx + 1 + rest.length = s.ncw
    rw [← h.count, List.length_cons]
    omega
  cwstat := by
    show s.cwstat.set s.cwidx b = _
    rw [h.cwstat, ← h.written, List.set_append_right _ _ le_rfl, Nat.sub_self, List.length_cons,
      List.replicate_succ, List.set_cons_zero, List.append_assoc, List.singleton_append]
  written := by
    show (stat ++ [b]).length = s.cwidx + 1
    rw [List.length_append, h.written, List.length_singleton]

theorem runSteps_decode {received todo out : List (List Nat)} {stat : List Bit} {s : State} {count : Nat}
    (h : AtCodeword received todo out stat s) (hcount : 4 * todo.length + 1 ≤ count) :
    runSteps count s = .next (decEnd todo out stat s) := by
  induction todo generalizing out stat s count with
  | nil =>
    obtain rfl : s.cwstat = stat := h.cwstat.trans (List.append_nil stat)
    have hstep := h.decoding.step_eq
    rw [decStep, stepReceived_of_le out h.count.ge] at hstep
    rw [decEnd_nil]
    exact runSteps_of_ending_step hcount hstep h.decoding.schedule (isBusy_decFinish ..)
  | cons r rest ih =>
    have hlt : s.cwidx < s.ncw := by
      rw [← h.count, List.length_cons]
      omega
    rw [List.length_cons] at hcount
    obtain ⟨count, rfl⟩ := Nat.exists_eq_add_of_le' (show 5 ≤ count by omega)
    have hcurrent := currentCodeword_of_drop h.left
    cases hone : decodeOne s r with
    | none =>
      rw [decEnd_of_none _ _ (decodeAll_cons_none (.inl hone))]
      exact runSteps_protocol h.decoding hlt (count + 2) (hcurrent ▸ hone)
    | some delivered =>
      obtain ⟨m, b⟩ := delivered
      rw [runSteps_deliver h.decoding hlt (count + 2) (hcurrent ▸ hone), runSteps_done h.decoding m b count,
        decEnd_cons_of_some received rest out stat hone]
      exact ih (h.next m b) (by omega)

theorem decStart_of_fault {s : State} {f : FaultCode} {permuted : Bool}
    (h : firstFault (decChecks permuted s) = some f) : decStart permuted s = faultEntry f decOutputs s := by
  simp only [decStart, h]

theorem decStart_of_admitted {s : State} {permuted : Bool} (h : firstFault (decChecks permuted s) = none) :
    decStart permuted s =
      { s with
        status := statusBusy .received
        ncw := decCount s
        cwidx := 0
        cwstat := List.replicate (decCount s) false
        work := some (.decode (decReceived permuted s) []) } := by
  simp only [decStart, h]

theorem length_decReceived_of_admitted {s : State} {permuted : Bool} (h : firstFault (decChecks permuted s) = none) :
    (decReceived permuted s).length = decCount s := by
  obtain ⟨-, hperm, -⟩ := (dec_admitted_iff permuted s).1 h
  exact length_decReceived hperm.1

/-- A started DEC is about to decode every received codeword (R193). -/
theorem atCodeword_decStart {s : State} {permuted : Bool} (hschedule : s.schedule = [])
    (hadmit : firstFault (decChecks permuted s) = none) :
    AtCodeword (decReceived permuted s) (decReceived permuted s) [] [] (decStart permuted s) := by
  have hlen := length_decReceived_of_admitted hadmit
  rw [decStart_of_admitted hadmit]
  exact ⟨⟨hschedule, rfl, rfl⟩, rfl, (Nat.zero_add _).trans hlen, by rw [hlen, List.nil_append], rfl⟩

/-- What a started DEC comes to is the one function of R204. -/
theorem exec_dec_eq_decEnd {s : State} {permuted : Bool} (hadmit : firstFault (decChecks permuted s) = none) :
    exec (.dec permuted) s = .next (decEnd (decReceived permuted s) [] [] (decStart permuted s)) := by
  have hstart := decStart_of_admitted hadmit
  have hcwidx : (decStart permuted s).cwidx = 0 := by rw [hstart]
  have hall := decodeAll_congr (s := decStart permuted s) (s' := s) (decStart_platform permuted s) (by rw [hstart])
    (by rw [hstart]) (decReceived permuted s)
  have heffect := decEffect_eq permuted s
  rw [exec_dec]
  cases hms : decodeAll s (decReceived permuted s) with
  | none =>
    rw [hms] at heffect
    rw [pipeline_protocol _ hadmit heffect, decEnd_of_none _ _ (hall.trans hms), hstart]
    rfl
  | some ms =>
    rw [hms] at heffect
    rw [pipeline_ok _ hadmit heffect, decEnd_of_some _ _ (hall.trans hms), hcwidx,
      length_decReceived_of_admitted hadmit, Nat.zero_add, hstart]
    rfl

theorem runSteps_decStart {permuted : Bool} {s : State} {count : Nat} (hschedule : s.schedule = [])
    (hcount : 4 * s.bin.length + 1 ≤ count) : runSteps count (decStart permuted s) = exec (.dec permuted) s := by
  cases hfault : firstFault (decChecks permuted s) with
  | some f =>
    rw [decStart_of_fault hfault, exec_dec, pipeline_fault _ _ s hfault]
    exact runSteps_of_waiting count hschedule (isBusy_faultEntry ..)
  | none =>
    have hsteps : 4 * (decReceived permuted s).length + 1 ≤ count := by
      have hle : decCount s ≤ s.bin.length := Nat.div_le_self _ _
      rw [length_decReceived_of_admitted hfault]
      omega
    rw [exec_dec_eq_decEnd hfault]
    exact runSteps_decode (atCodeword_decStart hschedule hfault) hsteps

/-! Every command (R205). -/

/-- A command left running ends where the one function does: a primitive one reads neither STATUS nor the working
storage, so it may be carried out from BUSY. -/
theorem runSteps_startInstr (i : Instr) {s : State} {count : Nat} (hschedule : s.schedule = [])
    (hcount : 4 * s.bin.length + 2 ≤ count) : runSteps count (startInstr i s) = exec i s := by
  have hone : 1 ≤ count := by omega
  cases i with
  | mkperm drawn => cases drawn <;> exact runSteps_primitiveStart hschedule hone rfl
  | enc drawn => exact runSteps_encStart hschedule (by omega)
  | dec permuted => exact runSteps_decStart hschedule (by omega)
  | _ => exact runSteps_primitiveStart hschedule hone rfl

theorem startCommand_of_decode {c : Byte} {i : Instr} (h : decode c = .command i) (s : State) :
    startCommand c s = .next (startInstr i (storeCommand c s)) := by
  simp only [startCommand, h]

/-- Settles O39: the first step starts the command, and the others leave it where the one function does; an illegal byte
ends at once either way. -/
theorem smallStepsAgreeWithTheOneFunction : Obligations.SmallStepsAgreeWithTheOneFunction := by
  unfold Obligations.SmallStepsAgreeWithTheOneFunction
  intro s c hb
  have hstart := step_scheduled_idle s (.start c) [] hb
  rw [step_scheduled_idle s (.issue c) [] hb]
  cases hdecode : decode c with
  | command i =>
    rw [idleEvent, startCommand_of_decode hdecode] at hstart
    rw [runSteps_succ (4 * s.bin.length + 2) hstart, idleEvent, issueCommand_of_decode hdecode]
    exact runSteps_startInstr i rfl le_rfl
  | illegal why =>
    simp only [idleEvent, startCommand, hdecode] at hstart
    simp only [idleEvent, issueCommand, hdecode]
    exact runSteps_of_ending_step (by omega) hstart rfl (by simp [isBusy, illegalCommand])

end Sys2Proof.Machine
end

section
/-!
PROOFS. Exceptions (60_exceptions.md): which fault a command reports and which it never raises (R236, R237), what fault
entry leaves (R238), that it leaves no trace (R239), and waiting (R244).
-/

namespace Sys2Proof.Machine

/-! The lowest code of the causes that hold (R236, R237). -/

/-- No cause of a code below `c` holds. -/
def NoCauseBelow (i : Instr) (s : State) (c : Nat) : Prop := ∀ b, b < c → ¬ causeHolds i s b

/-- `i` on `s` ends DONE with no cause of R236 holding, or with the lowest code whose cause holds (R237). -/
def ReportsLowestCode (i : Instr) (s : State) : Prop :=
  ∃ t, exec i s = .next t ∧
    ((t.status = 0x0002#16 ∧ ∀ c, ¬ causeHolds i s c) ∨
      ∃ c, t.status = BitVec.ofNat 16 (3 + 16 * c) ∧ causeHolds i s c ∧ NoCauseBelow i s c)

/-- Among the causes that hold there is one of lowest code: it is enough to know what the command does for that one, and
what it does where none of the eleven holds. -/
theorem reportsLowestCode_of_clauses {i : Instr} {s : State}
    (hfault : ∀ c, causeHolds i s c → NoCauseBelow i s c →
      ∃ t, exec i s = .next t ∧ faultedWith c (listedOutputs i) s t)
    (hdone : NoCauseBelow i s 12 → ∃ t, exec i s = .next t ∧ t.status = 0x0002#16) :
    ReportsLowestCode i s := by
  classical
  by_cases hcause : ∃ c, causeHolds i s c
  · have hlow : NoCauseBelow i s (Nat.find hcause) := fun _ => Nat.find_min hcause
    obtain ⟨t, ht, hstatus, -⟩ := hfault _ (Nat.find_spec hcause) hlow
    exact ⟨t, ht, .inr ⟨_, hstatus, Nat.find_spec hcause, hlow⟩⟩
  · have hnone := not_exists.1 hcause
    obtain ⟨t, ht, hstatus⟩ := hdone fun b _ => hnone b
    exact ⟨t, ht, .inl ⟨hstatus, hnone⟩⟩

/-! The commands whose rule is one primitive step: the clauses of each command's own rule, in the order of its codes. -/

theorem reportsLowestCode_bits2bytes (s : State) : ReportsLowestCode .bits2bytes s := by
  obtain ⟨-, hclauses⟩ := bits2bytesReadsRowsOrFaults
  obtain ⟨hbad, hdiv, hcap, hok⟩ := hclauses s
  have hwidth {c : Nat} (h : NoCauseBelow .bits2bytes s c) (hc : 3 < c) : 1 ≤ s.w ∧ within s.w s.platform.valw := by
    simpa [causeHolds, Nat.one_le_iff_ne_zero] using h 3 hc
  have hdivides {c : Nat} (h : NoCauseBelow .bits2bytes s c) (hc : 8 < c) : s.bin.length % s.w = 0 := by
    simpa [causeHolds] using h 8 hc
  refine reportsLowestCode_of_clauses ?_ fun hnone => ?_
  · rintro c (⟨rfl, h⟩ | ⟨rfl, h⟩ | ⟨rfl, h⟩) hlow
    · exact hbad h
    · obtain ⟨hw, hvalw⟩ := hwidth hlow (by decide)
      exact hdiv hw hvalw h
    · obtain ⟨hw, hvalw⟩ := hwidth hlow (by decide)
      exact hcap hw hvalw (hdivides hlow (by decide)) h
  · obtain ⟨hw, hvalw⟩ := hwidth hnone (by decide)
    have hfits : within (s.bin.length / s.w) s.platform.capVals := by
      simpa [causeHolds] using hnone 10 (by decide)
    obtain ⟨v, ht, -⟩ := hok hw hvalw (hdivides hnone (by decide)) hfits
    exact ⟨_, ht, rfl⟩

theorem reportsLowestCode_bytes2bits (s : State) : ReportsLowestCode .bytes2bits s := by
  obtain ⟨-, hclauses⟩ := bytes2bitsWritesDigitsOrFaults
  obtain ⟨hbad, hrange, hcap, hok⟩ := hclauses s
  have hwidth {c : Nat} (h : NoCauseBelow .bytes2bits s c) (hc : 3 < c) : 1 ≤ s.w := by
    simpa [causeHolds, Nat.one_le_iff_ne_zero] using h 3 hc
  have hsmall {c : Nat} (h : NoCauseBelow .bytes2bits s c) (hc : 9 < c) : ∀ x ∈ s.vin, x ≤ 2 ^ s.w - 1 := by
    simpa [causeHolds] using h 9 hc
  refine reportsLowestCode_of_clauses ?_ fun hnone => ?_
  · rintro c (⟨rfl, h⟩ | ⟨rfl, h⟩ | ⟨rfl, h⟩) hlow
    · exact hbad h
    · exact hrange (hwidth hlow (by decide)) h
    · exact hcap (hwidth hlow (by decide)) (hsmall hlow (by decide)) h
  · have hfits : within (s.w * s.vin.length) s.platform.capBits := by
      simpa [causeHolds] using hnone 10 (by decide)
    obtain ⟨b, ht, -⟩ := hok (hwidth hnone (by decide)) (hsmall hnone (by decide)) hfits
    exact ⟨_, ht, rfl⟩

/-- The character commands have one rule and one table of causes. -/
theorem causeHolds_char {i : Instr} (hi : i = .bytes2chars ∨ i = .chars2bytes) (s : State) (c : Nat) :
    causeHolds i s c ↔
      (c = 9 ∧ ∃ x ∈ s.vin, 255 < x) ∨ (c = 10 ∧ ¬ within s.vin.length s.platform.capVals) := by
  obtain rfl | rfl := hi <;> rfl

theorem listedOutputs_char {i : Instr} (hi : i = .bytes2chars ∨ i = .chars2bytes) : listedOutputs i = [.vout] := by
  obtain rfl | rfl := hi <;> rfl

theorem reportsLowestCode_char {i : Instr} (hi : i = .bytes2chars ∨ i = .chars2bytes) (s : State) :
    ReportsLowestCode i s := by
  obtain ⟨-, -, hclauses⟩ := characterCommandsCopyBytesOrFault
  obtain ⟨hrange, hcap, hok⟩ := hclauses s i hi
  have hsmall {c : Nat} (h : NoCauseBelow i s c) (hc : 9 < c) : ∀ x ∈ s.vin, x ≤ 255 := by
    simpa [causeHolds_char hi] using h 9 hc
  refine reportsLowestCode_of_clauses (fun c hcause hlow => ?_) fun hnone => ?_
  · rw [listedOutputs_char hi]
    obtain ⟨rfl, h⟩ | ⟨rfl, h⟩ := (causeHolds_char hi s c).1 hcause
    · exact hrange h
    · exact hcap (hsmall hlow (by decide)) h
  · have hfits : within s.vin.length s.platform.capVals := by
      simpa [causeHolds_char hi] using hnone 10 (by decide)
    exact ⟨_, hok (hsmall hnone (by decide)) hfits, rfl⟩

theorem reportsLowestCode_pad (s : State) : ReportsLowestCode .pad s := by
  obtain ⟨-, hclauses⟩ := padPrependsZerosOrFaults
  obtain ⟨hbad, hcap, hok⟩ := hclauses s
  have hwidth {c : Nat} (h : NoCauseBelow .pad s c) (hc : 3 < c) : 1 ≤ s.w := by
    simpa [causeHolds, Nat.one_le_iff_ne_zero] using h 3 hc
  refine reportsLowestCode_of_clauses ?_ fun hnone => ?_
  · rintro c (⟨rfl, h⟩ | ⟨rfl, h⟩) hlow
    · exact hbad h
    · exact hcap (hwidth hlow (by decide)) h
  · have hfits : within (s.w * ((s.bin.length + s.w - 1) / s.w)) s.platform.capBits := by
      simpa [causeHolds] using hnone 10 (by decide)
    obtain ⟨b, ht, -⟩ := hok (hwidth hnone (by decide)) hfits
    exact ⟨_, ht, rfl⟩

theorem reportsLowestCode_frame (s : State) : ReportsLowestCode .frame s := by
  obtain ⟨-, hclauses⟩ := frameCountsGroupsOrFaults
  obtain ⟨hbad, hdiv, hcap, hok⟩ := hclauses s
  have hwidth {c : Nat} (h : NoCauseBelow .frame s c) (hc : 3 < c) : 1 ≤ s.w := by
    simpa [causeHolds, Nat.one_le_iff_ne_zero] using h 3 hc
  have hdivides {c : Nat} (h : NoCauseBelow .frame s c) (hc : 8 < c) : s.vin.length % s.w = 0 := by
    simpa [causeHolds] using h 8 hc
  refine reportsLowestCode_of_clauses ?_ fun hnone => ?_
  · rintro c (⟨rfl, h⟩ | ⟨rfl, h⟩ | ⟨rfl, h⟩) hlow
    · exact hbad h
    · exact hdiv (hwidth hlow (by decide)) h
    · exact hcap (hwidth hlow (by decide)) (hdivides hlow (by decide)) h
  · have hfits : within s.vin.length s.platform.capVals := by
      simpa [causeHolds] using hnone 10 (by decide)
    exact ⟨_, hok (hwidth hnone (by decide)) (hdivides hnone (by decide)) hfits, rfl⟩

theorem reportsLowestCode_mkperm (drawn : Bool) (s : State) : ReportsLowestCode (.mkperm drawn) s := by
  obtain ⟨-, -, hclauses⟩ := mkpermMakesABijectionOrFaults
  obtain ⟨hcap, hok⟩ := hclauses s drawn
  refine reportsLowestCode_of_clauses ?_ fun hnone => ?_
  · rintro c ⟨rfl, h⟩ -
    exact hcap h
  · have hfits : within s.w s.platform.capPerm := by simpa [causeHolds] using hnone 10 (by decide)
    obtain ⟨p, d, ht, -⟩ := hok hfits
    exact ⟨_, ht, rfl⟩

/-- ILV and DILV move BIN's bits after the same checks. -/
theorem exec_interleave {i : Instr} (hi : i = .ilv ∨ i = .dilv) (s : State) :
    ∃ effect, exec i s = command (interleaveChecks s) [.bout] effect s := by
  obtain rfl | rfl := hi
  · exact ⟨_, exec_ilv s⟩
  · exact ⟨_, exec_dilv s⟩

theorem causeHolds_interleave {i : Instr} (hi : i = .ilv ∨ i = .dilv) (s : State) (c : Nat) :
    causeHolds i s c ↔ (c = 6 ∧ s.perm.length ≠ s.bin.length) ∨
      (c = 7 ∧ s.perm.length = s.bin.length ∧ ¬ IsPerm s.perm s.bin.length) := by
  obtain rfl | rfl := hi <;> rfl

theorem listedOutputs_interleave {i : Instr} (hi : i = .ilv ∨ i = .dilv) : listedOutputs i = [.bout] := by
  obtain rfl | rfl := hi <;> rfl

theorem reportsLowestCode_interleave {i : Instr} (hi : i = .ilv ∨ i = .dilv) (s : State) : ReportsLowestCode i s := by
  obtain ⟨effect, hexec⟩ := exec_interleave hi s
  refine reportsLowestCode_of_clauses (fun c hcause _ => ?_) fun hnone => ?_
  · rw [listedOutputs_interleave hi, hexec]
    obtain ⟨rfl, hlen⟩ | ⟨rfl, hlen, hperm⟩ := (causeHolds_interleave hi s c).1 hcause
    · exact command_faultedWith _ _ _ (firstFault_interleaveChecks_of_length_ne hlen)
    · exact command_faultedWith _ _ _ (firstFault_interleaveChecks_of_not_isPerm hlen hperm)
  · have hlen : s.perm.length = s.bin.length := by simpa [causeHolds_interleave hi] using hnone 6 (by decide)
    have hperm : IsPerm s.perm s.bin.length := by
      by_contra hnot
      exact hnone 7 (by decide) ((causeHolds_interleave hi s 7).2 (.inr ⟨rfl, hlen, hnot⟩))
    rw [hexec, command_ok _ _ _ ((interleave_admitted_iff s).2 hperm)]
    exact ⟨_, rfl, statusDone_eq⟩

/-! The pipelines: the causes of (n, k) first, then each pipeline's own, then the codec's breach. -/

theorem one_le_params_of_noCauseBelow {i : Instr} (hi : (∃ drawn, i = .enc drawn) ∨ ∃ permuted, i = .dec permuted)
    {s : State} {c : Nat} (h : NoCauseBelow i s c) (hc : 2 < c) : 1 ≤ s.n ∧ 1 ≤ s.k := by
  have hnot := h 2 hc
  obtain ⟨drawn, rfl⟩ | ⟨permuted, rfl⟩ := hi <;> simpa [causeHolds, Nat.one_le_iff_ne_zero] using hnot

theorem params_of_noCauseBelow {i : Instr} (hi : (∃ drawn, i = .enc drawn) ∨ ∃ permuted, i = .dec permuted)
    {s : State} {c : Nat} (h : NoCauseBelow i s c) (hc : 5 < c) :
    1 ≤ s.n ∧ 1 ≤ s.k ∧ s.k ≤ s.n ∧ codecAccepts s.platform.codec s.n s.k = true := by
  obtain ⟨hn, hk⟩ := one_le_params_of_noCauseBelow hi h (by omega)
  have hkn : s.k ≤ s.n := by
    have hnot := h 4 (by omega)
    obtain ⟨drawn, rfl⟩ | ⟨permuted, rfl⟩ := hi <;> simpa [causeHolds] using hnot
  have haccepts : codecAccepts s.platform.codec s.n s.k = true := by
    have hnot := h 5 hc
    obtain ⟨drawn, rfl⟩ | ⟨permuted, rfl⟩ := hi <;> simpa [causeHolds, hk, hkn] using hnot
  exact ⟨hn, hk, hkn, haccepts⟩

theorem reportsLowestCode_enc (drawn : Bool) (s : State) : ReportsLowestCode (.enc drawn) s := by
  obtain ⟨hzero, hlt, hcodec, hcap, -⟩ := encAdmissionFaultsInOrder s drawn
  obtain ⟨-, -, hresult⟩ := encScattersTheCodecsCodewords
  have hadmitted {c : Nat} (h : NoCauseBelow (.enc drawn) s c) (hc : 10 < c) : encAdmitted s := by
    obtain ⟨hn, hk, hkn, haccepts⟩ := params_of_noCauseBelow (.inl ⟨drawn, rfl⟩) h (by omega)
    have hfits : within (8 * s.n * messageCount s) s.platform.capBits ∧
        within (8 * s.n * messageCount s) s.platform.capPerm := by
      simpa [causeHolds] using h 10 hc
    exact ⟨hn, hk, hkn, haccepts, hfits⟩
  refine reportsLowestCode_of_clauses ?_ fun hnone => ?_
  · rintro c (⟨rfl, h⟩ | ⟨rfl, h⟩ | ⟨rfl, hk, hkn, h⟩ | ⟨rfl, h⟩ | ⟨rfl, h⟩) hlow
    · exact hzero h
    · exact hlt (one_le_params_of_noCauseBelow (.inl ⟨drawn, rfl⟩) hlow (by decide)).1 h
    · exact hcodec hk hkn h
    · obtain ⟨-, hk, hkn, haccepts⟩ := params_of_noCauseBelow (.inl ⟨drawn, rfl⟩) hlow (by decide)
      exact hcap hk hkn haccepts h
    · exact (hresult s drawn (hadmitted hlow (by decide))).1 h
  · have hlen : ∀ j, j < messageCount s → (codewordBytes s j).length = s.n := by
      simpa [causeHolds] using hnone 11 (by decide)
    obtain ⟨b, p, d, ht, -⟩ := (hresult s drawn (hadmitted hnone (by decide))).2 hlen
    exact ⟨_, ht, rfl⟩

theorem isPerm_of_noCauseBelow_dec {permuted : Bool} {s : State} {c : Nat} (h : NoCauseBelow (.dec permuted) s c)
    (hc : 7 < c) (hp : permuted = true) : IsPerm s.perm s.bin.length := by
  have hlen : s.perm.length = s.bin.length := by simpa [causeHolds, hp] using h 6 (by omega)
  by_contra hnot
  exact h 7 hc (.inr (.inr (.inr (.inr (.inl ⟨rfl, hp, hlen, hnot⟩)))))

theorem reportsLowestCode_dec (permuted : Bool) (s : State) : ReportsLowestCode (.dec permuted) s := by
  obtain ⟨hzero, hlt, hcodec, hreceived⟩ := decAdmissionFaultsInOrder s permuted
  obtain ⟨-, -, hresult⟩ := decDeliversOrFallsBackPerCodeword
  have hadmission {c : Nat} (h : NoCauseBelow (.dec permuted) s c) (hc : 5 < c) :=
    have ⟨_, hk, hkn, haccepts⟩ := params_of_noCauseBelow (.inr ⟨permuted, rfl⟩) h hc
    hreceived hk hkn haccepts
  have hdivides {c : Nat} (h : NoCauseBelow (.dec permuted) s c) (hc : 8 < c) :
      s.bin.length % 8 = 0 ∧ s.bin.length / 8 % s.n = 0 := by
    simpa [causeHolds] using h 8 hc
  have hadmitted {c : Nat} (h : NoCauseBelow (.dec permuted) s c) (hc : 10 < c) : decAdmitted permuted s := by
    obtain ⟨hn, hk, hkn, haccepts⟩ := params_of_noCauseBelow (.inr ⟨permuted, rfl⟩) h (by omega)
    obtain ⟨hbytes, hgroups⟩ := hdivides h (by omega)
    have hfits : within (8 * s.k * codewordCount s) s.platform.capBits := by
      simpa [causeHolds] using h 10 hc
    exact ⟨hn, hk, hkn, haccepts, isPerm_of_noCauseBelow_dec h (by omega), hbytes, hgroups, hfits⟩
  refine reportsLowestCode_of_clauses ?_ fun hnone => ?_
  · rintro c (⟨rfl, h⟩ | ⟨rfl, h⟩ | ⟨rfl, hk, hkn, h⟩ | ⟨rfl, hp, h⟩ | ⟨rfl, hp, hlen, h⟩ | ⟨rfl, h⟩ | ⟨rfl, h⟩ |
      ⟨rfl, h⟩) hlow
    · exact hzero h
    · exact hlt (one_le_params_of_noCauseBelow (.inr ⟨permuted, rfl⟩) hlow (by decide)).1 h
    · exact hcodec hk hkn h
    · obtain ⟨hlength, -⟩ := hadmission hlow (by decide)
      exact hlength hp h
    · obtain ⟨-, hinvalid, -⟩ := hadmission hlow (by decide)
      exact hinvalid hp hlen h
    · obtain ⟨-, -, hdiv, -⟩ := hadmission hlow (by decide)
      exact hdiv (isPerm_of_noCauseBelow_dec hlow (by decide)) h
    · obtain ⟨-, -, -, hcap, -⟩ := hadmission hlow (by decide)
      obtain ⟨hbytes, hgroups⟩ := hdivides hlow (by decide)
      exact hcap (isPerm_of_noCauseBelow_dec hlow (by decide)) hbytes hgroups h
    · exact (hresult s permuted (hadmitted hlow (by decide))).1 h
  · have hfit : ∀ j, j < codewordCount s → believedCorrectable permuted s j = true →
        (correctedBytes permuted s j).length ≤ s.k := by
      simpa [causeHolds] using hnone 11 (by decide)
    obtain ⟨b, stat, ht, -⟩ := (hresult s permuted (hadmitted hnone (by decide))).2 hfit
    exact ⟨_, ht, rfl⟩

/-- Settles O31: the clauses of each command's own rule, taken at the lowest of the causes that hold. -/
theorem theLowestCodeIsReported : Obligations.TheLowestCodeIsReported := by
  unfold Obligations.TheLowestCodeIsReported
  intro i s
  cases i with
  | bits2bytes => exact reportsLowestCode_bits2bytes s
  | bytes2bits => exact reportsLowestCode_bytes2bits s
  | bytes2chars => exact reportsLowestCode_char (.inl rfl) s
  | chars2bytes => exact reportsLowestCode_char (.inr rfl) s
  | pad => exact reportsLowestCode_pad s
  | frame => exact reportsLowestCode_frame s
  | mkperm drawn => exact reportsLowestCode_mkperm drawn s
  | ilv => exact reportsLowestCode_interleave (.inl rfl) s
  | dilv => exact reportsLowestCode_interleave (.inr rfl) s
  | enc drawn => exact reportsLowestCode_enc drawn s
  | dec permuted => exact reportsLowestCode_dec permuted s

/-- A cause that holds for a command is one of the codes R236 lists for it. -/
theorem mem_listedFaults_of_causeHolds {i : Instr} {s : State} {c : Nat} (h : causeHolds i s c) :
    c ∈ listedFaults i := by
  cases i with
  | mkperm drawn => obtain ⟨rfl, -⟩ := h; simp [listedFaults]
  | bytes2chars | chars2bytes | pad | ilv | dilv =>
    obtain ⟨rfl, -⟩ | ⟨rfl, -⟩ := h <;> simp [listedFaults]
  | bits2bytes | bytes2bits | frame =>
    obtain ⟨rfl, -⟩ | ⟨rfl, -⟩ | ⟨rfl, -⟩ := h <;> simp [listedFaults]
  | enc drawn =>
    obtain ⟨rfl, -⟩ | ⟨rfl, -⟩ | ⟨rfl, -⟩ | ⟨rfl, -⟩ | ⟨rfl, -⟩ := h <;> simp [listedFaults]
  | dec permuted =>
    obtain ⟨rfl, -⟩ | ⟨rfl, -⟩ | ⟨rfl, -⟩ | ⟨rfl, -⟩ | ⟨rfl, -⟩ | ⟨rfl, -⟩ | ⟨rfl, -⟩ | ⟨rfl, -⟩ := h <;>
      simp [listedFaults]

/-- Settles O30: the code reported is that of a cause that holds, and every cause has a listed code. -/
theorem everyCommandEndsDoneOrInAListedFault : Obligations.EveryCommandEndsDoneOrInAListedFault := by
  unfold Obligations.EveryCommandEndsDoneOrInAListedFault
  intro i s
  obtain ⟨t, ht, ⟨hdone, -⟩ | ⟨c, hstatus, hcause, -⟩⟩ := theLowestCodeIsReported i s
  · exact ⟨t, ht, .inl hdone⟩
  · exact ⟨t, ht, .inr ⟨c, mem_listedFaults_of_causeHolds hcause, hstatus⟩⟩

/-! Fault entry (R238). -/

/-- Settles O32: a command that ends with PHASE FAULT did not complete, so it ended in the entry of its fault. -/
theorem faultEntryKeepsInputsAndUnlistedOutputs : Obligations.FaultEntryKeepsInputsAndUnlistedOutputs := by
  unfold Obligations.FaultEntryKeepsInputsAndUnlistedOutputs
  intro i s t ht hphase
  obtain ⟨f, he⟩ | ⟨u, he⟩ := exec_cases i s <;> rw [ht] at he <;> cases he
  · exact ⟨faultNumber f, faultNumber_pos f, faultNumber_le f, fcodeOf_statusFault f, cwStateOf_statusFault f,
      faultEntry_faultedWith f (listedOutputs i) s⟩
  · simp at hphase

/-! No trace of a fault (R239): STATUS and the working storage are written at the end of a command and read by none. -/

/-- `s` with another STATUS and other working storage. -/
def withTrace (status : BitVec 16) (work : Option Work) (s : State) : State :=
  { s with status := status, work := work }

theorem complete_withTrace (status : BitVec 16) (work : Option Work) (s : State) :
    complete (withTrace status work s) = complete s := rfl

theorem faultEntry_withTrace (f : FaultCode) (outs : List Output) (status : BitVec 16) (work : Option Work)
    (s : State) : faultEntry f outs (withTrace status work s) = faultEntry f outs s := rfl

theorem pipeline_withTrace (checks : Checks) (outs : List Output) {effect : State → Option State}
    {status : BitVec 16} {work : Option Work} {s : State}
    (h : effect (withTrace status work s) = (effect s).map (withTrace status work)) :
    pipeline checks outs effect (withTrace status work s) = pipeline checks outs effect s := by
  cases hc : firstFault checks with
  | some f => rw [pipeline_fault _ _ _ hc, pipeline_fault _ _ _ hc, faultEntry_withTrace]
  | none =>
    cases he : effect s with
    | none =>
      rw [he, Option.map_none] at h
      rw [pipeline_protocol _ hc h, pipeline_protocol _ hc he, faultEntry_withTrace]
    | some t =>
      rw [he, Option.map_some] at h
      rw [pipeline_ok _ hc h, pipeline_ok _ hc he, complete_withTrace]

theorem encEffect_withTrace (drawn : Bool) (status : BitVec 16) (work : Option Work) (s : State) :
    encEffect drawn (withTrace status work s) = (encEffect drawn s).map (withTrace status work) := by
  rw [encEffect_eq, encEffect_eq, encodeAll_congr (s := withTrace status work s) (s' := s) rfl rfl rfl,
    Option.map_map]
  cases drawn <;> rfl

theorem decEffect_withTrace (permuted : Bool) (status : BitVec 16) (work : Option Work) (s : State) :
    decEffect permuted (withTrace status work s) = (decEffect permuted s).map (withTrace status work) := by
  rw [decEffect_eq, decEffect_eq, decodeAll_congr (s := withTrace status work s) (s' := s) rfl rfl rfl,
    Option.map_map]
  rfl

/-- Settles O33: the checks and effect of a command read neither STATUS nor the working storage, and its end writes
both, which for a primitive command is so by definition. -/
theorem aFaultLeavesNoTraceInTheNextCommand : Obligations.AFaultLeavesNoTraceInTheNextCommand := by
  unfold Obligations.AFaultLeavesNoTraceInTheNextCommand
  intro i s status work
  cases i with
  | mkperm drawn => cases drawn <;> rfl
  | enc drawn => exact pipeline_withTrace (encChecks s) _ (encEffect_withTrace drawn status work s)
  | dec permuted => exact pipeline_withTrace (decChecks permuted s) _ (decEffect_withTrace permuted status work s)
  | _ => rfl

/-! Waiting (R244). -/

/-- Settles O47: with nothing scheduled a step is the framer's own, and a framer that is not BUSY makes none. -/
theorem waitingLosesNothing : Obligations.WaitingLosesNothing := by
  unfold Obligations.WaitingLosesNothing
  exact fun _ => step_waiting

end Sys2Proof.Machine
end

section
/-!
PROOFS. Reset at any moment (R265), and the host's accesses while a command runs (R30, R268).
-/

namespace Sys2Proof.Machine

/-! Reset (R265). -/

/-- Reset does not ask for the phase. -/
theorem event_reset (s : State) : event .reset s = .next (resetEntry s) := by
  unfold event
  split <;> rfl

/-- Settles O2: reset is taken off the schedule, and the phase does not matter. -/
theorem resetEventAbandonsEverything : Obligations.ResetEventAbandonsEverything := by
  unfold Obligations.ResetEventAbandonsEverything
  intro s rest
  rw [step_event rfl]
  exact event_reset _

/-! The host's accesses while a command runs (R30, R268). -/

theorem readableWhileBusy_iff (reg : Nat) : readableWhileBusy reg = true ↔ reg ∈ [1, 10, 11] := by
  simp [readableWhileBusy, or_assoc]

theorem busyEvent_read_of_readable {reg : Nat} (h : reg ∈ [1, 10, 11]) (s : State) :
    busyEvent (.read reg) s = readRegister reg s := if_pos ((readableWhileBusy_iff reg).2 h)

theorem busyEvent_read_of_not_readable {reg : Nat} (h : reg ∉ [1, 10, 11]) (s : State) :
    busyEvent (.read reg) s = .refused .accessWhileBusy := if_neg (mt (readableWhileBusy_iff reg).1 h)

/-- R268: what is no framer step, wait, reset or permitted read is refused. -/
theorem busyEvent_refused {e : Event} (hframer : e ≠ .framer) (hwait : e ≠ .wait) (hreset : e ≠ .reset)
    (hread : e ∉ [.read 1, .read 10, .read 11]) (s : State) : busyEvent e s = .refused .accessWhileBusy := by
  cases e with
  | framer => exact absurd rfl hframer
  | wait => exact absurd rfl hwait
  | reset => exact absurd rfl hreset
  | read reg => exact busyEvent_read_of_not_readable (by simpa using hread) s
  | _ => rfl

/-- R30: the reads permitted while BUSY answer STATUS, NCW and CWIDX and write only what the host last read. -/
theorem busyEvent_read_value {reg v : Nat} {s : State}
    (h : (reg, v) ∈ [(1, s.status.toNat), (10, s.ncw), (11, s.cwidx)]) :
    busyEvent (.read reg) s = .next { s with hostData := .number v } := by
  simp only [List.mem_cons, List.not_mem_nil, or_false, Prod.mk.injEq] at h
  obtain ⟨rfl, rfl⟩ | ⟨rfl, rfl⟩ | ⟨rfl, rfl⟩ := h
  all_goals
    rw [busyEvent_read_of_readable (by decide)]
    exact readRegister_of_some rfl

/-- Settles O44: the event is taken off the schedule, and while BUSY it is refused or is one of the three reads. -/
theorem hostAccessWhileBusyIsRefused : Obligations.HostAccessWhileBusyIsRefused := by
  unfold Obligations.HostAccessWhileBusyIsRefused
  intro s rest hb
  have hstep (e : Event) := step_scheduled_busy s e rest hb
  refine ⟨fun e hframer hwait hreset hread => ?_, fun reg v h => ?_⟩
  · rw [hstep]; exact busyEvent_refused hframer hwait hreset hread _
  · rw [hstep]; exact busyEvent_read_value (s := { s with schedule := rest }) h

end Sys2Proof.Machine
end
